-- ==== Sys2Proof/Word.lean ====
section
/-! DEFINITION. The word types of the machine (spec/00_scope.md R5, R6). -/

namespace Sys2Proof

/-- A general register, an address, an instruction word or a status register: 32 bits (R5). -/
abbrev Word := BitVec 32

/-- A byte of memory: 8 bits (R5). -/
abbrev Byte := BitVec 8

/-- A general register number, 0 to 15 (spec/10_state.md R20). -/
abbrev Reg := Fin 16

end Sys2Proof
end

