-- ==== Sys2Proof/Config.lean ====
section
/-! DEFINITION. What an implementation fixes: the named parameters of spec/00_scope.md R5 and spec/92_eei_decisions.md, and the
free values that the spec leaves to the implementation. -/

namespace Sys2Proof

/-- The architecture levels `ARCH` of R5. -/
inductive Arch
  | v5 | v5TE | v6
  deriving DecidableEq, Repr

/-- A range of addresses: `size` bytes from `base`. -/
structure Region where
  base : Nat
  size : Nat
  deriving DecidableEq, Repr

/-- The parameters the spec leaves OPEN, fixed for a run (log 6). A statement over every state holds for all their values.
`HAS_MMU` and `NPROC` have no effect in the model (D14, D10) and no field; `PKH_OPC` is `Config.pkhOpc`. -/
structure Params where
  /-- `ARCH`, R5. -/
  arch : Arch
  /-- `HAS_JAZELLE`, R5. -/
  hasJazelle : Bool
  /-- `jazelle_enabled`, spec/45_security_java_thumb2.md R266. -/
  jazelleEnabled : Bool
  /-- `HAS_TRUSTZONE`, R5. -/
  hasTrustZone : Bool
  /-- `RESET_E`, D7: the byte order at reset, on exception entry (R303), and of every data access below v6 (R61). -/
  resetE : Bool
  /-- `RESET_VECTOR`, D6. -/
  resetVector : Word
  /-- `VECTOR_BASE`, spec/60_exceptions.md R302. -/
  vectorBase : Word
  /-- `MONITOR_VECTOR_BASE`, R302. -/
  monitorVectorBase : Word
  /-- `SIMD_SAT_SETS_Q`, spec/43_v6_simd_addsub.md R193. -/
  simdSatSetsQ : Bool
  /-- The logarithm to base two of `ERG`, the bytes of a reservation granule, D22. -/
  ergLog2 : Nat
  /-- `SECURE_REGION`, spec/20_memory.md R70. -/
  secureRegions : List Region
  /-- The addresses that hold program text, R77. -/
  programText : List Region
  deriving DecidableEq, Repr

/-- `ERG` is at least a word (D22) and the reset and exception vectors are addresses of ARM instructions (R75). -/
def Params.wf (p : Params) : Bool :=
  2 ≤ p.ergLog2 && p.resetVector.extractLsb' 0 2 == 0#2 && p.vectorBase.extractLsb' 0 2 == 0#2
    && p.monitorVectorBase.extractLsb' 0 2 == 0#2

/-- `PKH_OPC`, bits 27:20 of PKHBT and PKHTB: the value that spec/30_encoding.md R98 takes (D19; PRESUMED, log 8). -/
def Config.pkhOpc : BitVec 8 := 0b01101000#8

/-- FREE VALUE: the address at which Jazelle execution starts after BXJ, which "the Jazelle hardware chooses (implementation
defined)" (R266), for the n-th time it is asked (log 22). -/
opaque Config.jazelleEntry : Nat → Word

end Sys2Proof
end

