-- ==== Sys2Proof/Syntax.lean ====
section
/-! DEFINITION. The instructions of spec/opcode_table.json, one constructor a row, and the forms their operands take. -/

namespace Sys2Proof

/-- The fifteen conditions of spec/30_encoding.md R92; 1111 is not a condition (R91). -/
inductive Cond
  | eq | ne | cs | cc | mi | pl | vs | vc | hi | ls | ge | lt | gt | le | al
  deriving DecidableEq, Repr

/-- The B/T selectors `x` and `y`: the bottom (bits 15:0) or the top (bits 31:16) half of a register (R105, R171). -/
inductive HalfSel
  | bottom | top
  deriving DecidableEq, Repr

/-- The four address forms of SRS and RFE (R143, R144): increment or decrement, after or before. -/
inductive AddrMode
  | ia | ib | da | db
  deriving DecidableEq, Repr

/-- The optional rotation of the extend instructions, in places to the right (R237). -/
inductive Rotation
  | none | by8 | by16 | by24
  deriving DecidableEq, Repr

/-- SSAT's preceding shift: `LSL #0..31` or `ASR #1..32` (R241). -/
inductive SatShift
  | lsl (amount : Nat)
  | asr (amount : Nat)
  deriving DecidableEq, Repr

/-- What CPS does to the mask bits (R141): CPSIE clears and CPSID sets those of A, I, F that are named; `CPS #mode` keeps them. -/
inductive MaskChange
  | keep
  | enable (a i f : Bool)
  | disable (a i f : Bool)
  deriving DecidableEq, Repr

/-- The instructions of spec/opcode_table.json. `c` is the condition; registers stand in the order of the assembler syntax
of R108; `x` of the dual multiplies says whether the halves of Rs are swapped first (R230). -/
inductive Instr
  -- the v5 extensions (spec/40_v5_extensions.md)
  | blxReg (c : Cond) (rm : Reg)
  | blxLabel (h : Bool) (imm24 : BitVec 24)
  | clz (c : Cond) (rd rm : Reg)
  | bkpt (imm16 : BitVec 16)
  | pld (i u : Bool) (rn : Reg) (addrMode : BitVec 12)
  | cdp2 (opc1 crn crd cpNum : BitVec 4) (opc2 : BitVec 3) (crm : BitVec 4)
  | mrc2 (opc1 : BitVec 3) (crn : BitVec 4) (rd : Reg) (cpNum : BitVec 4) (opc2 : BitVec 3) (crm : BitVec 4)
  -- v6 long multiply, control, semaphore, byte reverse, packing (spec/41_v6_control_sync_packing.md)
  | pkhbt (c : Cond) (rd rn rm : Reg) (lsl : Nat)
  | pkhtb (c : Cond) (rd rn rm : Reg) (asr : Nat)
  | umaal (c : Cond) (rdLo rdHi rm rs : Reg)
  | cps (change : MaskChange) (mode : Option (BitVec 5))
  | setend (big : Bool)
  | srs (am : AddrMode) (wb : Bool) (mode : BitVec 5)
  | rfe (am : AddrMode) (wb : Bool) (rn : Reg)
  | swp (c : Cond) (rd rm rn : Reg)
  | ldrex (c : Cond) (rd rn : Reg)
  | strex (c : Cond) (rd rm rn : Reg)
  | rev (c : Cond) (rd rm : Reg)
  | rev16 (c : Cond) (rd rm : Reg)
  | revsh (c : Cond) (rd rm : Reg)
  -- v5TE signal processing (spec/42_v5te_dsp.md)
  | smlaw (c : Cond) (y : HalfSel) (rd rm rs rn : Reg)
  | smulw (c : Cond) (y : HalfSel) (rd rm rs : Reg)
  | smlal (c : Cond) (x y : HalfSel) (rdLo rdHi rm rs : Reg)
  | smul (c : Cond) (x y : HalfSel) (rd rm rs : Reg)
  | qadd (c : Cond) (rd rm rn : Reg)
  | qsub (c : Cond) (rd rm rn : Reg)
  | qdadd (c : Cond) (rd rm rn : Reg)
  | qdsub (c : Cond) (rd rm rn : Reg)
  -- v6 SIMD add and subtract (spec/43_v6_simd_addsub.md)
  | uqadd8 (c : Cond) (rd rn rm : Reg)
  | qadd8 (c : Cond) (rd rn rm : Reg)
  | uadd8 (c : Cond) (rd rn rm : Reg)
  | sadd8 (c : Cond) (rd rn rm : Reg)
  | uqsub8 (c : Cond) (rd rn rm : Reg)
  | qsub8 (c : Cond) (rd rn rm : Reg)
  | usub8 (c : Cond) (rd rn rm : Reg)
  | ssub8 (c : Cond) (rd rn rm : Reg)
  | uqadd16 (c : Cond) (rd rn rm : Reg)
  | qadd16 (c : Cond) (rd rn rm : Reg)
  | uadd16 (c : Cond) (rd rn rm : Reg)
  | sadd16 (c : Cond) (rd rn rm : Reg)
  | uqsub16 (c : Cond) (rd rn rm : Reg)
  | qsub16 (c : Cond) (rd rn rm : Reg)
  | usub16 (c : Cond) (rd rn rm : Reg)
  | ssub16 (c : Cond) (rd rn rm : Reg)
  | uqaddsubx (c : Cond) (rd rn rm : Reg)
  | qaddsubx (c : Cond) (rd rn rm : Reg)
  | uaddsubx (c : Cond) (rd rn rm : Reg)
  | saddsubx (c : Cond) (rd rn rm : Reg)
  | uqsubaddx (c : Cond) (rd rn rm : Reg)
  | qsubaddx (c : Cond) (rd rn rm : Reg)
  | usubaddx (c : Cond) (rd rn rm : Reg)
  | ssubaddx (c : Cond) (rd rn rm : Reg)
  | uhsub8 (c : Cond) (rd rn rm : Reg)
  -- v6 dual multiplies, extend, saturate, select, sum of differences (spec/44_v6_dsp_support.md)
  | smuad (x : Bool) (c : Cond) (rd rm rs : Reg)
  | smusd (x : Bool) (c : Cond) (rd rm rs : Reg)
  | smlad (x : Bool) (c : Cond) (rd rm rs rn : Reg)
  | smlsd (x : Bool) (c : Cond) (rd rm rs rn : Reg)
  | smlald (x : Bool) (c : Cond) (rdLo rdHi rm rs : Reg)
  | smlsld (x : Bool) (c : Cond) (rdLo rdHi rm rs : Reg)
  | uxtb (c : Cond) (rd rm : Reg) (rot : Rotation)
  | sxtb16 (c : Cond) (rd rm : Reg) (rot : Rotation)
  | ssat (c : Cond) (rd : Reg) (n : Nat) (rm : Reg) (shift : SatShift)
  | sel (c : Cond) (rd rn rm : Reg)
  | usad8 (c : Cond) (rd rm rs : Reg)
  -- TrustZone and Jazelle (spec/45_security_java_thumb2.md)
  | smi (c : Cond) (imm16 : BitVec 16)
  | bxj (c : Cond) (rm : Reg)
  -- the base-set forms of the source's examples (spec/46_base_instructions_in_examples.md)
  | ldrPost (c : Cond) (add : Bool) (rd rn : Reg) (imm12 : BitVec 12)
  | subsImm (c : Cond) (rd rn : Reg) (rot : BitVec 4) (imm8 : BitVec 8)
  | b (c : Cond) (imm24 : BitVec 24)
  | msrCpsrF (c : Cond) (rm : Reg)
  deriving DecidableEq, Repr

end Sys2Proof
end

