-- ==== Sys2Proof/WellFormed.lean ====
section
/-! DEFINITION. Which terms of `Instr` are instructions: every operand is one that an encoding holds. Register combinations
that the spec refuses (R21, D21) are well formed: they decode, and their meaning refuses them by name. -/

namespace Sys2Proof

/-- SSAT's shift amounts: `LSL #0..31`, `ASR #1..32` (spec/44_v6_dsp_support.md R241). -/
def SatShift.wf : SatShift → Bool
  | .lsl n => n < 32
  | .asr n => 1 ≤ n && n ≤ 32

/-- CPS changes the mask bits, the mode, or both (spec/41_v6_control_sync_packing.md R141 lists three forms). -/
def MaskChange.wfWith (mode : Option (BitVec 5)) : MaskChange → Bool
  | .keep => mode.isSome
  | .enable _ _ _ => true
  | .disable _ _ _ => true

/-- The instruction's operands are in the ranges the spec gives them: PKH shifts (spec/30_encoding.md R102), SSAT's width and
shift (R241), the CPS forms (R141), and no accumulate operand 15 in SMLAD and SMLSD, whose words are those of SMUAD and SMUSD
(spec/93_implementation_defined.md G3). -/
def Instr.wf : Instr → Bool
  | .pkhbt _ _ _ _ lsl => lsl < 32
  | .pkhtb _ _ _ _ asr => 1 ≤ asr && asr ≤ 32
  | .cps change mode => change.wfWith mode
  | .ssat _ _ n _ shift => 1 ≤ n && n ≤ 32 && shift.wf
  | .smlad _ _ _ _ _ rn => rn != 15
  | .smlsd _ _ _ _ _ rn => rn != 15
  | _ => true

end Sys2Proof
end

