-- ==== Sys2Proof/Decode.lean ====
section
/-! DEFINITION. The decoder, total on any bytes, and after it the encoder. Eight formats are the source's (spec/30_encoding.md
R93 to R98); the other rows are those of spec/93_implementation_defined.md G3, general knowledge that the spec marks (PRESUMED,
log 9). The two tables hold masks and values as those places print them. -/

namespace Sys2Proof

/-! ## Fields of a word -/

/-- `w[lo+n-1:lo]` (spec/00_scope.md R6). -/
def getField (w : Word) (lo n : Nat) : BitVec n := w.extractLsb' lo n

/-- `w` with `v` in bits `lo+n-1:lo`. -/
def putField (w : Word) (lo : Nat) {n : Nat} (v : BitVec n) : Word :=
  (w &&& ~~~((BitVec.allOnes n).setWidth 32 <<< lo)) ||| (v.setWidth 32 <<< lo)

/-- `w[i]` as a Bool. -/
def getBit (w : Word) (i : Nat) : Bool := w.getLsbD i

/-- `w` with bit `i` set to `v`. -/
def putBit (w : Word) (i : Nat) (v : Bool) : Word := putField w i (BitVec.ofBool v)

/-- The register number in the four bits from `lo` up. -/
def getReg (w : Word) (lo : Nat) : Reg := (getField w lo 4).toFin

/-- `w` with register number `r` in the four bits from `lo` up. -/
def putReg (w : Word) (lo : Nat) (r : Reg) : Word := putField w lo (BitVec.ofFin (w := 4) r)

/-! ## Codes of the operand forms -/

/-- The condition field (spec/30_encoding.md R92). -/
def Cond.bits : Cond → BitVec 4
  | .eq => 0b0000#4 | .ne => 0b0001#4 | .cs => 0b0010#4 | .cc => 0b0011#4
  | .mi => 0b0100#4 | .pl => 0b0101#4 | .vs => 0b0110#4 | .vc => 0b0111#4
  | .hi => 0b1000#4 | .ls => 0b1001#4 | .ge => 0b1010#4 | .lt => 0b1011#4
  | .gt => 0b1100#4 | .le => 0b1101#4 | .al => 0b1110#4

/-- The condition of a field value; 1111 is none (R91). -/
def Cond.ofBits (b : BitVec 4) : Option Cond :=
  match b with
  | 0b0000#4 => some .eq | 0b0001#4 => some .ne | 0b0010#4 => some .cs | 0b0011#4 => some .cc
  | 0b0100#4 => some .mi | 0b0101#4 => some .pl | 0b0110#4 => some .vs | 0b0111#4 => some .vc
  | 0b1000#4 => some .hi | 0b1001#4 => some .ls | 0b1010#4 => some .ge | 0b1011#4 => some .lt
  | 0b1100#4 => some .gt | 0b1101#4 => some .le | 0b1110#4 => some .al
  | _ => none

/-- The selector bit of the v5TE multiplies: 0 bottom, 1 top (G3's x and y; PRESUMED, log 9). -/
def HalfSel.bit : HalfSel → Bool
  | .bottom => false
  | .top => true

def HalfSel.ofBit : Bool → HalfSel
  | false => .bottom
  | true => .top

/-- `rot = r / 8` (G3). -/
def Rotation.bits : Rotation → BitVec 2
  | .none => 0b00#2 | .by8 => 0b01#2 | .by16 => 0b10#2 | .by24 => 0b11#2

def Rotation.ofBits (b : BitVec 2) : Rotation :=
  match b with
  | 0b00#2 => .none | 0b01#2 => .by8 | 0b10#2 => .by16 | 0b11#2 => .by24

/-- The P and U bits, P first: P is before, U is up, as in the family's load and store multiple (PRESUMED, log 11). -/
def AddrMode.bits : AddrMode → BitVec 2
  | .ia => 0b01#2 | .ib => 0b11#2 | .da => 0b00#2 | .db => 0b10#2

def AddrMode.ofBits (b : BitVec 2) : AddrMode :=
  match b with
  | 0b01#2 => .ia | 0b11#2 => .ib | 0b00#2 => .da | 0b10#2 => .db

/-- An arithmetic right shift of 1 to 32 in five bits, 32 stored as 00000 (R102 for PKHTB; for SSAT PRESUMED, log 40). -/
def asrField (amount : Nat) : BitVec 5 := BitVec.ofNat 5 amount

def asrAmount (f : BitVec 5) : Nat := if f = 0#5 then 32 else f.toNat

/-- SSAT's shift field and sh bit: sh = 0 LSL, 1 ASR (G3, which gives ASR #32 no code: the model takes PKHTB's, log 40). -/
def SatShift.bits : SatShift → BitVec 5 × Bool
  | .lsl n => (BitVec.ofNat 5 n, false)
  | .asr n => (asrField n, true)

def SatShift.ofBits (f : BitVec 5) (sh : Bool) : SatShift :=
  if sh then .asr (asrAmount f) else .lsl f.toNat

/-- CPS's imod, M, A, I, F and mode fields (G3): imod 10 is IE, 11 is ID, M = 1 when a mode is given. -/
def MaskChange.bits : MaskChange → BitVec 2 × BitVec 3
  | .keep => (0b00#2, 0b000#3)
  | .enable a i f => (0b10#2, BitVec.ofBool a ++ BitVec.ofBool i ++ BitVec.ofBool f)
  | .disable a i f => (0b11#2, BitVec.ofBool a ++ BitVec.ofBool i ++ BitVec.ofBool f)

/-! ## Decoding -/

/-- Why the decoder gives no instruction. -/
inductive DecodeError
  /-- The word matches no row (spec/30_encoding.md R103): never said to be illegal. -/
  | encodingNotInSource
  /-- MCR2, LDC2 or STC2, which have no rule (spec/40_v5_extensions.md R127). -/
  | coprocessorNotSpecified
  /-- A halving form (spec/43_v6_simd_addsub.md R219) or USADA8 (spec/44_v6_dsp_support.md R244). -/
  | notNamedBySource
  /-- A CPS word of none of R141's three forms. -/
  | reservedCpsForm
  /-- Fewer than four bytes were given. -/
  | truncated
  deriving DecidableEq, Repr

/-- A row of the opcode table: the constant bits, and how the rest is read (with the condition, where there is one). -/
structure DecodeRow where
  mask : Word
  value : Word
  read : Cond → Word → Except DecodeError Instr

def DecodeRow.fits (r : DecodeRow) (w : Word) : Bool := w &&& r.mask == r.value

/-- `Rd` in bits 15:12, `Rm` in bits 3:0. -/
def readRdRm (k : Cond → Reg → Reg → Instr) (c : Cond) (w : Word) : Except DecodeError Instr :=
  .ok (k c (getReg w 12) (getReg w 0))

/-- `Rn` in bits 19:16, `Rd` in bits 15:12, `Rm` in bits 3:0, the constructor's order Rd, Rn, Rm. -/
def readRdRnRm (k : Cond → Reg → Reg → Reg → Instr) (c : Cond) (w : Word) : Except DecodeError Instr :=
  .ok (k c (getReg w 12) (getReg w 16) (getReg w 0))

/-- The same fields, the constructor's order Rd, Rm, Rn. -/
def readRdRmRn (k : Cond → Reg → Reg → Reg → Instr) (c : Cond) (w : Word) : Except DecodeError Instr :=
  .ok (k c (getReg w 12) (getReg w 0) (getReg w 16))

/-- A multiply: `Rd` in bits 19:16, `Rs` in bits 11:8, `Rm` in bits 3:0, the constructor's order Rd, Rm, Rs. -/
def readRdRmRs (k : Cond → Reg → Reg → Reg → Instr) (c : Cond) (w : Word) : Except DecodeError Instr :=
  .ok (k c (getReg w 16) (getReg w 0) (getReg w 8))

/-- A multiply-accumulate: as `readRdRmRs` and `Rn` in bits 15:12, the constructor's order Rd, Rm, Rs, Rn. -/
def readRdRmRsRn (k : Cond → Reg → Reg → Reg → Reg → Instr) (c : Cond) (w : Word) : Except DecodeError Instr :=
  .ok (k c (getReg w 16) (getReg w 0) (getReg w 8) (getReg w 12))

/-- A long multiply: `RdHi` in bits 19:16, `RdLo` in bits 15:12, the constructor's order RdLo, RdHi, Rm, Rs. -/
def readLong (k : Cond → Reg → Reg → Reg → Reg → Instr) (c : Cond) (w : Word) : Except DecodeError Instr :=
  .ok (k c (getReg w 12) (getReg w 16) (getReg w 0) (getReg w 8))

def readCps (w : Word) : Except DecodeError Instr :=
  let m := getBit w 17
  let mode : Option (BitVec 5) := if m then some (getField w 0 5) else none
  let a := getBit w 8
  let i := getBit w 7
  let f := getBit w 6
  if !m && getField w 0 5 != 0#5 then .error .reservedCpsForm
  else match getField w 18 2 with
    | 0b00#2 => if m && !a && !i && !f then .ok (.cps .keep mode) else .error .reservedCpsForm
    | 0b10#2 => .ok (.cps (.enable a i f) mode)
    | 0b11#2 => .ok (.cps (.disable a i f) mode)
    | _ => .error .reservedCpsForm

/-- SMUAD and SMLAD share their words' constant bits: an accumulate field of 1111 is the form without accumulate (G3). -/
def readDual (plain : Bool → Cond → Reg → Reg → Reg → Instr) (acc : Bool → Cond → Reg → Reg → Reg → Reg → Instr)
    (c : Cond) (w : Word) : Except DecodeError Instr :=
  if getReg w 12 = 15 then readRdRmRs (plain (getBit w 5)) c w else readRdRmRsRn (acc (getBit w 5)) c w

/-- The unconditional space, bits 31:28 = 1111 (R91, R107): BLX label and PLD are sourced, the others recalled (G3). -/
def unconditionalRows : List DecodeRow := [
  ⟨0xFE000000#32, 0xFA000000#32, fun _ w => .ok (.blxLabel (getBit w 24) (getField w 0 24))⟩,
  ⟨0xFD70F000#32, 0xF550F000#32, fun _ w => .ok (.pld (getBit w 25) (getBit w 23) (getReg w 16) (getField w 0 12))⟩,
  ⟨0xFF000010#32, 0xFE000000#32, fun _ w => .ok (.cdp2 (getField w 20 4) (getField w 16 4) (getField w 12 4)
    (getField w 8 4) (getField w 5 3) (getField w 0 4))⟩,
  ⟨0xFF100010#32, 0xFE100010#32, fun _ w => .ok (.mrc2 (getField w 21 3) (getField w 16 4) (getReg w 12)
    (getField w 8 4) (getField w 5 3) (getField w 0 4))⟩,
  ⟨0xFFF1FE20#32, 0xF1000000#32, fun _ w => readCps w⟩,
  ⟨0xFFFFFDFF#32, 0xF1010000#32, fun _ w => .ok (.setend (getBit w 9))⟩,
  ⟨0xFE5FFFE0#32, 0xF84D0500#32, fun _ w => .ok (.srs (.ofBits (getField w 23 2)) (getBit w 21) (getField w 0 5))⟩,
  ⟨0xFE50FFFF#32, 0xF8100A00#32, fun _ w => .ok (.rfe (.ofBits (getField w 23 2)) (getBit w 21) (getReg w 16))⟩,
  -- MCR2, LDC2, STC2: alluded to by "etc.", no rule (R127)
  ⟨0xFF100010#32, 0xFE000010#32, fun _ _ => .error .coprocessorNotSpecified⟩,
  ⟨0xFE100000#32, 0xFC100000#32, fun _ _ => .error .coprocessorNotSpecified⟩,
  ⟨0xFE100000#32, 0xFC000000#32, fun _ _ => .error .coprocessorNotSpecified⟩]

/-- The sourced formats with a condition field, and BKPT, whose field is the constant 1110 (R93, R95, R96, R98, R107). -/
def sourcedRows : List DecodeRow := [
  ⟨0xFFF000F0#32, 0xE1200070#32, fun _ w => .ok (.bkpt (getField w 8 12 ++ getField w 0 4))⟩,
  ⟨0x0FFFFFF0#32, 0x012FFF30#32, fun c w => .ok (.blxReg c (getReg w 0))⟩,
  ⟨0x0FFFFFF0#32, 0x012FFF20#32, fun c w => .ok (.bxj c (getReg w 0))⟩,
  ⟨0x0FFF0FF0#32, 0x016F0F10#32, readRdRm .clz⟩,
  ⟨0x0FF00070#32, putField 0x00000010#32 20 Config.pkhOpc, fun c w =>
    .ok (.pkhbt c (getReg w 12) (getReg w 16) (getReg w 0) (getField w 7 5).toNat)⟩,
  ⟨0x0FF00070#32, putField 0x00000050#32 20 Config.pkhOpc, fun c w =>
    .ok (.pkhtb c (getReg w 12) (getReg w 16) (getReg w 0) (asrAmount (getField w 7 5)))⟩]

/-- Recalled rows (G3): multiplies, semaphores, byte reversal, saturating arithmetic, status and base forms. -/
def recalledBaseRows : List DecodeRow := [
  ⟨0x0FF000F0#32, 0x00400090#32, readLong .umaal⟩,
  ⟨0x0FF00FF0#32, 0x01000090#32, readRdRmRn .swp⟩,
  ⟨0x0FF00FFF#32, 0x01900F9F#32, fun c w => .ok (.ldrex c (getReg w 12) (getReg w 16))⟩,
  ⟨0x0FF00FF0#32, 0x01800F90#32, readRdRmRn .strex⟩,
  ⟨0x0FFF0FF0#32, 0x06BF0F30#32, readRdRm .rev⟩,
  ⟨0x0FFF0FF0#32, 0x06BF0FB0#32, readRdRm .rev16⟩,
  ⟨0x0FFF0FF0#32, 0x06FF0FB0#32, readRdRm .revsh⟩,
  ⟨0x0FF000B0#32, 0x01200080#32, fun c w => readRdRmRsRn (.smlaw · (.ofBit (getBit w 6))) c w⟩,
  ⟨0x0FF0F0B0#32, 0x012000A0#32, fun c w => readRdRmRs (.smulw · (.ofBit (getBit w 6))) c w⟩,
  ⟨0x0FF00090#32, 0x01400080#32, fun c w => readLong (.smlal · (.ofBit (getBit w 5)) (.ofBit (getBit w 6))) c w⟩,
  ⟨0x0FF0F090#32, 0x01600080#32, fun c w => readRdRmRs (.smul · (.ofBit (getBit w 5)) (.ofBit (getBit w 6))) c w⟩,
  ⟨0x0FF00FF0#32, 0x01000050#32, readRdRmRn .qadd⟩,
  ⟨0x0FF00FF0#32, 0x01200050#32, readRdRmRn .qsub⟩,
  ⟨0x0FF00FF0#32, 0x01400050#32, readRdRmRn .qdadd⟩,
  ⟨0x0FF00FF0#32, 0x01600050#32, readRdRmRn .qdsub⟩,
  ⟨0x0FF000F0#32, 0x01600070#32, fun c w => .ok (.smi c (getField w 8 12 ++ getField w 0 4))⟩,
  ⟨0x0F700000#32, 0x04100000#32, fun c w => .ok (.ldrPost c (getBit w 23) (getReg w 12) (getReg w 16) (getField w 0 12))⟩,
  ⟨0x0FF00000#32, 0x02500000#32, fun c w => .ok (.subsImm c (getReg w 12) (getReg w 16) (getField w 8 4) (getField w 0 8))⟩,
  ⟨0x0F000000#32, 0x0A000000#32, fun c w => .ok (.b c (getField w 0 24))⟩,
  ⟨0x0FFFFFF0#32, 0x0128F000#32, fun c w => .ok (.msrCpsrF c (getReg w 0))⟩]

/-- Recalled rows (G3): the SIMD add and subtract instructions, Rd, Rn, Rm. -/
def recalledSimdRows : List DecodeRow := [
  ⟨0x0FF00FF0#32, 0x06600F90#32, readRdRnRm .uqadd8⟩,
  ⟨0x0FF00FF0#32, 0x06200F90#32, readRdRnRm .qadd8⟩,
  ⟨0x0FF00FF0#32, 0x06500F90#32, readRdRnRm .uadd8⟩,
  ⟨0x0FF00FF0#32, 0x06100F90#32, readRdRnRm .sadd8⟩,
  ⟨0x0FF00FF0#32, 0x06600FF0#32, readRdRnRm .uqsub8⟩,
  ⟨0x0FF00FF0#32, 0x06200FF0#32, readRdRnRm .qsub8⟩,
  ⟨0x0FF00FF0#32, 0x06500FF0#32, readRdRnRm .usub8⟩,
  ⟨0x0FF00FF0#32, 0x06100FF0#32, readRdRnRm .ssub8⟩,
  ⟨0x0FF00FF0#32, 0x06600F10#32, readRdRnRm .uqadd16⟩,
  ⟨0x0FF00FF0#32, 0x06200F10#32, readRdRnRm .qadd16⟩,
  ⟨0x0FF00FF0#32, 0x06500F10#32, readRdRnRm .uadd16⟩,
  ⟨0x0FF00FF0#32, 0x06100F10#32, readRdRnRm .sadd16⟩,
  ⟨0x0FF00FF0#32, 0x06600F70#32, readRdRnRm .uqsub16⟩,
  ⟨0x0FF00FF0#32, 0x06200F70#32, readRdRnRm .qsub16⟩,
  ⟨0x0FF00FF0#32, 0x06500F70#32, readRdRnRm .usub16⟩,
  ⟨0x0FF00FF0#32, 0x06100F70#32, readRdRnRm .ssub16⟩,
  ⟨0x0FF00FF0#32, 0x06600F30#32, readRdRnRm .uqaddsubx⟩,
  ⟨0x0FF00FF0#32, 0x06200F30#32, readRdRnRm .qaddsubx⟩,
  ⟨0x0FF00FF0#32, 0x06500F30#32, readRdRnRm .uaddsubx⟩,
  ⟨0x0FF00FF0#32, 0x06100F30#32, readRdRnRm .saddsubx⟩,
  ⟨0x0FF00FF0#32, 0x06600F50#32, readRdRnRm .uqsubaddx⟩,
  ⟨0x0FF00FF0#32, 0x06200F50#32, readRdRnRm .qsubaddx⟩,
  ⟨0x0FF00FF0#32, 0x06500F50#32, readRdRnRm .usubaddx⟩,
  ⟨0x0FF00FF0#32, 0x06100F50#32, readRdRnRm .ssubaddx⟩,
  ⟨0x0FF00FF0#32, 0x06700FF0#32, readRdRnRm .uhsub8⟩]

/-- The words of the eleven halving forms the source does not name (R219; G3's ppp = 011 and 111): refused by name. -/
def unnamedHalvingRows : List DecodeRow :=
  [0x06300F10#32, 0x06300F30#32, 0x06300F50#32, 0x06300F70#32, 0x06300F90#32, 0x06300FF0#32
   , 0x06700F10#32, 0x06700F30#32, 0x06700F50#32, 0x06700F70#32, 0x06700F90#32].map
    fun v => ⟨0x0FF00FF0#32, v, fun _ _ => .error .notNamedBySource⟩

/-- Recalled rows (G3): dual multiplies, extend, saturate, select, sum of absolute differences. The accumulate field 1111 names
SMUAD, SMUSD and USAD8; another value there names SMLAD, SMLSD and USADA8, the last of which has no rule (R244). -/
def recalledDspRows : List DecodeRow := [
  ⟨0x0FF000D0#32, 0x07000010#32, readDual .smuad .smlad⟩,
  ⟨0x0FF000D0#32, 0x07000050#32, readDual .smusd .smlsd⟩,
  ⟨0x0FF000D0#32, 0x07400010#32, fun c w => readLong (.smlald (getBit w 5)) c w⟩,
  ⟨0x0FF000D0#32, 0x07400050#32, fun c w => readLong (.smlsld (getBit w 5)) c w⟩,
  ⟨0x0FFF03F0#32, 0x06EF0070#32, fun c w => .ok (.uxtb c (getReg w 12) (getReg w 0) (.ofBits (getField w 10 2)))⟩,
  ⟨0x0FFF03F0#32, 0x068F0070#32, fun c w => .ok (.sxtb16 c (getReg w 12) (getReg w 0) (.ofBits (getField w 10 2)))⟩,
  ⟨0x0FE00030#32, 0x06A00010#32, fun c w => .ok (.ssat c (getReg w 12) ((getField w 16 5).toNat + 1) (getReg w 0)
    (.ofBits (getField w 7 5) (getBit w 6)))⟩,
  ⟨0x0FF00FF0#32, 0x06800FB0#32, readRdRnRm .sel⟩,
  ⟨0x0FF000F0#32, 0x07800010#32, fun c w =>
    if getReg w 12 = 15 then readRdRmRs .usad8 c w else .error .notNamedBySource⟩]

/-- Every row with a condition field; the sourced ones are tried first (R107). -/
def conditionalRows : List DecodeRow :=
  sourcedRows ++ recalledBaseRows ++ recalledSimdRows ++ unnamedHalvingRows ++ recalledDspRows

/-- The first row that fits, or the refusal of R103. -/
def lookup (rows : List DecodeRow) (c : Cond) (w : Word) : Except DecodeError Instr :=
  match rows.find? (·.fits w) with
  | some r => r.read c w
  | none => .error .encodingNotInSource

/-- The instruction a 32-bit word is, in ARM state (R90, R107): bits 31:28 = 1111 opens the unconditional space. -/
def decodeWord (w : Word) : Except DecodeError Instr :=
  match Cond.ofBits (getField w 28 4) with
  | none => lookup unconditionalRows .al w
  | some c => lookup conditionalRows c w

/-- The word of four bytes, the first at the lowest address: fetch is little-endian (spec/20_memory.md R62). -/
def wordOfBytes (b0 b1 b2 b3 : Byte) : Word := b3 ++ b2 ++ b1 ++ b0

/-- The four bytes of a word, the one at the lowest address first (R62). -/
def bytesOfWord (w : Word) : List Byte := [getField w 0 8, getField w 8 8, getField w 16 8, getField w 24 8]

/-- Reads one instruction from the front of a list of bytes and returns it with the rest. -/
def decodeBytes : List Byte → Except DecodeError (Instr × List Byte)
  | b0 :: b1 :: b2 :: b3 :: rest =>
    match decodeWord (wordOfBytes b0 b1 b2 b3) with
    | .ok i => .ok (i, rest)
    | .error e => .error e
  | _ => .error .truncated

/-- The word whose low `nbits` bits are those of `w` and whose other bits are 0. -/
def tableWord (nbits w : Nat) : Word := BitVec.ofNat 32 (w % 2 ^ nbits)

/-- The instruction the decoder reads from the bytes of a table row's word. -/
def decodeTableWord (nbits w : Nat) : Option Instr :=
  match decodeBytes (bytesOfWord (tableWord nbits w)) with
  | .ok (i, _) => some i
  | .error _ => none

/-! ## Encoding, from the same tables -/

def encRdRm (v : Word) (c : Cond) (rd rm : Reg) : Word := putReg (putReg (putField v 28 c.bits) 12 rd) 0 rm

/-- Rn in bits 19:16, Rd in bits 15:12, Rm in bits 3:0. -/
def encRdRnRm (v : Word) (c : Cond) (rd rn rm : Reg) : Word := putReg (encRdRm v c rd rm) 16 rn

/-- Rd in bits 19:16, Rs in bits 11:8, Rm in bits 3:0. -/
def encRdRmRs (v : Word) (c : Cond) (rd rm rs : Reg) : Word :=
  putReg (putReg (putReg (putField v 28 c.bits) 16 rd) 8 rs) 0 rm

/-- As `encRdRmRs`, and the fourth register in bits 15:12. -/
def encRdRmRsRn (v : Word) (c : Cond) (rd rm rs rn : Reg) : Word := putReg (encRdRmRs v c rd rm rs) 12 rn

/-- RdHi in bits 19:16, RdLo in bits 15:12, Rs in bits 11:8, Rm in bits 3:0. -/
def encLong (v : Word) (c : Cond) (rdLo rdHi rm rs : Reg) : Word := encRdRmRsRn v c rdHi rm rs rdLo

/-- The word of an instruction, for a well-formed one the word that R93 to R98 and G3 give it. -/
def encode : Instr → Word
  | .blxReg c rm => putReg (putField 0x012FFF30#32 28 c.bits) 0 rm
  | .blxLabel h imm24 => putField (putBit 0xFA000000#32 24 h) 0 imm24
  | .clz c rd rm => encRdRm 0x016F0F10#32 c rd rm
  | .bkpt imm16 => putField (putField 0xE1200070#32 8 (imm16.extractLsb' 4 12)) 0 (imm16.extractLsb' 0 4)
  | .pld i u rn addrMode => putField (putReg (putBit (putBit 0xF550F000#32 25 i) 23 u) 16 rn) 0 addrMode
  | .cdp2 opc1 crn crd cpNum opc2 crm =>
    putField (putField (putField (putField (putField (putField 0xFE000000#32 20 opc1) 16 crn) 12 crd) 8 cpNum) 5 opc2) 0 crm
  | .mrc2 opc1 crn rd cpNum opc2 crm =>
    putField (putField (putField (putReg (putField (putField 0xFE100010#32 21 opc1) 16 crn) 12 rd) 8 cpNum) 5 opc2) 0 crm
  | .pkhbt c rd rn rm lsl => putField (encRdRnRm (putField 0x00000010#32 20 Config.pkhOpc) c rd rn rm) 7 (BitVec.ofNat 5 lsl)
  | .pkhtb c rd rn rm asr => putField (encRdRnRm (putField 0x00000050#32 20 Config.pkhOpc) c rd rn rm) 7 (asrField asr)
  | .umaal c rdLo rdHi rm rs => encLong 0x00400090#32 c rdLo rdHi rm rs
  | .cps change mode =>
    putField (putField (putBit (putField 0xF1000000#32 0 (mode.getD 0#5)) 17 mode.isSome) 18 change.bits.1) 6 change.bits.2
  | .setend big => putBit 0xF1010000#32 9 big
  | .srs am wb mode => putField (putBit (putField 0xF84D0500#32 23 am.bits) 21 wb) 0 mode
  | .rfe am wb rn => putReg (putBit (putField 0xF8100A00#32 23 am.bits) 21 wb) 16 rn
  | .swp c rd rm rn => encRdRnRm 0x01000090#32 c rd rn rm
  | .ldrex c rd rn => putReg (putReg (putField 0x01900F9F#32 28 c.bits) 12 rd) 16 rn
  | .strex c rd rm rn => encRdRnRm 0x01800F90#32 c rd rn rm
  | .rev c rd rm => encRdRm 0x06BF0F30#32 c rd rm
  | .rev16 c rd rm => encRdRm 0x06BF0FB0#32 c rd rm
  | .revsh c rd rm => encRdRm 0x06FF0FB0#32 c rd rm
  | .smlaw c y rd rm rs rn => putBit (encRdRmRsRn 0x01200080#32 c rd rm rs rn) 6 y.bit
  | .smulw c y rd rm rs => putBit (encRdRmRs 0x012000A0#32 c rd rm rs) 6 y.bit
  | .smlal c x y rdLo rdHi rm rs => putBit (putBit (encLong 0x01400080#32 c rdLo rdHi rm rs) 5 x.bit) 6 y.bit
  | .smul c x y rd rm rs => putBit (putBit (encRdRmRs 0x01600080#32 c rd rm rs) 5 x.bit) 6 y.bit
  | .qadd c rd rm rn => encRdRnRm 0x01000050#32 c rd rn rm
  | .qsub c rd rm rn => encRdRnRm 0x01200050#32 c rd rn rm
  | .qdadd c rd rm rn => encRdRnRm 0x01400050#32 c rd rn rm
  | .qdsub c rd rm rn => encRdRnRm 0x01600050#32 c rd rn rm
  | .uqadd8 c rd rn rm => encRdRnRm 0x06600F90#32 c rd rn rm
  | .qadd8 c rd rn rm => encRdRnRm 0x06200F90#32 c rd rn rm
  | .uadd8 c rd rn rm => encRdRnRm 0x06500F90#32 c rd rn rm
  | .sadd8 c rd rn rm => encRdRnRm 0x06100F90#32 c rd rn rm
  | .uqsub8 c rd rn rm => encRdRnRm 0x06600FF0#32 c rd rn rm
  | .qsub8 c rd rn rm => encRdRnRm 0x06200FF0#32 c rd rn rm
  | .usub8 c rd rn rm => encRdRnRm 0x06500FF0#32 c rd rn rm
  | .ssub8 c rd rn rm => encRdRnRm 0x06100FF0#32 c rd rn rm
  | .uqadd16 c rd rn rm => encRdRnRm 0x06600F10#32 c rd rn rm
  | .qadd16 c rd rn rm => encRdRnRm 0x06200F10#32 c rd rn rm
  | .uadd16 c rd rn rm => encRdRnRm 0x06500F10#32 c rd rn rm
  | .sadd16 c rd rn rm => encRdRnRm 0x06100F10#32 c rd rn rm
  | .uqsub16 c rd rn rm => encRdRnRm 0x06600F70#32 c rd rn rm
  | .qsub16 c rd rn rm => encRdRnRm 0x06200F70#32 c rd rn rm
  | .usub16 c rd rn rm => encRdRnRm 0x06500F70#32 c rd rn rm
  | .ssub16 c rd rn rm => encRdRnRm 0x06100F70#32 c rd rn rm
  | .uqaddsubx c rd rn rm => encRdRnRm 0x06600F30#32 c rd rn rm
  | .qaddsubx c rd rn rm => encRdRnRm 0x06200F30#32 c rd rn rm
  | .uaddsubx c rd rn rm => encRdRnRm 0x06500F30#32 c rd rn rm
  | .saddsubx c rd rn rm => encRdRnRm 0x06100F30#32 c rd rn rm
  | .uqsubaddx c rd rn rm => encRdRnRm 0x06600F50#32 c rd rn rm
  | .qsubaddx c rd rn rm => encRdRnRm 0x06200F50#32 c rd rn rm
  | .usubaddx c rd rn rm => encRdRnRm 0x06500F50#32 c rd rn rm
  | .ssubaddx c rd rn rm => encRdRnRm 0x06100F50#32 c rd rn rm
  | .uhsub8 c rd rn rm => encRdRnRm 0x06700FF0#32 c rd rn rm
  | .smuad x c rd rm rs => putBit (encRdRmRs 0x0700F010#32 c rd rm rs) 5 x
  | .smusd x c rd rm rs => putBit (encRdRmRs 0x0700F050#32 c rd rm rs) 5 x
  | .smlad x c rd rm rs rn => putBit (encRdRmRsRn 0x07000010#32 c rd rm rs rn) 5 x
  | .smlsd x c rd rm rs rn => putBit (encRdRmRsRn 0x07000050#32 c rd rm rs rn) 5 x
  | .smlald x c rdLo rdHi rm rs => putBit (encLong 0x07400010#32 c rdLo rdHi rm rs) 5 x
  | .smlsld x c rdLo rdHi rm rs => putBit (encLong 0x07400050#32 c rdLo rdHi rm rs) 5 x
  | .uxtb c rd rm rot => putField (encRdRm 0x06EF0070#32 c rd rm) 10 rot.bits
  | .sxtb16 c rd rm rot => putField (encRdRm 0x068F0070#32 c rd rm) 10 rot.bits
  | .ssat c rd n rm shift =>
    putBit (putField (putField (encRdRm 0x06A00010#32 c rd rm) 16 (BitVec.ofNat 5 (n - 1))) 7 shift.bits.1) 6 shift.bits.2
  | .sel c rd rn rm => encRdRnRm 0x06800FB0#32 c rd rn rm
  | .usad8 c rd rm rs => encRdRmRs 0x0780F010#32 c rd rm rs
  | .smi c imm16 =>
    putField (putField (putField 0x01600070#32 28 c.bits) 8 (imm16.extractLsb' 4 12)) 0 (imm16.extractLsb' 0 4)
  | .bxj c rm => putReg (putField 0x012FFF20#32 28 c.bits) 0 rm
  | .ldrPost c add rd rn imm12 =>
    putField (putBit (putReg (putReg (putField 0x04100000#32 28 c.bits) 12 rd) 16 rn) 23 add) 0 imm12
  | .subsImm c rd rn rot imm8 =>
    putField (putField (putReg (putReg (putField 0x02500000#32 28 c.bits) 12 rd) 16 rn) 8 rot) 0 imm8
  | .b c imm24 => putField (putField 0x0A000000#32 28 c.bits) 0 imm24
  | .msrCpsrF c rm => putReg (putField 0x0128F000#32 28 c.bits) 0 rm

end Sys2Proof
end

