-- ==== Sys2Proof/Machine/Operands.lean ====
section
/-! DEFINITION. Operand forms and the arithmetic on register values: halves, lanes, shifts, rotations, saturation, halving. -/

namespace Sys2Proof.Machine

/-! ## Halves and lanes (R171, R190, R230) -/

/-- `v[15:0]` or `v[31:16]` (spec/42_v5te_dsp.md R171). -/
def halfOf (v : Word) : HalfSel → BitVec 16
  | .bottom => getField v 0 16
  | .top => getField v 16 16

/-- The selected half as a signed number (R171). -/
def halfInt (v : Word) (h : HalfSel) : Int := (halfOf v h).toInt

/-- Byte lane `k`, bits 8k+7:8k (spec/43_v6_simd_addsub.md R190). -/
def byteLane (v : Word) (k : Nat) : BitVec 8 := getField v (8 * k) 8

/-- Halfword lane `k`, bits 16k+15:16k (R190). -/
def halfLane (v : Word) (k : Nat) : BitVec 16 := getField v (16 * k) 16

/-- The word of four byte lanes (R190). -/
def packBytes (f : Nat → BitVec 8) : Word := f 3 ++ f 2 ++ f 1 ++ f 0

/-- The word of two halfword lanes (R190). -/
def packHalves (f : Nat → BitVec 16) : Word := f 1 ++ f 0

/-- A lane read as signed or unsigned (R191). -/
def laneInt (signed : Bool) {n : Nat} (v : BitVec n) : Int := if signed then v.toInt else v.toNat

/-- Rs, its halves swapped first in the X forms (spec/44_v6_dsp_support.md R230). -/
def dualOperand (x : Bool) (v : Word) : Word := if x then getField v 0 16 ++ getField v 16 16 else v

/-! ## Numbers to bits (R7, R8) -/

/-- `trunc_N(i)` (spec/00_scope.md R7). -/
def truncInt (n : Nat) (i : Int) : BitVec n := BitVec.ofInt n i

/-- The integer does not fit N bits as a signed number: `i != sint(trunc_N(i))`. -/
def signedOverflow (n : Nat) (i : Int) : Bool := i != (truncInt n i).toInt

/-- `SignedSat_N(i)` and whether it saturated (R8). -/
def signedSat (n : Nat) (i : Int) : Int × Bool :=
  if i > ((2 ^ (n - 1) : Nat) : Int) - 1 then (((2 ^ (n - 1) : Nat) : Int) - 1, true)
  else if i < -((2 ^ (n - 1) : Nat) : Int) then (-((2 ^ (n - 1) : Nat) : Int), true)
  else (i, false)

/-- `UnsignedSat_N(i)` and whether it saturated (R8). -/
def unsignedSat (n : Nat) (i : Int) : Int × Bool :=
  if i > ((2 ^ n : Nat) : Int) - 1 then (((2 ^ n : Nat) : Int) - 1, true)
  else if i < 0 then (0, true)
  else (i, false)

/-- `Halve(i)`: half, rounded toward minus infinity (R8). -/
def halve (i : Int) : Int := i / 2

/-! ## Shifts, rotations, immediates -/

/-- Places of a rotation to the right (R237). -/
def rotationAmount : Rotation → Nat
  | .none => 0
  | .by8 => 8
  | .by16 => 16
  | .by24 => 24

/-- `rot` of R237. -/
def rotated (v : Word) (r : Rotation) : Word := v.rotateRight (rotationAmount r)

/-- PKHBT's second operand: `x[Rm] << sh` (spec/41_v6_control_sync_packing.md R151). -/
def pkhShiftLeft (v : Word) (sh : Nat) : Word := v <<< sh

/-- PKHTB's second operand: the arithmetic shift, 32 giving all sign bits (R152). -/
def pkhShiftRight (v : Word) (sh : Nat) : Word := v.sshiftRight sh

/-- SSAT's operand after its shift, as a number (R241). -/
def satOperand (v : Word) : SatShift → Int
  | .lsl sh => (v <<< sh).toInt
  | .asr sh => (v.sshiftRight sh).toInt

/-- The value of a rotated immediate: imm8 rotated right by twice rot (spec/93_implementation_defined.md G3). -/
def rotatedImm (rot : BitVec 4) (imm8 : BitVec 8) : Word := (imm8.setWidth 32).rotateRight (2 * rot.toNat)

/-- The byte offset of a 24-bit word offset: sign-extended and shifted left by 2 (R100, R282). -/
def branchOffset (imm24 : BitVec 24) : Word := (imm24.signExtend 32) <<< 2

/-- `H << 1` (R100). -/
def hOffset (h : Bool) : Word := if h then 2#32 else 0#32

/-- The lower of the two addresses of SRS and RFE, from the base (R143, R144). -/
def pairAddress (am : AddrMode) (base : Word) : Word :=
  match am with
  | .ia => base
  | .ib => base + 4#32
  | .da => base - 4#32
  | .db => base - 8#32

/-- The written-back base of SRS and RFE (R143, R144). -/
def pairBase (am : AddrMode) (base : Word) : Word :=
  match am with
  | .ia => base + 8#32
  | .ib => base + 8#32
  | .da => base - 8#32
  | .db => base - 8#32

/-- The base after a post-indexed load: the immediate added or subtracted (R280, G3's U bit). -/
def postIndexed (base : Word) (add : Bool) (imm12 : BitVec 12) : Word :=
  if add then base + imm12.setWidth 32 else base - imm12.setWidth 32

/-! ## Bit operations of single instructions -/

/-- The number of zeros above the highest set bit, 32 for zero (R122). -/
def leadingZeros (v : Word) : Nat := if v = 0#32 then 32 else 31 - Nat.log2 v.toNat

/-- R148. -/
def byteReverse (v : Word) : Word := getField v 0 8 ++ getField v 8 8 ++ getField v 16 8 ++ getField v 24 8

/-- R149. -/
def byteReverseHalves (v : Word) : Word := getField v 16 8 ++ getField v 24 8 ++ getField v 0 8 ++ getField v 8 8

/-- R150. -/
def byteReverseSigned (v : Word) : Word := (getField v 0 8 ++ getField v 8 8 : BitVec 16).signExtend 32

/-- The sum over the four byte lanes of `| uint(a) - uint(b) |` (R243). -/
def sumAbsDiff (v w : Word) : Nat :=
  ((List.range 4).map fun k => ((byteLane v k).toNat - (byteLane w k).toNat : Int).natAbs).sum

/-- The four byte lanes chosen by the GE bits: 1 the first word's, 0 the second's (R242). -/
def selectBytes (ge : BitVec 4) (v w : Word) : Word :=
  packBytes fun k => if ge.getLsbD k then byteLane v k else byteLane w k

end Sys2Proof.Machine
end

