-- ==== Sys2Proof/Machine/State.lean ====
section
/-! DEFINITION. The state of the machine, as plain data, its reset value, and the reasons a step can stop. -/

namespace Sys2Proof.Machine

/-- The processor modes of spec/10_state.md R34. -/
inductive Mode
  | user | fiq | irq | supervisor | monitor | abort | undefined | system
  deriving DecidableEq, Repr

/-- The physical general registers of R22: the user copies, and under their own names the banked ones. -/
inductive PhysReg
  | r0 | r1 | r2 | r3 | r4 | r5 | r6 | r7 | r8 | r9 | r10 | r11 | r12 | r13 | r14
  | r8_fiq | r9_fiq | r10_fiq | r11_fiq | r12_fiq | r13_fiq | r14_fiq
  | r13_svc | r14_svc | r13_abt | r14_abt | r13_irq | r14_irq | r13_und | r14_und | r13_mon | r14_mon
  deriving DecidableEq, Repr

/-- The saved status registers, one for each exception mode (R36). -/
structure SpsrFile where
  fiq : Word
  svc : Word
  abt : Word
  irq : Word
  und : Word
  mon : Word
  deriving DecidableEq, Repr

/-- Memory as (address, byte) pairs, addresses strictly rising; an unlisted address holds no value (log 7). -/
abbrev Memory := List Host.Cell

/-- What the environment may do between two steps (spec/00_scope.md R11(b), R42, R73; the interrupt lines R306, R307). -/
inductive EnvAction
  /-- Another bus master writes a byte. -/
  | writeByte (address : Word) (value : Byte)
  /-- The exclusive reservation is lost. -/
  | clearReservation
  /-- The IRQ line is asserted or released. -/
  | setIrq (asserted : Bool)
  /-- The FIQ line is asserted or released. -/
  | setFiq (asserted : Bool)
  /-- A late abort is reported. -/
  | impreciseAbort
  deriving DecidableEq, Repr

/-- What happens during one unaligned access, which the environment may see as separate byte accesses in any order (D10). -/
inductive AccessEvent
  /-- The processor reads byte `k` of the access. -/
  | byte (k : Fin 4)
  /-- The environment acts. -/
  | act (a : EnvAction)
  deriving DecidableEq, Repr

/-- The machine's state. INVENTORY.md lists every field with its rule. -/
structure State where
  /-- The 32 general registers other than the pc, indexed by `PhysReg.index` (R20, R22). -/
  regs : Vector Word 32
  /-- The address of the instruction being executed, register 15 (R23). -/
  pc : Word
  /-- The program status register (R24). -/
  cpsr : Word
  /-- The saved status registers (R36). -/
  spsr : SpsrFile
  /-- The NS bit of the system coprocessor, 1 non-secure (R40). -/
  ns : Bool
  /-- The exclusive reservation (R42). -/
  reservation : Option Word
  /-- Memory (spec/20_memory.md R60). -/
  mem : Memory
  /-- The IRQ line is asserted (R43, R306). -/
  irqLine : Bool
  /-- The FIQ line is asserted (R43, R306). -/
  fiqLine : Bool
  /-- An imprecise abort is pending (R43, R307). -/
  abortPending : Bool
  /-- The MODEL's own: the environment's actions before each coming step, the next step's first (log 13). -/
  env : List (List EnvAction)
  /-- The MODEL's own: what happens during each coming unaligned load, the next load's first (spec/20_memory.md R68, log 30). -/
  torn : List (List AccessEvent)
  /-- The MODEL's own: how many free values have been drawn (log 22). -/
  freeCount : Nat
  /-- The named parameters of the implementation, constant in a run (log 6). -/
  params : Params
  deriving DecidableEq, Repr

/-- Why the machine stops with a fault. -/
inductive Fault
  /-- A load or a fetch reads a byte of memory that nothing has written (spec/93_implementation_defined.md U1). Raised by every
  memory read and by the fetch. Safe: the hardware goes on with some value (log 7). -/
  | unwrittenMemory (address : Nat)
  deriving DecidableEq, Repr

/-- Why a step has no meaning: the `refuse` cases of the spec, each under its own name. All are safe: where the hardware goes
on, no claim is made of the run. -/
inductive Refusal
  /-- An instruction the model does not give a meaning; raised by `exec` alone. -/
  | notModelled (mnemonic : String)
  /-- Execution with T = 1 or J = 1 (spec/30_encoding.md R106). Raised by `step`. -/
  | thumbOrJazelleState
  /-- The status register holds a mode number outside R34's table. Raised by `step`, CPS, SRS and RFE. -/
  | illegalMode
  /-- The word matches no row of the opcode table (R103). Raised by `step`. -/
  | encodingNotInSource
  /-- A CPS word of none of the three forms of R141. Raised by `step`. -/
  | reservedCpsForm
  /-- An instruction the source alludes to and does not name (R219, R244). Raised by `step`. -/
  | notNamedBySource
  /-- A coprocessor instruction: no coprocessor is described (spec/40_v5_extensions.md R125 to R127). Raised by CDP2, MRC2 and
  `step`. -/
  | coprocessorNotSpecified
  /-- An instruction of a later architecture level than `ARCH` (U30). Raised by every v5TE and v6 instruction. -/
  | belowLevel
  /-- Register 15 as an operand or destination (R21). -/
  | registerFifteen
  /-- A combination of registers that the rules refuse: RdLo = RdHi, SWP's and STREX's address or status register, a written-back
  base that is loaded (D21). -/
  | registerCombination
  /-- An unaligned word access below v6 (spec/20_memory.md R65). Raised by LDR. -/
  | unalignedBeforeV6
  /-- An unaligned SWP, LDREX, STREX, SRS or RFE (R66). -/
  | unalignedSemaphore
  /-- A branch that leaves T = 0 to an address that is not a multiple of 4 (R75). Raised by BLX Rm, BXJ, RFE and the fetch. -/
  | misalignedArmTarget
  /-- An access that spans 0xFFFFFFFF and 0x00000000 (R63, D29). Raised by every memory access. -/
  | addressWrap
  /-- Sequential execution past 0xFFFFFFFC (R23, D29). Raised by every instruction that does not branch. -/
  | sequentialWrap
  /-- A store to an address that holds program text (R77). Raised by every store. -/
  | storeToCode
  /-- SRS in user or system mode, which have no SPSR (spec/41_v6_control_sync_packing.md R143). -/
  | noSpsr
  /-- RFE in user mode (R144). -/
  | rfeInUserMode
  /-- CPS to secure monitor mode (R141). -/
  | cpsToMonitor
  /-- SMI without `HAS_TRUSTZONE` (spec/45_security_java_thumb2.md R262). -/
  | noTrustZone
  deriving DecidableEq, Repr

/-- The parameters at reset (log 5): v6 with TrustZone and Jazelle, Jazelle disabled, the vectors at 0, the source's reading of
`SIMD_SAT_SETS_Q`, an exact-word granule, no secure region and no declared program text. -/
def resetParams : Params where
  arch := .v6
  hasJazelle := true
  jazelleEnabled := false
  hasTrustZone := true
  resetE := false
  resetVector := 0x00000000#32
  vectorBase := 0x00000000#32
  monitorVectorBase := 0x00000000#32
  simdSatSetsQ := true
  ergLog2 := 2
  secureRegions := []
  programText := []

/-- Reset of a machine with parameters `p` (R50): secure, supervisor mode, A = I = F = 1, ARM state, E = `RESET_E`, the pc at
`RESET_VECTOR`, no reservation; every register and flag the spec gives no value is 0 (logs 1, 2). -/
def State.resetWith (p : Params) : State where
  regs := Vector.replicate 32 0#32
  pc := p.resetVector
  cpsr := if p.resetE then 0x000003D3#32 else 0x000001D3#32
  spsr := ⟨0#32, 0#32, 0#32, 0#32, 0#32, 0#32⟩
  ns := false
  reservation := none
  mem := []
  irqLine := false
  fiqLine := false
  abortPending := false
  env := []
  torn := []
  freeCount := 0
  params := p

/-- The machine right after reset. -/
def State.reset : State := State.resetWith resetParams

end Sys2Proof.Machine
end

