-- ==== Sys2Proof/Machine/Psr.lean ====
section
/-! DEFINITION. The fields of the status registers (spec/10_state.md R24 to R36) and the mode numbers (R34). -/

namespace Sys2Proof.Machine

def psrN (w : Word) : Bool := getBit w 31
def psrZ (w : Word) : Bool := getBit w 30
def psrC (w : Word) : Bool := getBit w 29
def psrV (w : Word) : Bool := getBit w 28
/-- Q, "saturating operation has saturated" (R26). -/
def psrQ (w : Word) : Bool := getBit w 27
/-- J, Jazelle state (R27). -/
def psrJ (w : Word) : Bool := getBit w 24
/-- GE[3:0] (R28). -/
def psrGE (w : Word) : BitVec 4 := getField w 16 4
/-- E, 1 = big-endian data (R29). -/
def psrE (w : Word) : Bool := getBit w 9
/-- A, 1 = imprecise aborts disabled (R30). -/
def psrA (w : Word) : Bool := getBit w 8
/-- I, 1 = IRQ disabled (R31). -/
def psrI (w : Word) : Bool := getBit w 7
/-- F, 1 = FIQ disabled (R32). -/
def psrF (w : Word) : Bool := getBit w 6
/-- T, Thumb state (R33). -/
def psrT (w : Word) : Bool := getBit w 5
/-- The mode field (R34). -/
def psrMode (w : Word) : BitVec 5 := getField w 0 5

def psrSetN (w : Word) (v : Bool) : Word := putBit w 31 v
def psrSetZ (w : Word) (v : Bool) : Word := putBit w 30 v
def psrSetC (w : Word) (v : Bool) : Word := putBit w 29 v
def psrSetV (w : Word) (v : Bool) : Word := putBit w 28 v
def psrSetQ (w : Word) (v : Bool) : Word := putBit w 27 v
def psrSetJ (w : Word) (v : Bool) : Word := putBit w 24 v
def psrSetGE (w : Word) (v : BitVec 4) : Word := putField w 16 v
def psrSetE (w : Word) (v : Bool) : Word := putBit w 9 v
def psrSetA (w : Word) (v : Bool) : Word := putBit w 8 v
def psrSetI (w : Word) (v : Bool) : Word := putBit w 7 v
def psrSetF (w : Word) (v : Bool) : Word := putBit w 6 v
def psrSetT (w : Word) (v : Bool) : Word := putBit w 5 v
def psrSetMode (w : Word) (v : BitVec 5) : Word := putField w 0 v

/-- The mode numbers of R34; the secure monitor's is the source's. -/
def Mode.bits : Mode → BitVec 5
  | .user => 0b10000#5
  | .fiq => 0b10001#5
  | .irq => 0b10010#5
  | .supervisor => 0b10011#5
  | .monitor => 0b10110#5
  | .abort => 0b10111#5
  | .undefined => 0b11011#5
  | .system => 0b11111#5

/-- The mode of a field value; any other value is refused (R34). That 10110 is a mode on a part without TrustZone too is the
model's choice (log 41). -/
def Mode.ofBits (b : BitVec 5) : Option Mode :=
  match b with
  | 0b10000#5 => some .user
  | 0b10001#5 => some .fiq
  | 0b10010#5 => some .irq
  | 0b10011#5 => some .supervisor
  | 0b10110#5 => some .monitor
  | 0b10111#5 => some .abort
  | 0b11011#5 => some .undefined
  | 0b11111#5 => some .system
  | _ => none

end Sys2Proof.Machine
end

