-- ==== Sys2Proof/Machine/Flags.lean ====
section
/-! DEFINITION. Conditions and flag computations. -/

namespace Sys2Proof.Machine

/-- `ConditionPassed(cond)` on a status register (spec/30_encoding.md R92). -/
def conditionPassed (c : Cond) (psr : Word) : Bool :=
  match c with
  | .eq => psrZ psr
  | .ne => !psrZ psr
  | .cs => psrC psr
  | .cc => !psrC psr
  | .mi => psrN psr
  | .pl => !psrN psr
  | .vs => psrV psr
  | .vc => !psrV psr
  | .hi => psrC psr && !psrZ psr
  | .ls => !psrC psr || psrZ psr
  | .ge => psrN psr == psrV psr
  | .lt => psrN psr != psrV psr
  | .gt => !psrZ psr && psrN psr == psrV psr
  | .le => psrZ psr || psrN psr != psrV psr
  | .al => true

/-- The sticky Q flag: 1 when `sat`, otherwise as it was (spec/10_state.md R26). -/
def psrOrQ (w : Word) (sat : Bool) : Word := if sat then psrSetQ w true else w

/-- N, Z, C, V of `a - imm` (spec/46_base_instructions_in_examples.md R281; V is signed overflow, log 20). -/
def psrSubFlags (w a imm : Word) : Word :=
  let r := a - imm
  psrSetV (psrSetC (psrSetZ (psrSetN w (getBit r 31)) (r == 0#32)) (imm.toNat ≤ a.toNat)) (a.toInt - imm.toInt != r.toInt)

/-- GE of four byte lanes (spec/43_v6_simd_addsub.md R192). -/
def geBytes (f : Nat → Bool) : BitVec 4 :=
  BitVec.ofBool (f 3) ++ BitVec.ofBool (f 2) ++ BitVec.ofBool (f 1) ++ BitVec.ofBool (f 0)

/-- GE of two halfword lanes, two equal bits a lane (R192). -/
def geHalves (f : Nat → Bool) : BitVec 4 :=
  BitVec.ofBool (f 1) ++ BitVec.ofBool (f 1) ++ BitVec.ofBool (f 0) ++ BitVec.ofBool (f 0)

/-- What one lane of an add or subtract does with its operands. -/
inductive LaneOp
  | add | sub
  deriving DecidableEq, Repr

def LaneOp.apply : LaneOp → Int → Int → Int
  | .add, a, b => a + b
  | .sub, a, b => a - b

/-- A lane's GE bit from its exact result `r` (R192): signed r >= 0; unsigned add r >= 2^w; unsigned subtract r >= 0. -/
def laneGE (signed : Bool) (op : LaneOp) (width : Nat) (r : Int) : Bool :=
  if signed then 0 ≤ r
  else match op with
    | .add => ((2 ^ width : Nat) : Int) ≤ r
    | .sub => 0 ≤ r

end Sys2Proof.Machine
end

