-- ==== Sys2Proof/Machine/Memory.lean ====
section
/-! DEFINITION. Memory as a list of (address, byte) pairs in one canonical form, and its byte operations. -/

namespace Sys2Proof.Machine

/-- The canonical form: addresses of the 32-bit space, strictly rising. An unlisted address holds no value (log 7), so no entry
can equal what it reads as. -/
abbrev memoryWf (m : Memory) : Prop :=
  m.Pairwise (fun c d => c.1 < d.1) ∧ ∀ c ∈ m, c.1 < 2 ^ 32

/-- The byte at an address, none where nothing has been written (log 7). -/
def readByte : Memory → Nat → Option Byte
  | [], _ => none
  | (k, b) :: m, a => if a = k then some b else readByte m a

/-- Writes one byte and keeps the canonical form. -/
def writeByte : Memory → Nat → Byte → Memory
  | [], a, v => [(a, v)]
  | (k, b) :: m, a, v =>
    if a < k then (a, v) :: (k, b) :: m
    else if a = k then (a, v) :: m
    else (k, b) :: writeByte m a v

/-- The `n` bytes from `a` up, the lowest first, or the first address that holds none. -/
def readBytes (m : Memory) (a : Nat) : Nat → Except Nat (List Byte)
  | 0 => .ok []
  | n + 1 =>
    match readByte m a with
    | none => .error a
    | some b =>
      match readBytes m (a + 1) n with
      | .error k => .error k
      | .ok bs => .ok (b :: bs)

/-- Writes bytes at rising addresses. -/
def writeBytes (m : Memory) (a : Nat) : List Byte → Memory
  | [] => m
  | b :: bs => writeBytes (writeByte m a b) (a + 1) bs

/-- The number of bytes with the least significant first. -/
def littleValue : List Byte → Nat
  | [] => 0
  | b :: bs => b.toNat + 256 * littleValue bs

/-- The value of the bytes of an access, zero-extended: with `big` the first is the most significant (spec/20_memory.md R63). -/
def assemble (big : Bool) (bs : List Byte) : Word :=
  BitVec.ofNat 32 (littleValue (if big then bs.reverse else bs))

/-- The low `n` bytes of a value in the order in which memory holds them (R63). -/
def disassemble (big : Bool) (n : Nat) (v : Word) : List Byte :=
  let bs := (List.range n).map fun k => v.extractLsb' (8 * k) 8
  if big then bs.reverse else bs

/-- The address lies in one of the regions. -/
def inRegions (rs : List Region) (a : Nat) : Bool := rs.any fun r => r.base ≤ a && a < r.base + r.size

/-- One of the `n` bytes from `a` up lies in one of the regions. -/
def rangeInRegions (rs : List Region) (a n : Nat) : Bool := (List.range n).any fun k => inRegions rs (a + k)

end Sys2Proof.Machine
end

