-- ==== Sys2Proof/Machine/Ops.lean ====
section
/-! DEFINITION. The named operations over registers, memory and the environment; taking an exception and returning from one. -/

namespace Sys2Proof.Machine

/-- What a step or a meaning answers. -/
abbrev Result := Host.Outcome State Fault Refusal

/-! ## Registers and modes -/

/-- The place of a physical register in `State.regs`. -/
def PhysReg.index : PhysReg → Fin 32
  | .r0 => 0 | .r1 => 1 | .r2 => 2 | .r3 => 3 | .r4 => 4 | .r5 => 5 | .r6 => 6 | .r7 => 7
  | .r8 => 8 | .r9 => 9 | .r10 => 10 | .r11 => 11 | .r12 => 12 | .r13 => 13 | .r14 => 14
  | .r8_fiq => 15 | .r9_fiq => 16 | .r10_fiq => 17 | .r11_fiq => 18 | .r12_fiq => 19 | .r13_fiq => 20 | .r14_fiq => 21
  | .r13_svc => 22 | .r14_svc => 23 | .r13_abt => 24 | .r14_abt => 25 | .r13_irq => 26 | .r14_irq => 27
  | .r13_und => 28 | .r14_und => 29 | .r13_mon => 30 | .r14_mon => 31

/-- The stack pointer, register 13, of a mode (spec/10_state.md R22). -/
def stackReg : Mode → PhysReg
  | .user | .system => .r13
  | .fiq => .r13_fiq
  | .supervisor => .r13_svc
  | .abort => .r13_abt
  | .irq => .r13_irq
  | .undefined => .r13_und
  | .monitor => .r13_mon

/-- The link register, register 14, of a mode (R22). -/
def linkReg : Mode → PhysReg
  | .user | .system => .r14
  | .fiq => .r14_fiq
  | .supervisor => .r14_svc
  | .abort => .r14_abt
  | .irq => .r14_irq
  | .undefined => .r14_und
  | .monitor => .r14_mon

/-- The physical register that a number names in a mode; register 15 is the pc (R21, R22). -/
def bankedReg (m : Mode) (r : Reg) : Option PhysReg :=
  match r.val with
  | 0 => some .r0 | 1 => some .r1 | 2 => some .r2 | 3 => some .r3
  | 4 => some .r4 | 5 => some .r5 | 6 => some .r6 | 7 => some .r7
  | 8 => some (if m = .fiq then .r8_fiq else .r8)
  | 9 => some (if m = .fiq then .r9_fiq else .r9)
  | 10 => some (if m = .fiq then .r10_fiq else .r10)
  | 11 => some (if m = .fiq then .r11_fiq else .r11)
  | 12 => some (if m = .fiq then .r12_fiq else .r12)
  | 13 => some (stackReg m)
  | 14 => some (linkReg m)
  | _ => none

def State.phys (s : State) (p : PhysReg) : Word := s.regs[p.index.val]'p.index.isLt

def State.setPhys (s : State) (p : PhysReg) (v : Word) : State :=
  { s with regs := s.regs.set p.index.val v p.index.isLt }

/-- The current mode; a number outside R34's table, which `step` refuses, is given the user bank here (log 28). -/
def State.mode (s : State) : Mode := (Mode.ofBits (psrMode s.cpsr)).getD .user

/-- `CPSR.mode` is not user (spec/60_exceptions.md R308). -/
def State.privileged (s : State) : Bool := psrMode s.cpsr != Mode.user.bits

/-- `x[r]`, the banking applied; register 15 reads as the pc plus 8 (R21, spec/00_scope.md R7). -/
def State.reg (s : State) (r : Reg) : Word :=
  match bankedReg s.mode r with
  | some p => s.phys p
  | none => s.pc + 8#32

/-- `x[r] <- v`. -/
def State.setReg (s : State) (r : Reg) (v : Word) : State :=
  match bankedReg s.mode r with
  | some p => s.setPhys p v
  | none => { s with pc := v }

def State.setCpsr (s : State) (w : Word) : State := { s with cpsr := w }

/-- The saved status register of a mode; user and system mode have none (R36). -/
def spsrOf (f : SpsrFile) : Mode → Option Word
  | .user | .system => none
  | .fiq => some f.fiq
  | .supervisor => some f.svc
  | .abort => some f.abt
  | .irq => some f.irq
  | .undefined => some f.und
  | .monitor => some f.mon

def setSpsrOf (f : SpsrFile) (m : Mode) (w : Word) : SpsrFile :=
  match m with
  | .user | .system => f
  | .fiq => { f with fiq := w }
  | .supervisor => { f with svc := w }
  | .abort => { f with abt := w }
  | .irq => { f with irq := w }
  | .undefined => { f with und := w }
  | .monitor => { f with mon := w }

/-! ## Going on to the next instruction -/

/-- `pc <- pc + 4` (R23); past 0xFFFFFFFC it is refused (D29, log 26). -/
def State.advance (s : State) : Result :=
  if s.pc.toNat + 4 < 2 ^ 32 then .next { s with pc := s.pc + 4#32 } else .refused .sequentialWrap

/-- T = 0 and J = 0 (spec/30_encoding.md R106). -/
def State.armState (s : State) : Bool := !psrT s.cpsr && !psrJ s.cpsr

/-- Both low bits of an address are 0. -/
def wordAligned (a : Word) : Bool := getField a 0 2 == 0#2

/-- A control transfer: where it leaves T = 0 the target must be a multiple of 4, whatever J is (spec/20_memory.md R75). -/
def State.jump (s : State) (target : Word) : Result :=
  if !psrT s.cpsr && !wordAligned target then .refused .misalignedArmTarget else .next { s with pc := target }

/-- The exchange branch: bit 0 of the target goes to T and is cleared from the pc (spec/40_v5_extensions.md R121, R266). -/
def State.exchange (s : State) (target : Word) : Result :=
  (s.setCpsr (psrSetT s.cpsr (getBit target 0))).jump (putBit target 0 false)

/-! ## The conditions under which an instruction has its effect -/

/-- The levels in order (spec/00_scope.md R5). -/
def Arch.rank : Arch → Nat
  | .v5 => 0
  | .v5TE => 1
  | .v6 => 2

/-- The instruction exists at this level (R5, R37, U30). -/
def atLevel (need : Arch) (s : State) (body : Result) : Result :=
  if Arch.rank need ≤ Arch.rank s.params.arch then body else .refused .belowLevel

/-- An instruction whose condition fails only advances the pc (R91). -/
def conditional (c : Cond) (s : State) (body : Result) : Result :=
  if conditionPassed c s.cpsr then body else s.advance

/-- Register 15 is refused as an operand or destination (R21). -/
def withoutR15 (rs : List Reg) (body : Result) : Result :=
  if rs.contains 15 then .refused .registerFifteen else body

/-- A register combination that a rule refuses (D21). -/
def refuseIf (bad : Bool) (body : Result) : Result := if bad then .refused .registerCombination else body

/-- The shape of every instruction that works on registers and flags alone: level, condition, no register 15, then the update and
the next instruction (log 18). -/
def registerStep (need : Arch) (c : Cond) (rs : List Reg) (s : State) (update : State) : Result :=
  atLevel need s (conditional c s (withoutR15 rs update.advance))

/-! ## Exceptions (spec/60_exceptions.md) -/

/-- The exceptions of R302 that are taken from a running machine. -/
inductive Exception
  | undefined | softwareInterrupt | prefetchAbort | dataAbort | irq | fiq | monitor
  deriving DecidableEq, Repr

/-- The mode entered (R302). -/
def exceptionMode : Exception → Mode
  | .undefined => .undefined
  | .softwareInterrupt => .supervisor
  | .prefetchAbort => .abort
  | .dataAbort => .abort
  | .irq => .irq
  | .fiq => .fiq
  | .monitor => .monitor

/-- The vector (R302). -/
def exceptionVector (p : Params) : Exception → Word
  | .undefined => p.vectorBase + 0x04#32
  | .softwareInterrupt => p.vectorBase + 0x08#32
  | .prefetchAbort => p.vectorBase + 0x0C#32
  | .dataAbort => p.vectorBase + 0x10#32
  | .irq => p.vectorBase + 0x18#32
  | .fiq => p.vectorBase + 0x1C#32
  | .monitor => p.monitorVectorBase + 0x08#32

/-- What r14 of the new mode holds, as an offset from the address of the instruction that took the exception or, for an
interrupt, would run next (R302). R302 speaks of ARM state; the same offsets where an interrupt is taken with T = 1 or J = 1
are the model's choice (log 39). -/
def exceptionReturnOffset : Exception → Word
  | .dataAbort => 8#32
  | _ => 4#32

/-- Whether entry sets F (R302's column; otherwise the same). -/
def exceptionSetsF : Exception → Bool
  | .fiq | .monitor => true
  | _ => false

/-- Whether entry sets A (R302's column; otherwise the same). -/
def exceptionSetsA : Exception → Bool
  | .undefined | .softwareInterrupt => false
  | _ => true

/-- The status register after entry (R303): the new mode, ARM state, I set, F and A as R302 says, E the byte order `RESET_E`. -/
def entryPsr (e : Exception) (p : Params) (w : Word) : Word :=
  let w := psrSetMode w (exceptionMode e).bits
  let w := psrSetI (psrSetJ (psrSetT w false) false) true
  let w := if exceptionSetsF e then psrSetF w true else w
  let w := if exceptionSetsA e then psrSetA w true else w
  psrSetE w p.resetE

/-- Taking an exception (R303): r14 and SPSR of the mode entered hold the return value and the whole CPSR. -/
def takeException (e : Exception) (s : State) : State :=
  { s.setPhys (linkReg (exceptionMode e)) (s.pc + exceptionReturnOffset e) with
    spsr := setSpsrOf s.spsr (exceptionMode e) s.cpsr
    cpsr := entryPsr e s.params s.cpsr
    pc := exceptionVector s.params e }

/-- Returning from one with a saved pc and status: "Pop PC and CPSR" (R304; spec/41_v6_control_sync_packing.md R144). A mode
outside R34's table is refused; secure monitor mode is in it with or without TrustZone (log 41). -/
def returnFromException (s : State) (newPc newCpsr : Word) : Result :=
  match Mode.ofBits (psrMode newCpsr) with
  | none => .refused .illegalMode
  | some _ => (s.setCpsr newCpsr).jump newPc

/-! ## Memory accesses (spec/20_memory.md) -/

/-- What a memory access gives: a value, an abort for the instruction to take, or a stop. -/
inductive Access (α : Type)
  | ok (a : α)
  | abort
  | fault (f : Fault)
  | refused (r : Refusal)

/-- Goes on with the value of an access; an abort is taken as a Data Abort from the state before the instruction, which has no
other effect (R303). -/
def Access.andThen {α : Type} (s : State) (a : Access α) (k : α → Result) : Result :=
  match a with
  | .ok v => k v
  | .abort => .next (takeException .dataAbort s)
  | .fault f => .fault f
  | .refused r => .refused r

/-- The access with another value made from its own. -/
def Access.map {α β : Type} (f : α → β) : Access α → Access β
  | .ok v => .ok (f v)
  | .abort => .abort
  | .fault f => .fault f
  | .refused r => .refused r

/-- The processor is non-secure: TrustZone is present, NS = 1 and the mode is not secure monitor (R40, R70). -/
def State.nonSecure (s : State) : Bool :=
  s.params.hasTrustZone && s.ns && psrMode s.cpsr != Mode.monitor.bits

/-- A non-secure access to a secure byte (R70, log 25). -/
def State.secureViolation (s : State) (a n : Nat) : Bool :=
  s.nonSecure && rangeInRegions s.params.secureRegions a n

/-- Data accesses are big-endian: CPSR.E at v6, `RESET_E` below (R61, D7). -/
def State.bigEndian (s : State) : Bool :=
  if s.params.arch = .v6 then psrE s.cpsr else s.params.resetE

/-- `MemRead(a, n)` (R63), after the checks of R63 and R70. -/
def memRead (s : State) (a : Word) (n : Nat) : Access Word :=
  if 2 ^ 32 < a.toNat + n then .refused .addressWrap
  else if s.secureViolation a.toNat n then .abort
  else match readBytes s.mem a.toNat n with
    | .ok bs => .ok (assemble s.bigEndian bs)
    | .error k => .fault (.unwrittenMemory k)

/-- `MemWrite(a, n, v)` (R63), after the checks of R63, R70 and R77. -/
def memWrite (s : State) (a : Word) (n : Nat) (v : Word) : Access State :=
  if 2 ^ 32 < a.toNat + n then .refused .addressWrap
  else if s.secureViolation a.toNat n then .abort
  else if rangeInRegions s.params.programText a.toNat n then .refused .storeToCode
  else .ok { s with mem := writeBytes s.mem a.toNat (disassemble s.bigEndian n v) }

/-- The word read by SWP, LDREX and RFE, which need a word-aligned address (R66). -/
def loadAligned (s : State) (a : Word) : Access Word :=
  if wordAligned a then memRead s a 4 else .refused .unalignedSemaphore

/-- The word written by SWP, STREX and SRS, which need a word-aligned address (R66). -/
def storeAligned (s : State) (a : Word) (v : Word) : Access State :=
  if wordAligned a then memWrite s a 4 v else .refused .unalignedSemaphore

/-- The two addresses lie in one granule of `ERG` bytes (R147, D22). -/
def sameGranule (s : State) (a a' : Word) : Bool := a.toNat >>> s.params.ergLog2 == a'.toNat >>> s.params.ergLog2

/-- The reservation covers the address (R147). -/
def State.reserved (s : State) (a : Word) : Bool :=
  match s.reservation with
  | none => false
  | some a' => sameGranule s a a'

/-! ## The environment -/

/-- One action of the environment (spec/00_scope.md R11(b), R42, R73). A write in the granule of the reservation ends it, so
that a STREX succeeds only where no other agent wrote the word since the LDREX (R147, log 23). -/
def envAct (s : State) : EnvAction → State
  | .writeByte a v =>
    { s with mem := writeByte s.mem a.toNat v, reservation := if s.reserved a then none else s.reservation }
  | .clearReservation => { s with reservation := none }
  | .setIrq on => { s with irqLine := on }
  | .setFiq on => { s with fiqLine := on }
  | .impreciseAbort => { s with abortPending := true }

/-- The environment's actions before this step (log 13). -/
def environmentTurn (s : State) : State :=
  match s.env with
  | [] => s
  | acts :: rest => acts.foldl envAct { s with env := rest }

/-! ## Ordinary loads -/

/-- The state after what the environment does during an access. -/
def afterAccess (s : State) : List AccessEvent → State
  | [] => s
  | .byte _ :: es => afterAccess s es
  | .act e :: es => afterAccess (envAct s e) es

/-- Byte `k` of the access at `a`: what memory holds when the processor reads it, which is at its first place in `es` or,
where it has none, at the end. -/
def byteDuring (s : State) (a : Nat) (k : Fin 4) : List AccessEvent → Option Byte
  | [] => readByte s.mem (a + k.val)
  | .byte j :: es => if j = k then readByte s.mem (a + k.val) else byteDuring s a k es
  | .act e :: es => byteDuring (envAct s e) a k es

/-- The four bytes of the access at `a`, the lowest first, or the first address that holds none when it is read. -/
def bytesDuring (s : State) (a : Nat) (es : List AccessEvent) : Except Nat (List Byte) :=
  match byteDuring s a 0 es, byteDuring s a 1 es, byteDuring s a 2 es, byteDuring s a 3 es with
  | some b0, some b1, some b2, some b3 => .ok [b0, b1, b2, b3]
  | none, _, _, _ => .error a
  | _, none, _, _ => .error (a + 1)
  | _, _, none, _ => .error (a + 2)
  | _, _, _, none => .error (a + 3)

/-- An unaligned read of a word: it passes the checks of R63 and R70 as one access, and its four bytes are then read one by one
while the environment may act (R68, D10, log 30). -/
def unalignedRead (s : State) (a : Word) : Access (Word × State) :=
  if 2 ^ 32 < a.toNat + 4 then .refused .addressWrap
  else if s.secureViolation a.toNat 4 then .abort
  else
    let es := s.torn.headD []
    match bytesDuring s a.toNat es with
    | .ok bs => .ok (assemble s.bigEndian bs, { afterAccess s es with torn := s.torn.tail })
    | .error k => .fault (.unwrittenMemory k)

/-- The word read by an ordinary load, and the state after the access: one access at a multiple of 4 (R68); elsewhere byte by
byte at v6, and refused below (R65). -/
def loadWord (s : State) (a : Word) : Access (Word × State) :=
  if wordAligned a then (memRead s a 4).map (·, s)
  else if s.params.arch = .v6 then unalignedRead s a
  else .refused .unalignedBeforeV6

/-! ## Interrupts -/

/-- Imprecise aborts are masked: A = 1, a bit that only v6 has (R30, R307, D33). -/
def State.abortMasked (s : State) : Bool := s.params.arch = .v6 && psrA s.cpsr

/-- The exception taken between instructions, highest priority first (R305 to R307): FIQ, IRQ, imprecise abort. -/
def State.pendingException (s : State) : Option Exception :=
  if s.fiqLine && !psrF s.cpsr then some .fiq
  else if s.irqLine && !psrI s.cpsr then some .irq
  else if s.abortPending && !s.abortMasked then some .dataAbort
  else none

/-- Taking it: an imprecise abort is then no longer pending (log 14). -/
def takePending (e : Exception) (s : State) : State :=
  match e with
  | .dataAbort => takeException .dataAbort { s with abortPending := false }
  | _ => takeException e s

/-! ## Fetching -/

/-- The instruction word at the pc: little-endian whatever E holds (R62), a Prefetch Abort if a non-secure processor fetches a secure byte
(R70). -/
def fetchWord (s : State) : Access Word :=
  if !wordAligned s.pc then .refused .misalignedArmTarget
  else if s.secureViolation s.pc.toNat 4 then .abort
  else match readBytes s.mem s.pc.toNat 4 with
    | .ok bs => .ok (assemble false bs)
    | .error k => .fault (.unwrittenMemory k)

/-- The refusal of a word that the decoder rejects (R103, R127, R219). -/
def decodeRefusal : DecodeError → Refusal
  | .encodingNotInSource => .encodingNotInSource
  | .coprocessorNotSpecified => .coprocessorNotSpecified
  | .notNamedBySource => .notNamedBySource
  | .reservedCpsForm => .reservedCpsForm
  | .truncated => .encodingNotInSource

/-- The instruction that the coming step executes: none where the step takes an interrupt or an abort, or stops before it
executes one. -/
def State.nextInstruction (s : State) : Option Instr :=
  let s1 := environmentTurn s
  if (Mode.ofBits (psrMode s.cpsr)).isSome && s1.pendingException.isNone && s1.armState then
    match fetchWord s1 with
    | .ok w => (decodeWord w).toOption
    | _ => none
  else none

/-- An instruction word stored at the pc, where the next fetch reads. -/
def storeInstruction (s : State) (w : Word) : State :=
  { s with mem := writeBytes s.mem s.pc.toNat (bytesOfWord w) }

end Sys2Proof.Machine
end

