-- ==== Sys2Proof/Machine/Base.lean ====
section
/-! DEFINITION. The base-set forms of the source's examples (spec/46_base_instructions_in_examples.md): LDR, SUBS, B, MSR. -/

namespace Sys2Proof.Machine

/-- LDR Rd, [Rn], #imm (R280): the base is written back after the access, in which the environment may act when it is
unaligned. -/
def execLdrPost (c : Cond) (add : Bool) (rd rn : Reg) (imm12 : BitVec 12) (s : State) : Result :=
  conditional c s <| withoutR15 [rd, rn] <| refuseIf (rd == rn) <|
    (loadWord s (s.reg rn)).andThen s fun p =>
      ((p.2.setReg rd p.1).setReg rn (postIndexed (s.reg rn) add imm12)).advance

/-- SUBS Rd, Rn, #imm (R281). -/
def execSubsImm (c : Cond) (rd rn : Reg) (rot : BitVec 4) (imm8 : BitVec 8) (s : State) : Result :=
  registerStep .v5 c [rd, rn] s
    ((s.setReg rd (s.reg rn - rotatedImm rot imm8)).setCpsr (psrSubFlags s.cpsr (s.reg rn) (rotatedImm rot imm8)))

/-- B label (R282). -/
def execB (c : Cond) (imm24 : BitVec 24) (s : State) : Result :=
  conditional c s <| .next { s with pc := s.pc + 8#32 + branchOffset imm24 }

/-- The bits MSR CPSR_f writes: 31:25, J not being writable this way (R283); in user mode the flags alone (R309, log 21). -/
def msrMask (privileged : Bool) : Word := if privileged then 0xFE000000#32 else 0xF8000000#32

/-- MSR CPSR_f, Rm (R283). -/
def execMsrCpsrF (c : Cond) (rm : Reg) (s : State) : Result :=
  registerStep .v5 c [rm] s
    (s.setCpsr ((s.cpsr &&& ~~~msrMask s.privileged) ||| (s.reg rm &&& msrMask s.privileged)))

end Sys2Proof.Machine
end

