-- ==== Sys2Proof/Machine/Control.lean ====
section
/-! DEFINITION. v6 control (spec/41_v6_control_sync_packing.md R141 to R144): CPS, SETEND, SRS, RFE. -/

namespace Sys2Proof.Machine

/-- The mask bits after CPS (R141): CPSIE clears and CPSID sets the named ones. -/
def maskedPsr (change : MaskChange) (w : Word) : Word :=
  match change with
  | .keep => w
  | .enable a i f => clearNamed a i f w
  | .disable a i f => setNamed a i f w
where
  setNamed (a i f : Bool) (w : Word) : Word :=
    let w := if a then psrSetA w true else w
    let w := if i then psrSetI w true else w
    if f then psrSetF w true else w
  clearNamed (a i f : Bool) (w : Word) : Word :=
    let w := if a then psrSetA w false else w
    let w := if i then psrSetI w false else w
    if f then psrSetF w false else w

/-- CPS's mode operand (R141): none keeps the mode, secure monitor mode and numbers outside R34's table are refused. -/
def changeMode (mode : Option (BitVec 5)) (w : Word) (k : Word → Result) : Result :=
  match mode with
  | none => k w
  | some b =>
    match Mode.ofBits b with
    | none => .refused .illegalMode
    | some .monitor => .refused .cpsToMonitor
    | some m => k (psrSetMode w m.bits)

/-- CPS (R141): in user mode it has no effect. That the mode operand is then not checked, so that one which R141 refuses is a no-op there
too, is the model's choice (log 42). -/
def execCps (change : MaskChange) (mode : Option (BitVec 5)) (s : State) : Result :=
  atLevel .v6 s <|
    if s.privileged then changeMode mode (maskedPsr change s.cpsr) fun w => (s.setCpsr w).advance else s.advance

/-- SETEND (R142), usable in every mode. -/
def execSetend (big : Bool) (s : State) : Result := atLevel .v6 s (s.setCpsr (psrSetE s.cpsr big)).advance

/-- SRS (R143): LR and SPSR of the current mode go to the stack of the named mode. -/
def execSrs (am : AddrMode) (wb : Bool) (mode : BitVec 5) (s : State) : Result :=
  atLevel .v6 s <|
    match spsrOf s.spsr s.mode, Mode.ofBits mode with
    | none, _ => .refused .noSpsr
    | some _, none => .refused .illegalMode
    | some saved, some m =>
      let base := s.phys (stackReg m)
      let a := pairAddress am base
      (storeAligned s a (s.reg 14)).andThen s fun s1 =>
        (storeAligned s1 (a + 4#32) saved).andThen s fun s2 =>
          (if wb then s2.setPhys (stackReg m) (pairBase am base) else s2).advance

/-- RFE (R144): the pc and the whole CPSR are loaded; the base is written back in the mode the instruction runs in. -/
def execRfe (am : AddrMode) (wb : Bool) (rn : Reg) (s : State) : Result :=
  atLevel .v6 s <| withoutR15 [rn] <|
    if s.privileged then
      let base := s.reg rn
      let a := pairAddress am base
      (loadAligned s a).andThen s fun newPc =>
        (loadAligned s (a + 4#32)).andThen s fun newCpsr =>
          returnFromException (if wb then s.setReg rn (pairBase am base) else s) newPc newCpsr
    else .refused .rfeInUserMode

end Sys2Proof.Machine
end

