-- ==== Sys2Proof/Machine/Dsp.lean ====
section
/-! DEFINITION. Long multiply and v5TE signal processing: UMAAL (spec/41_v6_control_sync_packing.md R140), SMLAWy, SMULWy, SMLALxy,
SMULxy, QADD, QSUB, QDADD, QDSUB (spec/42_v5te_dsp.md). -/

namespace Sys2Proof.Machine

/-- A result that may set the sticky Q flag (R170). -/
def writeWithQ (s : State) (rd : Reg) (v : Word) (sat : Bool) : State := (s.setReg rd v).setCpsr (psrOrQ s.cpsr sat)

/-- A 32-bit result that wraps, and sets Q when it does not fit (R172, R231, R233, R234). -/
def writeWrapped (s : State) (rd : Reg) (r : Int) : State := writeWithQ s rd (truncInt 32 r) (signedOverflow 32 r)

/-- A 64-bit result in RdHi:RdLo, the low word written first; wraps, no flag (R174, R235, R236). -/
def writeLong (s : State) (rdLo rdHi : Reg) (r : Int) : State :=
  let acc := truncInt 64 r
  (s.setReg rdLo (acc.extractLsb' 0 32)).setReg rdHi (acc.extractLsb' 32 32)

/-- `sint(x[RdHi] ++ x[RdLo])` (R174). -/
def longInt (s : State) (rdLo rdHi : Reg) : Int := (s.reg rdHi ++ s.reg rdLo : BitVec 64).toInt

/-- A long multiply's shape: RdLo = RdHi is refused (D21). -/
def longStep (need : Arch) (c : Cond) (rdLo rdHi rm rs : Reg) (s : State) (update : State) : Result :=
  atLevel need s <| conditional c s <| withoutR15 [rdLo, rdHi, rm, rs] <| refuseIf (rdLo == rdHi) update.advance

/-- UMAAL (R140). -/
def execUmaal (c : Cond) (rdLo rdHi rm rs : Reg) (s : State) : Result :=
  longStep .v6 c rdLo rdHi rm rs s
    (let r := (s.reg rm).toNat * (s.reg rs).toNat + (s.reg rdLo).toNat + (s.reg rdHi).toNat
     (s.setReg rdLo (BitVec.ofNat 32 r)).setReg rdHi (BitVec.ofNat 32 (r >>> 32)))

/-- The top 32 bits of the 48-bit product of a word and a half (R172, R173): the product over 2^16, rounded down. -/
def wideProduct (v w : Word) (y : HalfSel) : Int := v.toInt * halfInt w y / 65536

/-- SMLAWy (R172). -/
def execSmlaw (c : Cond) (y : HalfSel) (rd rm rs rn : Reg) (s : State) : Result :=
  registerStep .v5TE c [rd, rm, rs, rn] s
    (writeWrapped s rd (wideProduct (s.reg rm) (s.reg rs) y + (s.reg rn).toInt))

/-- SMULWy (R173). -/
def execSmulw (c : Cond) (y : HalfSel) (rd rm rs : Reg) (s : State) : Result :=
  registerStep .v5TE c [rd, rm, rs] s (s.setReg rd (truncInt 32 (wideProduct (s.reg rm) (s.reg rs) y)))

/-- SMLALxy (R174). -/
def execSmlal (c : Cond) (x y : HalfSel) (rdLo rdHi rm rs : Reg) (s : State) : Result :=
  longStep .v5TE c rdLo rdHi rm rs s
    (writeLong s rdLo rdHi (longInt s rdLo rdHi + halfInt (s.reg rm) x * halfInt (s.reg rs) y))

/-- SMULxy (R175). -/
def execSmul (c : Cond) (x y : HalfSel) (rd rm rs : Reg) (s : State) : Result :=
  registerStep .v5TE c [rd, rm, rs] s (s.setReg rd (truncInt 32 (halfInt (s.reg rm) x * halfInt (s.reg rs) y)))

/-- A saturated 32-bit result (R176): `earlier` says whether a doubling before it saturated. -/
def writeSaturated (s : State) (rd : Reg) (r : Int) (earlier : Bool) : State :=
  writeWithQ s rd (truncInt 32 (signedSat 32 r).1) (earlier || (signedSat 32 r).2)

/-- QADD (R176). -/
def execQadd (c : Cond) (rd rm rn : Reg) (s : State) : Result :=
  registerStep .v5TE c [rd, rm, rn] s (writeSaturated s rd ((s.reg rm).toInt + (s.reg rn).toInt) false)

/-- QSUB (R177). -/
def execQsub (c : Cond) (rd rm rn : Reg) (s : State) : Result :=
  registerStep .v5TE c [rd, rm, rn] s (writeSaturated s rd ((s.reg rm).toInt - (s.reg rn).toInt) false)

/-- The saturated double of R178. -/
def doubled (v : Word) : Int × Bool := signedSat 32 (2 * v.toInt)

/-- QDADD (R178). -/
def execQdadd (c : Cond) (rd rm rn : Reg) (s : State) : Result :=
  registerStep .v5TE c [rd, rm, rn] s
    (writeSaturated s rd ((s.reg rm).toInt + (doubled (s.reg rn)).1) (doubled (s.reg rn)).2)

/-- QDSUB (R179). -/
def execQdsub (c : Cond) (rd rm rn : Reg) (s : State) : Result :=
  registerStep .v5TE c [rd, rm, rn] s
    (writeSaturated s rd ((s.reg rm).toInt - (doubled (s.reg rn)).1) (doubled (s.reg rn)).2)

end Sys2Proof.Machine
end

