-- ==== Sys2Proof/Machine/DspSupport.lean ====
section
/-! DEFINITION. v6 dual multiplies, extend, saturate, select and sum of absolute differences (spec/44_v6_dsp_support.md). -/

namespace Sys2Proof.Machine

/-- `p1`, the product of the bottom halves (R230). -/
def bottomProduct (x : Bool) (v w : Word) : Int := halfInt v .bottom * halfInt (dualOperand x w) .bottom

/-- `p2`, the product of the top halves (R230). -/
def topProduct (x : Bool) (v w : Word) : Int := halfInt v .top * halfInt (dualOperand x w) .top

/-- SMUAD and SMUADX (R231). -/
def execSmuad (x : Bool) (c : Cond) (rd rm rs : Reg) (s : State) : Result :=
  registerStep .v6 c [rd, rm, rs] s
    (writeWrapped s rd (bottomProduct x (s.reg rm) (s.reg rs) + topProduct x (s.reg rm) (s.reg rs)))

/-- SMUSD and SMUSDX (R232). -/
def execSmusd (x : Bool) (c : Cond) (rd rm rs : Reg) (s : State) : Result :=
  registerStep .v6 c [rd, rm, rs] s
    (s.setReg rd (truncInt 32 (bottomProduct x (s.reg rm) (s.reg rs) - topProduct x (s.reg rm) (s.reg rs))))

/-- SMLAD and SMLADX (R233). -/
def execSmlad (x : Bool) (c : Cond) (rd rm rs rn : Reg) (s : State) : Result :=
  registerStep .v6 c [rd, rm, rs, rn] s
    (writeWrapped s rd
      ((s.reg rn).toInt + bottomProduct x (s.reg rm) (s.reg rs) + topProduct x (s.reg rm) (s.reg rs)))

/-- SMLSD and SMLSDX (R234). -/
def execSmlsd (x : Bool) (c : Cond) (rd rm rs rn : Reg) (s : State) : Result :=
  registerStep .v6 c [rd, rm, rs, rn] s
    (writeWrapped s rd
      ((s.reg rn).toInt + bottomProduct x (s.reg rm) (s.reg rs) - topProduct x (s.reg rm) (s.reg rs)))

/-- SMLALD and SMLALDX (R235). -/
def execSmlald (x : Bool) (c : Cond) (rdLo rdHi rm rs : Reg) (s : State) : Result :=
  longStep .v6 c rdLo rdHi rm rs s
    (writeLong s rdLo rdHi
      (longInt s rdLo rdHi + bottomProduct x (s.reg rm) (s.reg rs) + topProduct x (s.reg rm) (s.reg rs)))

/-- SMLSLD and SMLSLDX (R236). -/
def execSmlsld (x : Bool) (c : Cond) (rdLo rdHi rm rs : Reg) (s : State) : Result :=
  longStep .v6 c rdLo rdHi rm rs s
    (writeLong s rdLo rdHi
      (longInt s rdLo rdHi + bottomProduct x (s.reg rm) (s.reg rs) - topProduct x (s.reg rm) (s.reg rs)))

/-- UXTB (R238). -/
def execUxtb (c : Cond) (rd rm : Reg) (rot : Rotation) (s : State) : Result :=
  registerStep .v6 c [rd, rm] s (s.setReg rd ((byteLane (rotated (s.reg rm) rot) 0).setWidth 32))

/-- SXTB16 (R239): bytes 0 and 2 of the rotated register. -/
def execSxtb16 (c : Cond) (rd rm : Reg) (rot : Rotation) (s : State) : Result :=
  registerStep .v6 c [rd, rm] s
    (s.setReg rd (packHalves fun k => (byteLane (rotated (s.reg rm) rot) (2 * k)).signExtend 16))

/-- SSAT (R241). -/
def execSsat (c : Cond) (rd : Reg) (n : Nat) (rm : Reg) (shift : SatShift) (s : State) : Result :=
  registerStep .v6 c [rd, rm] s
    (writeWithQ s rd (truncInt 32 (signedSat n (satOperand (s.reg rm) shift)).1)
      (signedSat n (satOperand (s.reg rm) shift)).2)

/-- SEL (R242). -/
def execSel (c : Cond) (rd rn rm : Reg) (s : State) : Result :=
  registerStep .v6 c [rd, rn, rm] s (s.setReg rd (selectBytes (psrGE s.cpsr) (s.reg rn) (s.reg rm)))

/-- USAD8 (R243). -/
def execUsad8 (c : Cond) (rd rm rs : Reg) (s : State) : Result :=
  registerStep .v6 c [rd, rm, rs] s (s.setReg rd (BitVec.ofNat 32 (sumAbsDiff (s.reg rm) (s.reg rs))))

end Sys2Proof.Machine
end

