-- ==== Sys2Proof/Machine/Packing.lean ====
section
/-! DEFINITION. Byte reversal and packing (spec/41_v6_control_sync_packing.md R148 to R152): REV, REV16, REVSH, PKHBT, PKHTB. -/

namespace Sys2Proof.Machine

/-- REV (R148). -/
def execRev (c : Cond) (rd rm : Reg) (s : State) : Result :=
  registerStep .v6 c [rd, rm] s (s.setReg rd (byteReverse (s.reg rm)))

/-- REV16 (R149). -/
def execRev16 (c : Cond) (rd rm : Reg) (s : State) : Result :=
  registerStep .v6 c [rd, rm] s (s.setReg rd (byteReverseHalves (s.reg rm)))

/-- REVSH (R150). -/
def execRevsh (c : Cond) (rd rm : Reg) (s : State) : Result :=
  registerStep .v6 c [rd, rm] s (s.setReg rd (byteReverseSigned (s.reg rm)))

/-- PKHBT (R151): bottom half from Rn, top half from the shifted Rm. -/
def execPkhbt (c : Cond) (rd rn rm : Reg) (lsl : Nat) (s : State) : Result :=
  registerStep .v6 c [rd, rn, rm] s
    (s.setReg rd (halfOf (pkhShiftLeft (s.reg rm) lsl) .top ++ halfOf (s.reg rn) .bottom))

/-- PKHTB (R152): top half from Rn, bottom half from the shifted Rm. -/
def execPkhtb (c : Cond) (rd rn rm : Reg) (asr : Nat) (s : State) : Result :=
  registerStep .v6 c [rd, rn, rm] s
    (s.setReg rd (halfOf (s.reg rn) .top ++ halfOf (pkhShiftRight (s.reg rm) asr) .bottom))

end Sys2Proof.Machine
end

