-- ==== Sys2Proof/Machine/Security.lean ====
section
/-! DEFINITION. TrustZone and Jazelle (spec/45_security_java_thumb2.md): SMI, BXJ. -/

namespace Sys2Proof.Machine

/-- SMI (R262): from a privileged mode the secure monitor entry, from user mode Undefined Instruction; the immediate is ignored
(D32). That it is an instruction of v6 is the model's reading of R261's "new to v6"; R262 gives it no level (log 38). -/
def execSmi (c : Cond) (_imm16 : BitVec 16) (s : State) : Result :=
  atLevel .v6 s <|
    if s.params.hasTrustZone then
      conditional c s <| .next (takeException (if s.privileged then .monitor else .undefined) s)
    else .refused .noTrustZone

/-- Jazelle execution starts: J = 1, T = 0, the pc at an address the hardware chooses, a free value (R266, log 22) that need be
no multiple of 4 (log 17). -/
def enterJazelle (s : State) : State :=
  { s with
    cpsr := psrSetT (psrSetJ s.cpsr true) false
    pc := Config.jazelleEntry s.freeCount
    freeCount := s.freeCount + 1 }

/-- BXJ (R266): Jazelle where it is present and enabled, otherwise an exchange branch without link. -/
def execBxj (c : Cond) (rm : Reg) (s : State) : Result :=
  conditional c s <| withoutR15 [rm] <|
    if s.params.hasJazelle && s.params.jazelleEnabled then .next (enterJazelle s) else s.exchange (s.reg rm)

end Sys2Proof.Machine
end

