-- ==== Sys2Proof/Machine/Semaphore.lean ====
section
/-! DEFINITION. Semaphore operations (spec/41_v6_control_sync_packing.md R145 to R147): SWP, LDREX, STREX. -/

namespace Sys2Proof.Machine

/-- SWP (R145): the word read goes to Rd after Rm is written, in one step (R68). -/
def execSwp (c : Cond) (rd rm rn : Reg) (s : State) : Result :=
  conditional c s <| withoutR15 [rd, rm, rn] <| refuseIf (rn == rd || rn == rm) <|
    (loadAligned s (s.reg rn)).andThen s fun old =>
      (storeAligned s (s.reg rn) (s.reg rm)).andThen s fun s1 => (s1.setReg rd old).advance

/-- LDREX (R146): the load sets the reservation. -/
def execLdrex (c : Cond) (rd rn : Reg) (s : State) : Result :=
  atLevel .v6 s <| conditional c s <| withoutR15 [rd, rn] <|
    (loadAligned s (s.reg rn)).andThen s fun v =>
      State.advance { s.setReg rd v with reservation := some (s.reg rn) }

/-- STREX (R147): stores and answers 0 when the reservation covers the address, otherwise answers 1 and stores nothing; the
reservation ends either way (log 23). -/
def execStrex (c : Cond) (rd rm rn : Reg) (s : State) : Result :=
  atLevel .v6 s <| conditional c s <| withoutR15 [rd, rm, rn] <| refuseIf (rd == rm || rd == rn) <|
    if !wordAligned (s.reg rn) then .refused .unalignedSemaphore
    else if s.reserved (s.reg rn) then
      (storeAligned s (s.reg rn) (s.reg rm)).andThen s fun s1 =>
        State.advance { s1.setReg rd 0#32 with reservation := none }
    else State.advance { s.setReg rd 1#32 with reservation := none }

end Sys2Proof.Machine
end

