-- ==== Sys2Proof/Machine/Simd.lean ====
section
/-! DEFINITION. v6 SIMD add and subtract (spec/43_v6_simd_addsub.md). -/

namespace Sys2Proof.Machine

/-! ## Exact lane results (R190, R191, R194) -/

/-- The exact result of each byte lane. -/
def byteResults (signed : Bool) (op : LaneOp) (v w : Word) (k : Nat) : Int :=
  op.apply (laneInt signed (byteLane v k)) (laneInt signed (byteLane w k))

/-- The exact result of each halfword lane. -/
def halfResults (signed : Bool) (op : LaneOp) (v w : Word) (k : Nat) : Int :=
  op.apply (laneInt signed (halfLane v k)) (laneInt signed (halfLane w k))

/-- The operation of a lane in the swapped forms (R194): ADDSUBX (`top = .add`) adds the high halves and subtracts the low,
SUBADDX the reverse. -/
def crossOp (top : LaneOp) (k : Nat) : LaneOp :=
  match top, k with
  | .add, 1 => .add
  | .add, _ => .sub
  | .sub, 1 => .sub
  | .sub, _ => .add

/-- The exact result of each halfword lane with the halves of the second operand swapped (R194). -/
def crossResults (signed : Bool) (top : LaneOp) (v w : Word) (k : Nat) : Int :=
  (crossOp top k).apply (laneInt signed (halfLane v k)) (laneInt signed (halfLane w (1 - k)))

/-! ## From exact results to a register: wrapping with GE, saturating with Q, halving (R191 to R193) -/

/-- Four byte lanes that wrap, and their GE bits. -/
def wrapBytes (signed : Bool) (op : LaneOp) (v w : Word) : Word × BitVec 4 :=
  (packBytes fun k => truncInt 8 (byteResults signed op v w k),
   geBytes fun k => laneGE signed op 8 (byteResults signed op v w k))

/-- Two halfword lanes that wrap, and their GE bits. -/
def wrapHalves (signed : Bool) (op : LaneOp) (v w : Word) : Word × BitVec 4 :=
  (packHalves fun k => truncInt 16 (halfResults signed op v w k),
   geHalves fun k => laneGE signed op 16 (halfResults signed op v w k))

/-- Two swapped halfword lanes that wrap, and their GE bits. -/
def wrapCross (signed : Bool) (top : LaneOp) (v w : Word) : Word × BitVec 4 :=
  (packHalves fun k => truncInt 16 (crossResults signed top v w k),
   geHalves fun k => laneGE signed (crossOp top k) 16 (crossResults signed top v w k))

/-- A saturated lane and whether it saturated. -/
def satLane (signed : Bool) (width : Nat) (r : Int) : Int × Bool :=
  if signed then signedSat width r else unsignedSat width r

/-- Four saturated byte lanes, and whether any saturated. -/
def satBytes (signed : Bool) (r : Nat → Int) : Word × Bool :=
  (packBytes fun k => truncInt 8 (satLane signed 8 (r k)).1,
   (satLane signed 8 (r 0)).2 || (satLane signed 8 (r 1)).2 || (satLane signed 8 (r 2)).2 || (satLane signed 8 (r 3)).2)

/-- Two saturated halfword lanes, and whether any saturated. -/
def satHalves (signed : Bool) (r : Nat → Int) : Word × Bool :=
  (packHalves fun k => truncInt 16 (satLane signed 16 (r k)).1,
   (satLane signed 16 (r 0)).2 || (satLane signed 16 (r 1)).2)

/-- An S- or U-prefixed instruction: the result and all four GE bits are written (R192). -/
def simdWrap (c : Cond) (rd rn rm : Reg) (s : State) (f : Word → Word → Word × BitVec 4) : Result :=
  registerStep .v6 c [rd, rn, rm] s
    ((s.setReg rd (f (s.reg rn) (s.reg rm)).1).setCpsr (psrSetGE s.cpsr (f (s.reg rn) (s.reg rm)).2))

/-- A Q- or UQ-prefixed instruction: GE is kept, and a lane that saturates sets Q if `SIMD_SAT_SETS_Q` (R193). -/
def simdSat (c : Cond) (rd rn rm : Reg) (s : State) (f : Word → Word → Word × Bool) : Result :=
  registerStep .v6 c [rd, rn, rm] s
    ((s.setReg rd (f (s.reg rn) (s.reg rm)).1).setCpsr
      (psrOrQ s.cpsr (s.params.simdSatSetsQ && (f (s.reg rn) (s.reg rm)).2)))

/-! ## The instructions -/

/-- UQADD8 (R195). -/
def execUqadd8 (c : Cond) (rd rn rm : Reg) (s : State) : Result :=
  simdSat c rd rn rm s fun v w => satBytes false (byteResults false .add v w)

/-- QADD8 (R196). -/
def execQadd8 (c : Cond) (rd rn rm : Reg) (s : State) : Result :=
  simdSat c rd rn rm s fun v w => satBytes true (byteResults true .add v w)

/-- UADD8 (R197). -/
def execUadd8 (c : Cond) (rd rn rm : Reg) (s : State) : Result := simdWrap c rd rn rm s (wrapBytes false .add)

/-- SADD8 (R198). -/
def execSadd8 (c : Cond) (rd rn rm : Reg) (s : State) : Result := simdWrap c rd rn rm s (wrapBytes true .add)

/-- UQSUB8 (R199). -/
def execUqsub8 (c : Cond) (rd rn rm : Reg) (s : State) : Result :=
  simdSat c rd rn rm s fun v w => satBytes false (byteResults false .sub v w)

/-- QSUB8 (R200). -/
def execQsub8 (c : Cond) (rd rn rm : Reg) (s : State) : Result :=
  simdSat c rd rn rm s fun v w => satBytes true (byteResults true .sub v w)

/-- USUB8 (R201). -/
def execUsub8 (c : Cond) (rd rn rm : Reg) (s : State) : Result := simdWrap c rd rn rm s (wrapBytes false .sub)

/-- SSUB8 (R202). -/
def execSsub8 (c : Cond) (rd rn rm : Reg) (s : State) : Result := simdWrap c rd rn rm s (wrapBytes true .sub)

/-- UQADD16 (R203). -/
def execUqadd16 (c : Cond) (rd rn rm : Reg) (s : State) : Result :=
  simdSat c rd rn rm s fun v w => satHalves false (halfResults false .add v w)

/-- QADD16 (R204). -/
def execQadd16 (c : Cond) (rd rn rm : Reg) (s : State) : Result :=
  simdSat c rd rn rm s fun v w => satHalves true (halfResults true .add v w)

/-- UADD16 (R205). -/
def execUadd16 (c : Cond) (rd rn rm : Reg) (s : State) : Result := simdWrap c rd rn rm s (wrapHalves false .add)

/-- SADD16 (R206). -/
def execSadd16 (c : Cond) (rd rn rm : Reg) (s : State) : Result := simdWrap c rd rn rm s (wrapHalves true .add)

/-- UQSUB16 (R207). -/
def execUqsub16 (c : Cond) (rd rn rm : Reg) (s : State) : Result :=
  simdSat c rd rn rm s fun v w => satHalves false (halfResults false .sub v w)

/-- QSUB16 (R208). -/
def execQsub16 (c : Cond) (rd rn rm : Reg) (s : State) : Result :=
  simdSat c rd rn rm s fun v w => satHalves true (halfResults true .sub v w)

/-- USUB16 (R209). -/
def execUsub16 (c : Cond) (rd rn rm : Reg) (s : State) : Result := simdWrap c rd rn rm s (wrapHalves false .sub)

/-- SSUB16 (R210). -/
def execSsub16 (c : Cond) (rd rn rm : Reg) (s : State) : Result := simdWrap c rd rn rm s (wrapHalves true .sub)

/-- UQADDSUBX (R211). -/
def execUqaddsubx (c : Cond) (rd rn rm : Reg) (s : State) : Result :=
  simdSat c rd rn rm s fun v w => satHalves false (crossResults false .add v w)

/-- QADDSUBX (R212). -/
def execQaddsubx (c : Cond) (rd rn rm : Reg) (s : State) : Result :=
  simdSat c rd rn rm s fun v w => satHalves true (crossResults true .add v w)

/-- UADDSUBX (R213). -/
def execUaddsubx (c : Cond) (rd rn rm : Reg) (s : State) : Result := simdWrap c rd rn rm s (wrapCross false .add)

/-- SADDSUBX (R214). -/
def execSaddsubx (c : Cond) (rd rn rm : Reg) (s : State) : Result := simdWrap c rd rn rm s (wrapCross true .add)

/-- UQSUBADDX (R215). -/
def execUqsubaddx (c : Cond) (rd rn rm : Reg) (s : State) : Result :=
  simdSat c rd rn rm s fun v w => satHalves false (crossResults false .sub v w)

/-- QSUBADDX (R216). -/
def execQsubaddx (c : Cond) (rd rn rm : Reg) (s : State) : Result :=
  simdSat c rd rn rm s fun v w => satHalves true (crossResults true .sub v w)

/-- USUBADDX (R217). -/
def execUsubaddx (c : Cond) (rd rn rm : Reg) (s : State) : Result := simdWrap c rd rn rm s (wrapCross false .sub)

/-- SSUBADDX (R218). -/
def execSsubaddx (c : Cond) (rd rn rm : Reg) (s : State) : Result := simdWrap c rd rn rm s (wrapCross true .sub)

/-- UHSUB8 (R220): the exact differences are halved; GE and Q are kept. -/
def execUhsub8 (c : Cond) (rd rn rm : Reg) (s : State) : Result :=
  registerStep .v6 c [rd, rn, rm] s
    (s.setReg rd (packBytes fun k => truncInt 8 (halve (byteResults false .sub (s.reg rn) (s.reg rm) k))))

end Sys2Proof.Machine
end

