-- ==== Sys2Proof/Machine/V5.lean ====
section
/-! DEFINITION. The v5 extensions (spec/40_v5_extensions.md): BLX, CLZ, BKPT, PLD, CDP2, MRC2. -/

namespace Sys2Proof.Machine

/-- BLX Rm (R121): the target is read before the link register is written. -/
def execBlxReg (c : Cond) (rm : Reg) (s : State) : Result :=
  conditional c s <| withoutR15 [rm] <| (s.setReg 14 (s.pc + 4#32)).exchange (s.reg rm)

/-- BLX label (R120): always executes, links, and goes to Thumb state at the target of R100. -/
def execBlxLabel (h : Bool) (imm24 : BitVec 24) (s : State) : Result :=
  ((s.setReg 14 (s.pc + 4#32)).setCpsr (psrSetT s.cpsr true)).jump (s.pc + 8#32 + branchOffset imm24 + hOffset h)

/-- CLZ (R122). -/
def execClz (c : Cond) (rd rm : Reg) (s : State) : Result :=
  registerStep .v5 c [rd, rm] s (s.setReg rd (BitVec.ofNat 32 (leadingZeros (s.reg rm))))

/-- BKPT (R123): a Prefetch Abort, whatever the immediate. -/
def execBkpt (_imm16 : BitVec 16) (s : State) : Result := .next (takeException .prefetchAbort s)

/-- PLD (R124): no effect, no abort; the address is not used (D17, log 19). -/
def execPld (_i _u : Bool) (_rn : Reg) (_addrMode : BitVec 12) (s : State) : Result := s.advance

/-- CDP2 (R125): no coprocessor is described (D16, log 29). -/
def execCdp2 (_opc1 _crn _crd _cpNum : BitVec 4) (_opc2 : BitVec 3) (_crm : BitVec 4) (_s : State) : Result :=
  .refused .coprocessorNotSpecified

/-- MRC2 (R126): no coprocessor is described (D16, log 29). -/
def execMrc2 (_opc1 : BitVec 3) (_crn : BitVec 4) (_rd : Reg) (_cpNum : BitVec 4) (_opc2 : BitVec 3) (_crm : BitVec 4)
    (_s : State) : Result :=
  .refused .coprocessorNotSpecified

end Sys2Proof.Machine
end

