-- ==== Sys2Proof/Machine/Dispatch.lean ====
section
/-! DEFINITION. One arm per constructor of Instr: the meaning of each instruction. -/

namespace Sys2Proof.Machine

/-- The meaning of an instruction at the pc of a state. -/
def exec (i : Instr) (s : State) : Host.Outcome State Fault Refusal :=
  match i with
  | .blxReg c rm => Sys2Proof.Machine.execBlxReg c rm s
  | .blxLabel h imm24 => Sys2Proof.Machine.execBlxLabel h imm24 s
  | .clz c rd rm => Sys2Proof.Machine.execClz c rd rm s
  | .bkpt imm16 => Sys2Proof.Machine.execBkpt imm16 s
  | .pld iBit u rn addrMode => Sys2Proof.Machine.execPld iBit u rn addrMode s
  | .cdp2 opc1 crn crd cpNum opc2 crm => Sys2Proof.Machine.execCdp2 opc1 crn crd cpNum opc2 crm s
  | .mrc2 opc1 crn rd cpNum opc2 crm => Sys2Proof.Machine.execMrc2 opc1 crn rd cpNum opc2 crm s
  | .pkhbt c rd rn rm lsl => Sys2Proof.Machine.execPkhbt c rd rn rm lsl s
  | .pkhtb c rd rn rm asr => Sys2Proof.Machine.execPkhtb c rd rn rm asr s
  | .umaal c rdLo rdHi rm rs => Sys2Proof.Machine.execUmaal c rdLo rdHi rm rs s
  | .cps change mode => Sys2Proof.Machine.execCps change mode s
  | .setend big => Sys2Proof.Machine.execSetend big s
  | .srs am wb mode => Sys2Proof.Machine.execSrs am wb mode s
  | .rfe am wb rn => Sys2Proof.Machine.execRfe am wb rn s
  | .swp c rd rm rn => Sys2Proof.Machine.execSwp c rd rm rn s
  | .ldrex c rd rn => Sys2Proof.Machine.execLdrex c rd rn s
  | .strex c rd rm rn => Sys2Proof.Machine.execStrex c rd rm rn s
  | .rev c rd rm => Sys2Proof.Machine.execRev c rd rm s
  | .rev16 c rd rm => Sys2Proof.Machine.execRev16 c rd rm s
  | .revsh c rd rm => Sys2Proof.Machine.execRevsh c rd rm s
  | .smlaw c y rd rm rs rn => Sys2Proof.Machine.execSmlaw c y rd rm rs rn s
  | .smulw c y rd rm rs => Sys2Proof.Machine.execSmulw c y rd rm rs s
  | .smlal c x y rdLo rdHi rm rs => Sys2Proof.Machine.execSmlal c x y rdLo rdHi rm rs s
  | .smul c x y rd rm rs => Sys2Proof.Machine.execSmul c x y rd rm rs s
  | .qadd c rd rm rn => Sys2Proof.Machine.execQadd c rd rm rn s
  | .qsub c rd rm rn => Sys2Proof.Machine.execQsub c rd rm rn s
  | .qdadd c rd rm rn => Sys2Proof.Machine.execQdadd c rd rm rn s
  | .qdsub c rd rm rn => Sys2Proof.Machine.execQdsub c rd rm rn s
  | .uqadd8 c rd rn rm => Sys2Proof.Machine.execUqadd8 c rd rn rm s
  | .qadd8 c rd rn rm => Sys2Proof.Machine.execQadd8 c rd rn rm s
  | .uadd8 c rd rn rm => Sys2Proof.Machine.execUadd8 c rd rn rm s
  | .sadd8 c rd rn rm => Sys2Proof.Machine.execSadd8 c rd rn rm s
  | .uqsub8 c rd rn rm => Sys2Proof.Machine.execUqsub8 c rd rn rm s
  | .qsub8 c rd rn rm => Sys2Proof.Machine.execQsub8 c rd rn rm s
  | .usub8 c rd rn rm => Sys2Proof.Machine.execUsub8 c rd rn rm s
  | .ssub8 c rd rn rm => Sys2Proof.Machine.execSsub8 c rd rn rm s
  | .uqadd16 c rd rn rm => Sys2Proof.Machine.execUqadd16 c rd rn rm s
  | .qadd16 c rd rn rm => Sys2Proof.Machine.execQadd16 c rd rn rm s
  | .uadd16 c rd rn rm => Sys2Proof.Machine.execUadd16 c rd rn rm s
  | .sadd16 c rd rn rm => Sys2Proof.Machine.execSadd16 c rd rn rm s
  | .uqsub16 c rd rn rm => Sys2Proof.Machine.execUqsub16 c rd rn rm s
  | .qsub16 c rd rn rm => Sys2Proof.Machine.execQsub16 c rd rn rm s
  | .usub16 c rd rn rm => Sys2Proof.Machine.execUsub16 c rd rn rm s
  | .ssub16 c rd rn rm => Sys2Proof.Machine.execSsub16 c rd rn rm s
  | .uqaddsubx c rd rn rm => Sys2Proof.Machine.execUqaddsubx c rd rn rm s
  | .qaddsubx c rd rn rm => Sys2Proof.Machine.execQaddsubx c rd rn rm s
  | .uaddsubx c rd rn rm => Sys2Proof.Machine.execUaddsubx c rd rn rm s
  | .saddsubx c rd rn rm => Sys2Proof.Machine.execSaddsubx c rd rn rm s
  | .uqsubaddx c rd rn rm => Sys2Proof.Machine.execUqsubaddx c rd rn rm s
  | .qsubaddx c rd rn rm => Sys2Proof.Machine.execQsubaddx c rd rn rm s
  | .usubaddx c rd rn rm => Sys2Proof.Machine.execUsubaddx c rd rn rm s
  | .ssubaddx c rd rn rm => Sys2Proof.Machine.execSsubaddx c rd rn rm s
  | .uhsub8 c rd rn rm => Sys2Proof.Machine.execUhsub8 c rd rn rm s
  | .smuad x c rd rm rs => Sys2Proof.Machine.execSmuad x c rd rm rs s
  | .smusd x c rd rm rs => Sys2Proof.Machine.execSmusd x c rd rm rs s
  | .smlad x c rd rm rs rn => Sys2Proof.Machine.execSmlad x c rd rm rs rn s
  | .smlsd x c rd rm rs rn => Sys2Proof.Machine.execSmlsd x c rd rm rs rn s
  | .smlald x c rdLo rdHi rm rs => Sys2Proof.Machine.execSmlald x c rdLo rdHi rm rs s
  | .smlsld x c rdLo rdHi rm rs => Sys2Proof.Machine.execSmlsld x c rdLo rdHi rm rs s
  | .uxtb c rd rm rot => Sys2Proof.Machine.execUxtb c rd rm rot s
  | .sxtb16 c rd rm rot => Sys2Proof.Machine.execSxtb16 c rd rm rot s
  | .ssat c rd n rm shift => Sys2Proof.Machine.execSsat c rd n rm shift s
  | .sel c rd rn rm => Sys2Proof.Machine.execSel c rd rn rm s
  | .usad8 c rd rm rs => Sys2Proof.Machine.execUsad8 c rd rm rs s
  | .smi c imm16 => Sys2Proof.Machine.execSmi c imm16 s
  | .bxj c rm => Sys2Proof.Machine.execBxj c rm s
  | .ldrPost c add rd rn imm12 => Sys2Proof.Machine.execLdrPost c add rd rn imm12 s
  | .subsImm c rd rn rot imm8 => Sys2Proof.Machine.execSubsImm c rd rn rot imm8 s
  | .b c imm24 => Sys2Proof.Machine.execB c imm24 s
  | .msrCpsrF c rm => Sys2Proof.Machine.execMsrCpsrF c rm s

end Sys2Proof.Machine
end

