-- ==== Sys2Proof/Machine/Step.lean ====
section
/-! DEFINITION. One step of the machine, and placing an instruction where the next step fetches. -/

namespace Sys2Proof.Machine

/-- One step: the environment acts (log 13); an unmasked interrupt or imprecise abort is taken (R305 to R307); otherwise the
instruction at the pc is fetched, decoded and run. A mode number outside R34's table and execution with T = 1 or J = 1 (R106)
are refused; that an interrupt is taken before that refusal is the model's choice (log 39). -/
def step (s : State) : Host.Outcome State Fault Refusal :=
  match Mode.ofBits (psrMode s.cpsr) with
  | none => .refused .illegalMode
  | some _ =>
    let s1 := environmentTurn s
    match s1.pendingException with
    | some e => .next (takePending e s1)
    | none =>
      if s1.armState then
        match fetchWord s1 with
        | .ok w =>
          match decodeWord w with
          | .ok i => exec i s1
          | .error e => .refused (decodeRefusal e)
        | .abort => .next (takeException .prefetchAbort s1)
        | .fault f => .fault f
        | .refused r => .refused r
      else .refused .thumbOrJazelleState

/-- `s` with the instruction of a table row's word stored at the pc, the first byte lowest, so that the next step fetches it (it
runs at once where, as at reset, the environment's schedule is empty and no interrupt is pending). -/
def State.withFetchWord (s : State) (nbits w : Nat) : State := storeInstruction s (tableWord nbits w)

end Sys2Proof.Machine
end

