-- ==== Sys2Proof/Safety.lean ====
section
/-! DEFINITION. What counts as a safe state, step and run, in the terms statements use. -/

namespace Sys2Proof.Machine

/-- The reservation, where there is one, is of a word-aligned address (spec/20_memory.md R66). -/
def reservationAligned (s : State) : Bool :=
  match s.reservation with
  | none => true
  | some a => wordAligned a

/-- The invariant of the machine: memory in its canonical form, a legal mode number (R34), an ARM-state pc that is a multiple of 4 (R23,
R75), an aligned reservation, and parameters that the spec allows. -/
abbrev State.Inv (s : State) : Prop :=
  memoryWf s.mem ∧ (Mode.ofBits (psrMode s.cpsr)).isSome = true ∧ (s.armState = true → wordAligned s.pc = true)
    ∧ reservationAligned s = true ∧ s.params.wf = true

/-- Nothing outside the processor acts on the coming step: no environment action, interrupt or imprecise abort (the premise of
spec/60_exceptions.md R306 and of D24). -/
abbrev State.quiet (s : State) : Prop := s.env = [] ∧ s.torn = [] ∧ s.fiqLine = false ∧ s.irqLine = false ∧ s.abortPending = false

/-- The coming step executes a BKPT: the spec's end of a run (spec/70_reset_and_hazards.md R346, log 36). A step that takes an
interrupt or is refused executes none. -/
def State.atBreakpoint (s : State) : Bool :=
  match s.nextInstruction with
  | some (.bkpt _) => true
  | _ => false

/-- A run of at most `n` steps (R346). It ends where a BKPT is about to execute, in the state before the BKPT's exception entry; a
refusal or a fault on the way is the answer; none where the run has not ended after `n` steps. -/
def runToBreakpoint : Nat → State → Option Result
  | 0, s => if s.atBreakpoint then some (.next (environmentTurn s)) else none
  | n + 1, s =>
    if s.atBreakpoint then some (.next (environmentTurn s))
    else match step s with
      | .next t => runToBreakpoint n t
      | .fault f => some (.fault f)
      | .refused r => some (.refused r)

/-- A step is safe when it neither faults nor is refused. -/
def safeStep (s : State) : Prop := ∃ t, step s = .next t

end Sys2Proof.Machine
end

