-- ==== Sys2Proof/Certificates/Slice0/Obligations.lean ====
section
/-! DEFINITION. The statements for the provers, and the terms they are written in. Where the spec gives a value by arithmetic on
numbers, the statement does too, and does not repeat the model's own function for it. -/

namespace Sys2Proof.Claims

open Sys2Proof Sys2Proof.Machine

/-! ## When an instruction has its effect -/

/-- The instruction exists at this level and its condition passes. -/
def selected (need : Arch) (c : Cond) (s : State) : Prop :=
  Arch.rank need ≤ Arch.rank s.params.arch ∧ conditionPassed c s.cpsr = true

/-- There is a next sequential instruction address (R23, D29). -/
def hasRoom (s : State) : Prop := s.pc.toNat + 4 < 2 ^ 32

/-- The conditions under which a register instruction executes normally: selected, no operand is register 15 (R21), and a next
sequential address. -/
def runs (need : Arch) (c : Cond) (rs : List Reg) (s : State) : Prop :=
  selected need c s ∧ (15 : Reg) ∉ rs ∧ hasRoom s

/-- With register 15 among its operands a selected instruction is refused (R21). -/
def refusesFifteen (need : Arch) (c : Cond) (rs : List Reg) (i : Instr) : Prop :=
  ∀ s : State, selected need c s → (15 : Reg) ∈ rs → exec i s = .refused .registerFifteen

/-! ## Frames -/

/-- Every physical register but those that `rs` name in the mode of `s` is unchanged. -/
def sameRegsBut (s t : State) (rs : List Reg) : Prop :=
  ∀ p : PhysReg, (∀ r ∈ rs, bankedReg s.mode r ≠ some p) → t.phys p = s.phys p

/-- Every status bit but the listed ones is unchanged. -/
def sameStatusBut (s t : State) (bits : List Nat) : Prop :=
  ∀ b : Nat, b ∉ bits → t.cpsr.getLsbD b = s.cpsr.getLsbD b

/-- Every byte of memory reads as before. -/
def sameMemory (s t : State) : Prop := ∀ a : Nat, readByte t.mem a = readByte s.mem a

/-- Every byte of memory but the `n` from `a` up reads as before. -/
def sameMemoryBut (s t : State) (a n : Nat) : Prop :=
  ∀ x : Nat, x < a ∨ a + n ≤ x → readByte t.mem x = readByte s.mem x

/-- The saved status registers, NS, the parameters, the interrupt inputs and the environment's schedules are unchanged. -/
def sameSystem (s t : State) : Prop :=
  t.spsr = s.spsr ∧ t.ns = s.ns ∧ t.params = s.params ∧ t.irqLine = s.irqLine ∧ t.fiqLine = s.fiqLine
    ∧ t.abortPending = s.abortPending ∧ t.env = s.env ∧ t.torn = s.torn

/-- Nothing changes but the pc, the registers `rs` and the status bits `bits`. -/
def frame (s t : State) (rs : List Reg) (bits : List Nat) : Prop :=
  sameRegsBut s t rs ∧ sameStatusBut s t bits ∧ sameMemory s t ∧ t.reservation = s.reservation ∧ sameSystem s t
    ∧ t.freeCount = s.freeCount

/-- The next instruction is the following one, and nothing else changes but the registers `rs` and the status bits `bits`. -/
def onlyWrites (s t : State) (rs : List Reg) (bits : List Nat) : Prop := t.pc = s.pc + 4#32 ∧ frame s t rs bits

/-! ## Numbers, halves, lanes -/

/-- A bit string as a signed or an unsigned number (R7). -/
def num (signed : Bool) {n : Nat} (v : BitVec n) : Int := if signed then v.toInt else (v.toNat : Int)

/-- The nearest end of the `w`-bit range of a number outside it, and the number itself inside (R8). -/
def sat (signed : Bool) (w : Nat) (x : Int) : Int :=
  if signed then max (-((2 ^ (w - 1) : Nat) : Int)) (min (((2 ^ (w - 1) : Nat) : Int) - 1) x)
  else max 0 (min (((2 ^ w : Nat) : Int) - 1) x)

/-- The bottom or the top half of a word as a signed number (R171). -/
def half (v : Word) (h : HalfSel) : Int :=
  match h with
  | .bottom => (v.extractLsb' 0 16).toInt
  | .top => (v.extractLsb' 16 16).toInt

/-- The other half, for the forms with X (R230). -/
def other (x : Bool) (h : HalfSel) : HalfSel :=
  match x, h with
  | false, h => h
  | true, .bottom => .top
  | true, .top => .bottom

/-- The product `p1` of the bottom halves, those of Rs swapped with X (R230). -/
def p1 (x : Bool) (v w : Word) : Int := half v .bottom * half w (other x .bottom)

/-- The product `p2` of the top halves, those of Rs swapped with X (R230). -/
def p2 (x : Bool) (v w : Word) : Int := half v .top * half w (other x .top)

/-- The number does not fit 32 bits as a signed number. -/
def outside32 (r : Int) : Prop := r < -2147483648 ∨ 2147483647 < r

/-- Q after an instruction: set when it was set or when `p`. -/
def stickyQ (s t : State) (p : Prop) : Prop := t.cpsr.getLsbD 27 = true ↔ (s.cpsr.getLsbD 27 = true ∨ p)

/-- Byte lane `k` of a word. -/
def b (v : Word) (k : Nat) : BitVec 8 := v.extractLsb' (8 * k) 8

/-- Halfword lane `k` of a word. -/
def h (v : Word) (k : Nat) : BitVec 16 := v.extractLsb' (16 * k) 16

/-! ## SIMD results -/

/-- A wrapping byte operation: each lane of Rd is the exact result modulo 2^8, and its GE bit says that the exact result is at least
`ge` (R192). -/
def bytesWrap (signed : Bool) (op : Int → Int → Int) (ge : Int) (s t : State) (rd rn rm : Reg) : Prop :=
  onlyWrites s t [rd] [16, 17, 18, 19]
    ∧ ∀ k, k < 4 → b (t.reg rd) k = BitVec.ofInt 8 (op (num signed (b (s.reg rn) k)) (num signed (b (s.reg rm) k)))
        ∧ t.cpsr.getLsbD (16 + k) = decide (ge ≤ op (num signed (b (s.reg rn) k)) (num signed (b (s.reg rm) k)))

/-- The exact results of the two halfword lanes, bottom first; `x` swaps the halves of Rm (R194). -/
def exactHalf (signed x : Bool) (op : Int → Int → Int) (s : State) (rn rm : Reg) (k : Nat) : Int :=
  op (num signed (h (s.reg rn) k)) (num signed (h (s.reg rm) (if x then 1 - k else k)))

/-- A wrapping halfword operation: each lane of Rd is the exact result modulo 2^16, and its two GE bits say that the exact result is
at least `geTop`, `geBottom` (R192). -/
def halvesWrap (signed x : Bool) (top bottom : Int → Int → Int) (geTop geBottom : Int) (s t : State) (rd rn rm : Reg) : Prop :=
  onlyWrites s t [rd] [16, 17, 18, 19]
    ∧ h (t.reg rd) 1 = BitVec.ofInt 16 (exactHalf signed x top s rn rm 1)
    ∧ h (t.reg rd) 0 = BitVec.ofInt 16 (exactHalf signed x bottom s rn rm 0)
    ∧ t.cpsr.getLsbD 19 = decide (geTop ≤ exactHalf signed x top s rn rm 1)
    ∧ t.cpsr.getLsbD 18 = decide (geTop ≤ exactHalf signed x top s rn rm 1)
    ∧ t.cpsr.getLsbD 17 = decide (geBottom ≤ exactHalf signed x bottom s rn rm 0)
    ∧ t.cpsr.getLsbD 16 = decide (geBottom ≤ exactHalf signed x bottom s rn rm 0)

/-- A saturating byte operation: each lane of Rd is the exact result brought into the lane's range; GE is kept, and Q is set by a
lane that saturates if `SIMD_SAT_SETS_Q` (R193). -/
def bytesSat (signed : Bool) (op : Int → Int → Int) (s t : State) (rd rn rm : Reg) : Prop :=
  onlyWrites s t [rd] [27]
    ∧ (∀ k, k < 4 → num signed (b (t.reg rd) k) = sat signed 8 (op (num signed (b (s.reg rn) k)) (num signed (b (s.reg rm) k))))
    ∧ stickyQ s t (s.params.simdSatSetsQ = true ∧ ∃ k, k < 4
        ∧ sat signed 8 (op (num signed (b (s.reg rn) k)) (num signed (b (s.reg rm) k)))
          ≠ op (num signed (b (s.reg rn) k)) (num signed (b (s.reg rm) k)))

/-- A saturating halfword operation, as `bytesSat`; `x` swaps the halves of Rm (R194). -/
def halvesSat (signed x : Bool) (top bottom : Int → Int → Int) (s t : State) (rd rn rm : Reg) : Prop :=
  onlyWrites s t [rd] [27]
    ∧ num signed (h (t.reg rd) 1) = sat signed 16 (exactHalf signed x top s rn rm 1)
    ∧ num signed (h (t.reg rd) 0) = sat signed 16 (exactHalf signed x bottom s rn rm 0)
    ∧ stickyQ s t (s.params.simdSatSetsQ = true
        ∧ (sat signed 16 (exactHalf signed x top s rn rm 1) ≠ exactHalf signed x top s rn rm 1
          ∨ sat signed 16 (exactHalf signed x bottom s rn rm 0) ≠ exactHalf signed x bottom s rn rm 0))

/-! ## Memory -/

/-- The four bytes from `a` up hold the word `v` in this byte order (R63). -/
def holdsWord (big : Bool) (m : Memory) (a : Word) (v : Word) : Prop :=
  ∀ k, k < 4 → readByte m (a.toNat + k) = some (v.extractLsb' (8 * (if big then 3 - k else k)) 8)

/-- The state after what the environment does among the events of one access. -/
def after (s : State) (es : List AccessEvent) : State :=
  es.foldl (fun s e => match e with | .byte _ => s | .act x => envAct s x) s

/-- In the access at `a` with these events, byte `k` is `v` when the processor reads it: where the events first say so, or at the
end where they never do (R68, D10). -/
def readDuring (s : State) (a : Word) (es : List AccessEvent) (k : Fin 4) (v : Byte) : Prop :=
  ∃ before rest, es = before ++ rest ∧ (.byte k) ∉ before ∧ (rest = [] ∨ rest.head? = some (.byte k))
    ∧ readByte (after s before).mem (a.toNat + k.val) = some v

/-- A word access to `a` is not a non-secure access to a secure byte (R70). -/
def permitted (s : State) (a : Word) : Prop := s.secureViolation a.toNat 4 = false

/-- None of the four bytes from `a` up holds program text (R77). -/
def notText (s : State) (a : Word) : Prop := rangeInRegions s.params.programText a.toNat 4 = false

/-- The two states are equal but for bytes of secure memory. -/
def agreeOutsideSecure (s s' : State) : Prop :=
  ∃ m : Memory, s' = { s with mem := m }
    ∧ ∀ a, inRegions s.params.secureRegions a = false → readByte m a = readByte s.mem a

/-- Two outcomes that a non-secure observer cannot tell apart. -/
def sameOutcomeOutsideSecure (r r' : Result) : Prop :=
  match r, r' with
  | .next t, .next t' => agreeOutsideSecure t t'
  | .fault f, .fault f' => f = f'
  | .refused e, .refused e' => e = e'
  | _, _ => False

/-! ## Tables over all instructions -/

/-- The lowest level at which the instruction exists (R5, U30; each rule's own words; SMI's is the model's reading, log 38). -/
def level : Instr → Arch
  | .blxReg .. | .blxLabel .. | .clz .. | .bkpt .. | .pld .. | .cdp2 .. | .mrc2 .. | .swp .. | .bxj ..
  | .ldrPost .. | .subsImm .. | .b .. | .msrCpsrF .. => .v5
  | .smlaw .. | .smulw .. | .smlal .. | .smul .. | .qadd .. | .qsub .. | .qdadd .. | .qdsub .. => .v5TE
  | _ => .v6

/-- The condition of an instruction, none for the unconditional ones (R91). -/
def condition : Instr → Option Cond
  | .blxLabel .. | .bkpt .. | .pld .. | .cdp2 .. | .mrc2 .. | .cps .. | .setend .. | .srs .. | .rfe .. => none
  | .blxReg c .. | .clz c .. | .pkhbt c .. | .pkhtb c .. | .umaal c .. | .swp c .. | .ldrex c .. | .strex c ..
  | .rev c .. | .rev16 c .. | .revsh c .. | .smlaw c .. | .smulw c .. | .smlal c .. | .smul c .. | .qadd c .. | .qsub c ..
  | .qdadd c .. | .qdsub c .. | .uqadd8 c .. | .qadd8 c .. | .uadd8 c .. | .sadd8 c .. | .uqsub8 c .. | .qsub8 c ..
  | .usub8 c .. | .ssub8 c .. | .uqadd16 c .. | .qadd16 c .. | .uadd16 c .. | .sadd16 c .. | .uqsub16 c .. | .qsub16 c ..
  | .usub16 c .. | .ssub16 c .. | .uqaddsubx c .. | .qaddsubx c .. | .uaddsubx c .. | .saddsubx c .. | .uqsubaddx c ..
  | .qsubaddx c .. | .usubaddx c .. | .ssubaddx c .. | .uhsub8 c .. | .uxtb c .. | .sxtb16 c .. | .ssat c .. | .sel c ..
  | .usad8 c .. | .smi c .. | .bxj c .. | .ldrPost c .. | .subsImm c .. | .b c .. | .msrCpsrF c .. => some c
  | .smuad _ c .. | .smusd _ c .. | .smlad _ c .. | .smlsd _ c .. | .smlald _ c .. | .smlsld _ c .. => some c

/-- The registers an instruction names as operand or destination (R21); PLD's base, which nothing reads, is left out (log 19). -/
def registers : Instr → List Reg
  | .blxReg _ rm | .bxj _ rm | .msrCpsrF _ rm => [rm]
  | .rfe _ _ rn => [rn]
  | .clz _ rd rm | .rev _ rd rm | .rev16 _ rd rm | .revsh _ rd rm | .ldrex _ rd rm | .uxtb _ rd rm _ | .sxtb16 _ rd rm _
  | .ssat _ rd _ rm _ | .ldrPost _ _ rd rm _ | .subsImm _ rd rm _ _ => [rd, rm]
  | .pkhbt _ rd rn rm _ | .pkhtb _ rd rn rm _ | .swp _ rd rn rm | .strex _ rd rn rm | .smulw _ _ rd rn rm | .smul _ _ _ rd rn rm
  | .qadd _ rd rn rm | .qsub _ rd rn rm | .qdadd _ rd rn rm | .qdsub _ rd rn rm | .uqadd8 _ rd rn rm | .qadd8 _ rd rn rm
  | .uadd8 _ rd rn rm | .sadd8 _ rd rn rm | .uqsub8 _ rd rn rm | .qsub8 _ rd rn rm | .usub8 _ rd rn rm | .ssub8 _ rd rn rm
  | .uqadd16 _ rd rn rm | .qadd16 _ rd rn rm | .uadd16 _ rd rn rm | .sadd16 _ rd rn rm | .uqsub16 _ rd rn rm
  | .qsub16 _ rd rn rm | .usub16 _ rd rn rm | .ssub16 _ rd rn rm | .uqaddsubx _ rd rn rm | .qaddsubx _ rd rn rm
  | .uaddsubx _ rd rn rm | .saddsubx _ rd rn rm | .uqsubaddx _ rd rn rm | .qsubaddx _ rd rn rm | .usubaddx _ rd rn rm
  | .ssubaddx _ rd rn rm | .uhsub8 _ rd rn rm | .smuad _ _ rd rn rm | .smusd _ _ rd rn rm | .sel _ rd rn rm
  | .usad8 _ rd rn rm => [rd, rn, rm]
  | .umaal _ lo hi rm rs | .smlal _ _ _ lo hi rm rs | .smlald _ _ lo hi rm rs | .smlsld _ _ lo hi rm rs => [lo, hi, rm, rs]
  | .smlaw _ _ rd rm rs rn | .smlad _ _ rd rm rs rn | .smlsd _ _ rd rm rs rn => [rd, rm, rs, rn]
  | _ => []

/-- The exceptions an instruction can raise (R301). -/
def raises : Instr → List Exception
  | .bkpt .. => [.prefetchAbort]
  | .smi .. => [.undefined, .monitor]
  | .swp .. | .ldrex .. | .strex .. | .srs .. | .rfe .. | .ldrPost .. => [.dataAbort]
  | _ => []

/-- The instructions that can set Q (R170); the saturating SIMD forms under `SIMD_SAT_SETS_Q`. -/
def setsQ (p : Params) : Instr → Bool
  | .qadd .. | .qsub .. | .qdadd .. | .qdsub .. | .ssat .. | .smlaw .. | .smlad .. | .smlsd .. | .smuad .. => true
  | .uqadd8 .. | .qadd8 .. | .uqsub8 .. | .qsub8 .. | .uqadd16 .. | .qadd16 .. | .uqsub16 .. | .qsub16 ..
  | .uqaddsubx .. | .qaddsubx .. | .uqsubaddx .. | .qsubaddx .. => p.simdSatSetsQ
  | _ => false

/-- The instructions that write GE (R28): the S- and U-prefixed SIMD forms. -/
def writesGE : Instr → Bool
  | .uadd8 .. | .sadd8 .. | .usub8 .. | .ssub8 .. | .uadd16 .. | .sadd16 .. | .usub16 .. | .ssub16 .. | .uaddsubx .. | .saddsubx ..
  | .usubaddx .. | .ssubaddx .. => true
  | _ => false

/-- The status bits an instruction may change when it takes no exception (the writers named in R25 to R34 and R38). -/
def statusWrites (p : Params) : Instr → List Nat
  | .rfe .. => List.range 32
  | .msrCpsrF .. => [31, 30, 29, 28, 27, 26, 25]
  | .subsImm .. => [31, 30, 29, 28]
  | .blxReg .. | .blxLabel .. => [5]
  | .bxj .. => [24, 5]
  | .setend .. => [9]
  | .cps .. => [8, 7, 6, 4, 3, 2, 1, 0]
  | i => if setsQ p i then [27] else if writesGE i then [19, 18, 17, 16] else []

/-- One row of R302's table: the vector's offset, the mode number, the link register, the offset of the return value, and whether
entry sets F and A. -/
structure ExceptionRow where
  offset : Word
  mode : BitVec 5
  link : PhysReg
  saved : Mode
  back : Word
  setsF : Bool
  setsA : Bool

/-- The rows of R302 that a running machine takes. -/
def exceptionRow : Exception → ExceptionRow
  | .undefined => ⟨0x04#32, 0b11011#5, .r14_und, .undefined, 4#32, false, false⟩
  | .softwareInterrupt => ⟨0x08#32, 0b10011#5, .r14_svc, .supervisor, 4#32, false, false⟩
  | .prefetchAbort => ⟨0x0C#32, 0b10111#5, .r14_abt, .abort, 4#32, false, true⟩
  | .dataAbort => ⟨0x10#32, 0b10111#5, .r14_abt, .abort, 8#32, false, true⟩
  | .irq => ⟨0x18#32, 0b10010#5, .r14_irq, .irq, 4#32, false, true⟩
  | .fiq => ⟨0x1C#32, 0b10001#5, .r14_fiq, .fiq, 4#32, true, true⟩
  | .monitor => ⟨0x08#32, 0b10110#5, .r14_mon, .monitor, 4#32, true, true⟩

/-- `t` is `s` after the entry of R303 for exception `e`. -/
def entered (e : Exception) (s t : State) : Prop :=
  t.phys (exceptionRow e).link = s.pc + (exceptionRow e).back
    ∧ (∀ p, p ≠ (exceptionRow e).link → t.phys p = s.phys p)
    ∧ spsrOf t.spsr (exceptionRow e).saved = some s.cpsr
    ∧ (∀ m, m ≠ (exceptionRow e).saved → spsrOf t.spsr m = spsrOf s.spsr m)
    ∧ t.cpsr.extractLsb' 0 5 = (exceptionRow e).mode
    ∧ t.cpsr.getLsbD 5 = false ∧ t.cpsr.getLsbD 24 = false ∧ t.cpsr.getLsbD 7 = true
    ∧ t.cpsr.getLsbD 6 = ((exceptionRow e).setsF || s.cpsr.getLsbD 6)
    ∧ t.cpsr.getLsbD 8 = ((exceptionRow e).setsA || s.cpsr.getLsbD 8)
    ∧ t.cpsr.getLsbD 9 = s.params.resetE
    ∧ sameStatusBut s t [0, 1, 2, 3, 4, 5, 6, 7, 8, 9, 24]
    ∧ t.pc = (if e = .monitor then s.params.monitorVectorBase else s.params.vectorBase) + (exceptionRow e).offset
    ∧ sameMemory s t ∧ t.reservation = s.reservation ∧ t.ns = s.ns ∧ t.params = s.params ∧ t.env = s.env ∧ t.torn = s.torn
    ∧ t.irqLine = s.irqLine ∧ t.fiqLine = s.fiqLine ∧ t.abortPending = s.abortPending ∧ t.freeCount = s.freeCount

/-- Registers of user and system mode: not banked for another mode (R22). -/
def userBank (p : PhysReg) : Prop := p.index.val < 15

/-- Two modes see one copy of general register `r` (R22). -/
def sharedBetween (m m' : Mode) (r : Reg) : Prop :=
  r.val < 8 ∨ (r.val < 13 ∧ (m = .fiq ↔ m' = .fiq)) ∨ m = m'
    ∨ (m = .user ∧ m' = .system) ∨ (m = .system ∧ m' = .user)

/-- A mask bit after CPS (R141): cleared by CPSIE and set by CPSID where it is named, otherwise as it was. -/
def maskAfter (change : MaskChange) (pick : Bool → Bool → Bool → Bool) (old : Bool) : Bool :=
  match change with
  | .keep => old
  | .enable a i f => if pick a i f then false else old
  | .disable a i f => if pick a i f then true else old

/-- SSAT's operand after its shift, as a number (R241). -/
def shifted (v : Word) : SatShift → Int
  | .lsl n => (v <<< n).toInt
  | .asr n => v.toInt / ((2 ^ n : Nat) : Int)

/-- The byte that a rotation brings to byte 0 (R237). -/
def firstByte : Rotation → Nat
  | .none => 0
  | .by8 => 1
  | .by16 => 2
  | .by24 => 3

end Sys2Proof.Claims

open Sys2Proof Sys2Proof.Machine

/-! ## Encoding and the step -/

/-- From the bytes of a well-formed instruction's word, lowest address first, the decoder reads the instruction back, for all
seventy instructions and every operand, and leaves the following bytes. -/
def Obligations.DecodeOfEncodeIsTheInstruction : Prop :=
  ∀ (i : Instr) (rest : List Byte), i.wf = true → decodeBytes (bytesOfWord (encode i) ++ rest) = .ok (i, rest)

/-- A word that decodes, decodes to a well-formed instruction whose encoding is that very word: decoding drops no bit. -/
def Obligations.EncodeOfDecodeIsTheWord : Prop :=
  ∀ (w : Word) (i : Instr), decodeWord w = .ok i → i.wf = true ∧ encode i = w

/-- Words written out from the spec's encodings decode to their instructions, and one near miss is refused. The seven
words of sourced formats and the near miss are among V1 to V20 (PKHTB's rests on `PKH_OPC`, log 8). The other six are words of G3's
recalled encodings, which the model's decoder admits (log 9): five from programs P1 to P5, and UMAAL's, which V23 says a decoder of the
sourced formats alone refuses. -/
def Obligations.WordsOfTheSpecDecode : Prop :=
  decodeWord 0xE12FFF33#32 = .ok (.blxReg .al 3) ∧ decodeWord 0xFBFFFFFF#32 = .ok (.blxLabel true 0xFFFFFF#24)
    ∧ decodeWord 0xE16F2F10#32 = .ok (.clz .al 2 0) ∧ decodeWord 0xE12ABC7D#32 = .ok (.bkpt 0xABCD#16)
    ∧ decodeWord 0xF551F004#32 = .ok (.pld false false 1 0x004#12) ∧ decodeWord 0xE6810052#32 = .ok (.pkhtb .al 0 1 2 32)
    ∧ decodeWord 0xE12FFF22#32 = .ok (.bxj .al 2) ∧ decodeWord 0xE16F0E11#32 = .error .encodingNotInSource
    ∧ decodeWord 0xE0432091#32 = .ok (.umaal .al 2 3 1 0) ∧ decodeWord 0xE1435055#32 = .ok (.qdadd .al 5 5 3)
    ∧ decodeWord 0xE700F231#32 = .ok (.smuad true .al 0 1 2) ∧ decodeWord 0xE4961004#32 = .ok (.ldrPost .al true 1 6 4#12)
    ∧ decodeWord 0x1AFFFFF7#32 = .ok (.b .ne 0xFFFFF7#24) ∧ decodeWord 0xE1812F90#32 = .ok (.strex .al 2 0 1)

/-- A word whose condition field is a condition and that fits no row of the tables is refused as not in the source, never as
illegal (R103). By G3's encodings the words of the eleven unnamed halving forms (R219), of USADA8 (R244) and of MCR2, LDC2 and STC2
(R127) are refused under their own names (log 33), and so are the words of CPS's layout that are none of R141's three forms (log 10). -/
def Obligations.WordsWithoutARuleAreRefused : Prop :=
  (∀ (w : Word) (c : Cond), Cond.ofBits (getField w 28 4) = some c → (∀ r ∈ conditionalRows, r.fits w = false) →
      decodeWord w = .error .encodingNotInSource)
    ∧ (∀ w : Word, Cond.ofBits (getField w 28 4) = none → (∀ r ∈ unconditionalRows, r.fits w = false) →
      decodeWord w = .error .encodingNotInSource)
    ∧ (∀ (c : Cond) (rd rn rm : Reg) (v : Word),
      v ∈ [0x06300F10#32, 0x06300F30#32, 0x06300F50#32, 0x06300F70#32, 0x06300F90#32, 0x06300FF0#32, 0x06700F10#32, 0x06700F30#32,
        0x06700F50#32, 0x06700F70#32, 0x06700F90#32] →
      decodeWord (encRdRnRm v c rd rn rm) = .error .notNamedBySource)
    ∧ (∀ w : Word, w &&& 0xFE000000#32 = 0xFC000000#32 ∨ w &&& 0xFF100010#32 = 0xFE000010#32 →
      decodeWord w = .error .coprocessorNotSpecified)
    ∧ (∀ (w : Word) (c : Cond), Cond.ofBits (getField w 28 4) = some c → w &&& 0x0FF000F0#32 = 0x07800010#32 →
      getField w 12 4 ≠ 0b1111#4 → decodeWord w = .error .notNamedBySource)
    ∧ (∀ w : Word, w &&& 0xFFF1FE20#32 = 0xF1000000#32 →
      (getBit w 17 = false ∧ getField w 0 5 ≠ 0#5) ∨ getField w 18 2 = 0b01#2
        ∨ (getField w 18 2 = 0b00#2 ∧ (getBit w 17 = false ∨ getField w 6 3 ≠ 0#3)) →
      decodeWord w = .error .reservedCpsForm)

/-- A step runs the decoded instruction: in a legal mode, in ARM state, with no interrupt or imprecise abort to take, at an
aligned pc whose four bytes may be fetched and hold an instruction's word lowest byte first, `step` is `exec` of that instruction, after the
environment's turn; with no environment action waiting that turn changes nothing. -/
def Obligations.StepRunsTheDecodedInstruction : Prop :=
  (∀ (s : State) (w : Word) (i : Instr), (Mode.ofBits (psrMode s.cpsr)).isSome = true →
      (environmentTurn s).pendingException = none → s.armState = true → wordAligned s.pc = true →
      s.secureViolation s.pc.toNat 4 = false → Claims.holdsWord false (environmentTurn s).mem s.pc w → decodeWord w = .ok i →
      i.wf = true ∧ step s = exec i (environmentTurn s))
    ∧ ∀ s : State, s.env = [] → environmentTurn s = s

/-- Execution in Thumb or Jazelle state is refused (R106): with T = 1 or J = 1, in a legal mode and with nothing to take, a step is the
refusal, whatever memory holds. -/
def Obligations.ThumbAndJazelleStatesAreRefused : Prop :=
  ∀ s : State, (Mode.ofBits (psrMode s.cpsr)).isSome = true → (environmentTurn s).pendingException = none →
    s.cpsr.getLsbD 5 = true ∨ s.cpsr.getLsbD 24 = true → step s = .refused .thumbOrJazelleState

/-- What a fetch does where it gives no instruction: a non-secure processor that fetches a secure byte takes a Prefetch Abort (R70), an
unaligned pc is refused (R75), a byte that nothing has written faults (U1, log 7), a word that does not decode is refused by name, and a
mode number outside R34's table is refused. -/
def Obligations.FetchStopsAndAborts : Prop :=
  ∀ s : State, (environmentTurn s).pendingException = none → s.armState = true →
    ((Mode.ofBits (psrMode s.cpsr)).isSome = true → wordAligned s.pc = true → s.secureViolation s.pc.toNat 4 = true →
      step s = .next (takeException .prefetchAbort (environmentTurn s)))
    ∧ ((Mode.ofBits (psrMode s.cpsr)).isSome = true → wordAligned s.pc = false → step s = .refused .misalignedArmTarget)
    ∧ (∀ k, k < 4 → (Mode.ofBits (psrMode s.cpsr)).isSome = true → wordAligned s.pc = true →
      s.secureViolation s.pc.toNat 4 = false → readByte (environmentTurn s).mem (s.pc.toNat + k) = none →
      (∀ j, j < k → (readByte (environmentTurn s).mem (s.pc.toNat + j)).isSome = true) →
      step s = .fault (.unwrittenMemory (s.pc.toNat + k)))
    ∧ (∀ (w : Word) (e : DecodeError), (Mode.ofBits (psrMode s.cpsr)).isSome = true → wordAligned s.pc = true →
      s.secureViolation s.pc.toNat 4 = false → Claims.holdsWord false (environmentTurn s).mem s.pc w → decodeWord w = .error e →
      step s = .refused (decodeRefusal e))
    ∧ (Mode.ofBits (psrMode s.cpsr) = none → step s = .refused .illegalMode)

/-- Interrupts are taken between instructions, FIQ before IRQ before an imprecise abort, each unless its mask bit is set; taking an imprecise
abort ends its pending (R305 to R307; that lines are levels and what clears them is the model's choice, log 14). With T = 1 or J = 1
they are taken too, with the same r14 offsets (the model's choice, log 39; R302 speaks of ARM state). Nothing is taken exactly where
each request is absent or masked, and with A = 1 at v6 a pending imprecise abort is held: it is pending after the step as well (below
v6, which has no A bit, none is masked, log 14). -/
def Obligations.InterruptsAreTakenBetweenInstructions : Prop :=
  ∀ (s u : State), u = environmentTurn s → (Mode.ofBits (psrMode s.cpsr)).isSome = true →
    (u.fiqLine = true → s.cpsr.getLsbD 6 = false → ∃ t, step s = .next t ∧ Claims.entered .fiq u t)
    ∧ (u.fiqLine = false ∨ s.cpsr.getLsbD 6 = true → u.irqLine = true → s.cpsr.getLsbD 7 = false →
      ∃ t, step s = .next t ∧ Claims.entered .irq u t)
    ∧ (u.fiqLine = false ∨ s.cpsr.getLsbD 6 = true → u.irqLine = false ∨ s.cpsr.getLsbD 7 = true → u.abortPending = true →
      (s.params.arch = .v6 → s.cpsr.getLsbD 8 = false) →
      ∃ t, step s = .next t ∧ t.abortPending = false ∧ Claims.entered .dataAbort { u with abortPending := false } t)
    ∧ (u.pendingException = none ↔ (u.fiqLine = false ∨ s.cpsr.getLsbD 6 = true) ∧ (u.irqLine = false ∨ s.cpsr.getLsbD 7 = true)
      ∧ (u.abortPending = false ∨ (s.params.arch = .v6 ∧ s.cpsr.getLsbD 8 = true)))
    ∧ (s.params.arch = .v6 → s.cpsr.getLsbD 8 = true → u.abortPending = true →
      ∀ t, step s = .next t → t.abortPending = true)

/-! ## Invariants and whole-machine rules -/

/-- Every step keeps the invariant: memory in its canonical form, a legal mode, an aligned ARM-state pc, an aligned reservation,
well-formed parameters. -/
def Obligations.StepKeepsTheInvariant : Prop := ∀ s t : State, s.Inv → step s = .next t → t.Inv

/-- Reset meets the invariant, for every well-formed choice of the parameters. -/
def Obligations.ResetMeetsTheInvariant : Prop :=
  State.reset.Inv ∧ ∀ p : Params, p.wf = true → (State.resetWith p).Inv

/-- R340: after reset the processor is in the secure state, in ARM state, in supervisor mode, with IRQ and FIQ masked, and starts with
the instruction at `RESET_VECTOR`. -/
def Obligations.ResetStartsSecureInSupervisorMode : Prop :=
  ∀ p : Params, (State.resetWith p).ns = false ∧ (State.resetWith p).nonSecure = false
    ∧ (State.resetWith p).mode = .supervisor ∧ (State.resetWith p).armState = true
    ∧ (State.resetWith p).cpsr.getLsbD 7 = true ∧ (State.resetWith p).cpsr.getLsbD 6 = true
    ∧ (State.resetWith p).pc = p.resetVector
    ∧ ∀ (w : Word) (i : Instr), p.wf = true → decodeWord w = .ok i →
      step (storeInstruction (State.resetWith p) w) = exec i (storeInstruction (State.resetWith p) w)

/-- Nothing writes NS, so it is constant over a run (R260, D25), and so are the parameters (log 6). -/
def Obligations.StepKeepsNsAndParameters : Prop :=
  ∀ s t : State, step s = .next t → t.ns = s.ns ∧ t.params = s.params

/-- User mode is left only by an exception (R308), and without one a step in user mode changes no privileged status bit (R38, R309),
no saved status register and no register banked for another mode. -/
def Obligations.UserModeIsLeftOnlyByAnException : Prop :=
  ∀ s t : State, s.cpsr.extractLsb' 0 5 = 0b10000#5 → step s = .next t →
    (∃ (e : Exception) (u : State), t = takeException e u ∧ u.cpsr = s.cpsr ∧ u.pc = s.pc ∧ u.regs = s.regs ∧ u.spsr = s.spsr)
    ∨ ((∀ k, k ∈ [0, 1, 2, 3, 4, 6, 7, 8, 10, 11, 12, 13, 14, 15, 20, 21, 22, 23, 25, 26] → t.cpsr.getLsbD k = s.cpsr.getLsbD k)
      ∧ t.spsr = s.spsr ∧ ∀ p : PhysReg, ¬ Claims.userBank p → t.phys p = s.phys p)

/-- What an instruction does to the status register: it takes one of the exceptions that R301 lists for it, or it changes only bits whose
writers (R25 to R34, R38) include it. -/
def Obligations.StatusBitsChangeOnlyByTheirWriters : Prop :=
  ∀ (i : Instr) (s t : State), exec i s = .next t →
    (∃ e ∈ Claims.raises i, t = takeException e s) ∨ Claims.sameStatusBut s t (Claims.statusWrites s.params i)

/-- Q is sticky (R170): only MSR and RFE clear it, and besides them only the instructions that R170 lists set it, the saturating SIMD forms
under `SIMD_SAT_SETS_Q`. -/
def Obligations.QIsSticky : Prop :=
  ∀ (i : Instr) (s t : State), exec i s = .next t → (∀ c rm, i ≠ .msrCpsrF c rm) →
    (∀ am wb rn, i ≠ .rfe am wb rn) →
    (s.cpsr.getLsbD 27 = true → t.cpsr.getLsbD 27 = true)
    ∧ (s.cpsr.getLsbD 27 = false → t.cpsr.getLsbD 27 = true → Claims.setsQ s.params i = true)

/-- Isolation of the secure world (R70, R310): a step of a non-secure processor answers the same whatever secure memory holds, and with no
action of the environment scheduled leaves every secure byte as it was. -/
def Obligations.NonSecureStepsIgnoreSecureMemory : Prop :=
  (∀ s s' : State, s.nonSecure = true → Claims.agreeOutsideSecure s s' → Claims.sameOutcomeOutsideSecure (step s) (step s'))
    ∧ ∀ (s t : State) (a : Nat), s.nonSecure = true → s.env = [] → s.torn = [] → step s = .next t →
      inRegions s.params.secureRegions a = true → readByte t.mem a = readByte s.mem a

/-- An instruction whose condition fails does nothing but advance the pc (R91), for every instruction with a condition (SMI where
TrustZone is present). -/
def Obligations.FailedConditionOnlyAdvances : Prop :=
  ∀ (i : Instr) (c : Cond) (s : State), Claims.condition i = some c →
    Arch.rank (Claims.level i) ≤ Arch.rank s.params.arch → (∀ c' imm, i = .smi c' imm → s.params.hasTrustZone = true) →
    conditionPassed c s.cpsr = false → Claims.hasRoom s → exec i s = .next { s with pc := s.pc + 4#32 }

/-- An instruction of a later level is refused below it (U30, R5; that SMI is one of v6 is the model's reading, log 38), and at its level and with its condition passed every instruction that
names register 15 among the operands of `Claims.registers` is refused (R21; PLD is not, log 19; the order of the checks is the
model's, log 18). -/
def Obligations.LevelAndRegisterFifteenAreChecked : Prop :=
  ∀ (i : Instr) (s : State),
    (Arch.rank s.params.arch < Arch.rank (Claims.level i) → exec i s = .refused .belowLevel)
    ∧ (Arch.rank (Claims.level i) ≤ Arch.rank s.params.arch →
      (∀ c, Claims.condition i = some c → conditionPassed c s.cpsr = true) → (15 : Reg) ∈ Claims.registers i →
      exec i s = .refused .registerFifteen)

/-- R92's table of conditions: when each passes, and its code. -/
def Obligations.ConditionTable : Prop :=
  ∀ (psr : Word) (n z c v : Bool), psr.getLsbD 31 = n → psr.getLsbD 30 = z → psr.getLsbD 29 = c → psr.getLsbD 28 = v →
    (conditionPassed .eq psr = true ↔ z = true) ∧ (conditionPassed .ne psr = true ↔ z = false)
    ∧ (conditionPassed .cs psr = true ↔ c = true) ∧ (conditionPassed .cc psr = true ↔ c = false)
    ∧ (conditionPassed .mi psr = true ↔ n = true) ∧ (conditionPassed .pl psr = true ↔ n = false)
    ∧ (conditionPassed .vs psr = true ↔ v = true) ∧ (conditionPassed .vc psr = true ↔ v = false)
    ∧ (conditionPassed .hi psr = true ↔ c = true ∧ z = false) ∧ (conditionPassed .ls psr = true ↔ c = false ∨ z = true)
    ∧ (conditionPassed .ge psr = true ↔ n = v) ∧ (conditionPassed .lt psr = true ↔ n ≠ v)
    ∧ (conditionPassed .gt psr = true ↔ z = false ∧ n = v) ∧ (conditionPassed .le psr = true ↔ z = true ∨ n ≠ v)
    ∧ conditionPassed .al psr = true
    ∧ Cond.ofBits 0b0000#4 = some .eq ∧ Cond.ofBits 0b0001#4 = some .ne ∧ Cond.ofBits 0b0010#4 = some .cs
    ∧ Cond.ofBits 0b0011#4 = some .cc ∧ Cond.ofBits 0b0100#4 = some .mi ∧ Cond.ofBits 0b0101#4 = some .pl
    ∧ Cond.ofBits 0b0110#4 = some .vs ∧ Cond.ofBits 0b0111#4 = some .vc ∧ Cond.ofBits 0b1000#4 = some .hi
    ∧ Cond.ofBits 0b1001#4 = some .ls ∧ Cond.ofBits 0b1010#4 = some .ge ∧ Cond.ofBits 0b1011#4 = some .lt
    ∧ Cond.ofBits 0b1100#4 = some .gt ∧ Cond.ofBits 0b1101#4 = some .le ∧ Cond.ofBits 0b1110#4 = some .al
    ∧ Cond.ofBits 0b1111#4 = none

/-- Banked registers (R22, the spec's reading of its figure): a value written to register `r` in one mode is read as register `r` in
another mode exactly where the two modes share the copy, and every other register of either mode keeps its value. -/
def Obligations.BankedRegistersAreSeparate : Prop :=
  ∀ (s : State) (w v : Word) (r r' : Reg) (m m' : Mode), Mode.ofBits (psrMode s.cpsr) = some m →
    Mode.ofBits (psrMode w) = some m' → r ≠ 15 → r' ≠ 15 →
    (Claims.sharedBetween m m' r → ((s.setReg r v).setCpsr w).reg r = v)
    ∧ (¬ Claims.sharedBetween m m' r → ((s.setReg r v).setCpsr w).reg r = (s.setCpsr w).reg r)
    ∧ (r' ≠ r → ((s.setReg r v).setCpsr w).reg r' = (s.setCpsr w).reg r')
    ∧ (s.setReg r v).reg r = v ∧ (r' ≠ r → (s.setReg r v).reg r' = s.reg r')

/-! ## Exceptions -/

/-- Exception entry (R303) with the rows of R302: r14 and SPSR of the mode entered, the mode, T, J, I, F, A, E, the vector, and nothing
else. -/
def Obligations.ExceptionEntry : Prop :=
  ∀ (e : Exception) (s : State), Claims.entered e s (takeException e s)

/-- BKPT takes a Prefetch Abort, always, whatever its immediate (R123). -/
def Obligations.BkptTakesAPrefetchAbort : Prop :=
  ∀ (s : State) (imm16 : BitVec 16), ∃ t, exec (.bkpt imm16) s = .next t ∧ Claims.entered .prefetchAbort s t

/-- SMI (R262): at v6 the secure monitor entry from a privileged mode, Undefined Instruction from user mode, and a refusal without
TrustZone. Both entries are R303's whole entry, which also sets E (the model's reading of R262 with R303, log 15); that SMI is an
instruction of v6 is the model's reading of R261 (log 38). -/
def Obligations.SmiEntersTheMonitorOrTraps : Prop :=
  ∀ (s : State) (c : Cond) (imm16 : BitVec 16), s.params.arch = .v6 →
    (s.params.hasTrustZone = true → conditionPassed c s.cpsr = true → s.cpsr.extractLsb' 0 5 ≠ 0b10000#5 →
      ∃ t, exec (.smi c imm16) s = .next t ∧ Claims.entered .monitor s t)
    ∧ (s.params.hasTrustZone = true → conditionPassed c s.cpsr = true → s.cpsr.extractLsb' 0 5 = 0b10000#5 →
      ∃ t, exec (.smi c imm16) s = .next t ∧ Claims.entered .undefined s t)
    ∧ (s.params.hasTrustZone = false → exec (.smi c imm16) s = .refused .noTrustZone)

/-- The processor is non-secure with TrustZone present, NS = 1 and the mode not secure monitor, which is secure whatever NS holds
(R40, R261). A non-secure access to secure memory aborts (R70; that any secure byte of the access counts is the model's reading of
`SECURE_REGION(addr)`, log 25): LDR, SWP, LDREX, STREX, SRS and RFE take a Data Abort from the state before
the instruction, so they write no register and no memory and keep the reservation (R301, R303, D13, D22), and a fetch a Prefetch
Abort. -/
def Obligations.NonSecureAccessAborts : Prop :=
  ∀ (s : State) (c : Cond) (rd rn rm : Reg) (am : AddrMode) (wb : Bool),
    (s.nonSecure = true ↔ s.params.hasTrustZone = true ∧ s.ns = true ∧ s.cpsr.extractLsb' 0 5 ≠ 0b10110#5)
    ∧ (∀ a n : Nat, s.secureViolation a n = true ↔ s.nonSecure = true
      ∧ ∃ k, k < n ∧ ∃ r ∈ s.params.secureRegions, r.base ≤ a + k ∧ a + k < r.base + r.size)
    ∧ (∀ (add : Bool) (imm12 : BitVec 12), conditionPassed c s.cpsr = true → rd ≠ 15 → rn ≠ 15 → rd ≠ rn →
      (s.params.arch = .v6 ∨ wordAligned (s.reg rn) = true) → (s.reg rn).toNat + 4 ≤ 2 ^ 32 →
      s.secureViolation (s.reg rn).toNat 4 = true →
      exec (.ldrPost c add rd rn imm12) s = .next (takeException .dataAbort s))
    ∧ (conditionPassed c s.cpsr = true → rd ≠ 15 → rm ≠ 15 → rn ≠ 15 → rn ≠ rd → rn ≠ rm → wordAligned (s.reg rn) = true →
      s.secureViolation (s.reg rn).toNat 4 = true → exec (.swp c rd rm rn) s = .next (takeException .dataAbort s))
    ∧ (Claims.selected .v6 c s → rd ≠ 15 → rn ≠ 15 → wordAligned (s.reg rn) = true →
      s.secureViolation (s.reg rn).toNat 4 = true → exec (.ldrex c rd rn) s = .next (takeException .dataAbort s))
    ∧ (Claims.selected .v6 c s → rd ≠ 15 → rm ≠ 15 → rn ≠ 15 → rd ≠ rm → rd ≠ rn → wordAligned (s.reg rn) = true →
      s.reserved (s.reg rn) = true → s.secureViolation (s.reg rn).toNat 4 = true →
      exec (.strex c rd rm rn) s = .next (takeException .dataAbort s))
    ∧ (∀ (saved : Word) (m : Mode), s.params.arch = .v6 → spsrOf s.spsr s.mode = some saved →
      wordAligned (pairAddress am (s.phys (stackReg m))) = true →
      (s.secureViolation (pairAddress am (s.phys (stackReg m))).toNat 4 = true
        ∨ (Claims.permitted s (pairAddress am (s.phys (stackReg m))) ∧ Claims.notText s (pairAddress am (s.phys (stackReg m)))
          ∧ s.secureViolation (pairAddress am (s.phys (stackReg m)) + 4#32).toNat 4 = true)) →
      exec (.srs am wb m.bits) s = .next (takeException .dataAbort s))
    ∧ (∀ v : Word, s.params.arch = .v6 → s.privileged = true → rn ≠ 15 → wordAligned (pairAddress am (s.reg rn)) = true →
      (s.secureViolation (pairAddress am (s.reg rn)).toNat 4 = true
        ∨ (Claims.permitted s (pairAddress am (s.reg rn)) ∧ Claims.holdsWord s.bigEndian s.mem (pairAddress am (s.reg rn)) v
          ∧ s.secureViolation (pairAddress am (s.reg rn) + 4#32).toNat 4 = true)) →
      exec (.rfe am wb rn) s = .next (takeException .dataAbort s))
    ∧ ((Mode.ofBits (psrMode s.cpsr)).isSome = true → (environmentTurn s).pendingException = none → s.armState = true →
      wordAligned s.pc = true → s.secureViolation s.pc.toNat 4 = true →
      step s = .next (takeException .prefetchAbort (environmentTurn s)))

/-- SRSDB #mode! and RFEIA r13! are a matched pair (R143, R144, R304): pushed onto the stack of the current exception mode, the link register and
the SPSR come back as the pc and the status register, and the stack pointer is where it was (secure monitor mode on a part without
TrustZone and a pair across the top of the address space included, logs 27, 35, 41). -/
def Obligations.SaveThenReturn : Prop :=
  ∀ (s : State) (saved : Word) (m : Mode), s.params.arch = .v6 → Mode.ofBits (psrMode s.cpsr) = some m →
    spsrOf s.spsr m = some saved → (Mode.ofBits (psrMode saved)).isSome = true →
    (psrT saved = false → wordAligned (s.reg 14) = true) → wordAligned (s.reg 13) = true →
    Claims.permitted s (s.reg 13 - 8#32) → Claims.permitted s (s.reg 13 - 8#32 + 4#32) →
    Claims.notText s (s.reg 13 - 8#32) → Claims.notText s (s.reg 13 - 8#32 + 4#32) → Claims.hasRoom s →
    ∃ t u, exec (.srs .db true m.bits) s = .next t ∧ t.reg 13 = s.reg 13 - 8#32 ∧ exec (.rfe .ia true 13) t = .next u
      ∧ u.pc = s.reg 14 ∧ u.cpsr = saved ∧ ∀ p, u.phys p = s.phys p

/-! ## Memory -/

/-- The memory primitives and their byte order (R63; R61's choice of the order; the refusal of a wrapping access is D29's), with R70's
check of every byte of the access (the model's reading, log 25) and R77's; a read of a byte that nothing has written faults with the
lowest such address (U1, log 7). -/
def Obligations.MemoryAccessesFollowTheByteOrder : Prop :=
  ∀ (s : State) (a v : Word) (n : Nat), n = 1 ∨ n = 2 ∨ n = 4 →
    (s.bigEndian = if s.params.arch = .v6 then s.cpsr.getLsbD 9 else s.params.resetE)
    ∧ (memRead s a n = .ok v → v.toNat < 2 ^ (8 * n)
      ∧ ∀ k, k < n → readByte s.mem (a.toNat + k) = some (v.extractLsb' (8 * (if s.bigEndian then n - 1 - k else k)) 8))
    ∧ (a.toNat + n ≤ 2 ^ 32 → s.secureViolation a.toNat n = false →
      (∀ k, k < n → (readByte s.mem (a.toNat + k)).isSome = true) → ∃ r, memRead s a n = .ok r)
    ∧ (a.toNat + n ≤ 2 ^ 32 → s.secureViolation a.toNat n = false → rangeInRegions s.params.programText a.toNat n = false →
      ∃ t, memWrite s a n v = .ok t ∧ t = { s with mem := t.mem } ∧ Claims.sameMemoryBut s t a.toNat n
        ∧ (memoryWf s.mem → memoryWf t.mem)
        ∧ (∀ k, k < n → readByte t.mem (a.toNat + k)
          = some (v.extractLsb' (8 * (if s.bigEndian then n - 1 - k else k)) 8))
        ∧ memRead t a n = .ok ((v.extractLsb' 0 (8 * n)).setWidth 32))
    ∧ (∀ k, k < n → a.toNat + n ≤ 2 ^ 32 → s.secureViolation a.toNat n = false → readByte s.mem (a.toNat + k) = none →
      (∀ j, j < k → (readByte s.mem (a.toNat + j)).isSome = true) → memRead s a n = .fault (.unwrittenMemory (a.toNat + k)))
    ∧ (2 ^ 32 < a.toNat + n → memRead s a n = .refused .addressWrap ∧ memWrite s a n v = .refused .addressWrap)
    ∧ (a.toNat + n ≤ 2 ^ 32 → s.secureViolation a.toNat n = true → memRead s a n = .abort ∧ memWrite s a n v = .abort)

/-- A store to an address that holds program text is refused (R77): SWP, STREX and SRS. -/
def Obligations.StoreToProgramTextIsRefused : Prop :=
  ∀ (s : State) (c : Cond) (rd rn rm : Reg) (am : AddrMode) (wb : Bool),
    (∀ old : Word, conditionPassed c s.cpsr = true → rd ≠ 15 → rm ≠ 15 → rn ≠ 15 → rn ≠ rd → rn ≠ rm →
      wordAligned (s.reg rn) = true → Claims.permitted s (s.reg rn) → Claims.holdsWord s.bigEndian s.mem (s.reg rn) old →
      ¬ Claims.notText s (s.reg rn) → exec (.swp c rd rm rn) s = .refused .storeToCode)
    ∧ (Claims.selected .v6 c s → rd ≠ 15 → rm ≠ 15 → rn ≠ 15 → rd ≠ rm → rd ≠ rn → wordAligned (s.reg rn) = true →
      s.reserved (s.reg rn) = true → Claims.permitted s (s.reg rn) → ¬ Claims.notText s (s.reg rn) →
      exec (.strex c rd rm rn) s = .refused .storeToCode)
    ∧ (∀ (saved : Word) (m : Mode), s.params.arch = .v6 → spsrOf s.spsr s.mode = some saved →
      wordAligned (pairAddress am (s.phys (stackReg m))) = true → Claims.permitted s (pairAddress am (s.phys (stackReg m))) →
      Claims.permitted s (pairAddress am (s.phys (stackReg m)) + 4#32) →
      ¬ (Claims.notText s (pairAddress am (s.phys (stackReg m)))
        ∧ Claims.notText s (pairAddress am (s.phys (stackReg m)) + 4#32)) →
      exec (.srs am wb m.bits) s = .refused .storeToCode)

/-- SWP, LDREX, STREX, SRS and RFE at an address that is not word-aligned are refused (R66). -/
def Obligations.UnalignedSemaphoreAccessIsRefused : Prop :=
  ∀ (s : State) (c : Cond) (rd rn rm : Reg) (am : AddrMode) (wb : Bool),
    (conditionPassed c s.cpsr = true → rd ≠ 15 → rm ≠ 15 → rn ≠ 15 → rn ≠ rd → rn ≠ rm →
      (s.reg rn).toNat % 4 ≠ 0 → exec (.swp c rd rm rn) s = .refused .unalignedSemaphore)
    ∧ (Claims.selected .v6 c s → rd ≠ 15 → rn ≠ 15 → (s.reg rn).toNat % 4 ≠ 0 →
      exec (.ldrex c rd rn) s = .refused .unalignedSemaphore)
    ∧ (Claims.selected .v6 c s → rd ≠ 15 → rm ≠ 15 → rn ≠ 15 → rd ≠ rm → rd ≠ rn → (s.reg rn).toNat % 4 ≠ 0 →
      exec (.strex c rd rm rn) s = .refused .unalignedSemaphore)
    ∧ (∀ (saved : Word) (m : Mode), s.params.arch = .v6 → spsrOf s.spsr s.mode = some saved →
      (s.phys (stackReg m)).toNat % 4 ≠ 0 → exec (.srs am wb m.bits) s = .refused .unalignedSemaphore)
    ∧ (s.params.arch = .v6 → s.privileged = true → rn ≠ 15 → (s.reg rn).toNat % 4 ≠ 0 →
      exec (.rfe am wb rn) s = .refused .unalignedSemaphore)

/-- Addresses that wrap (D29, log 26): at 0xFFFFFFFC an instruction answers a next state only if it is a branch or takes one of the
exceptions that R301 lists for it; PLD and every instruction with a failed condition are refused where they would go on, and an LDR
whose four bytes pass 0xFFFFFFFF is refused. -/
def Obligations.WrappingPastTheTopIsRefused : Prop :=
  (∀ (i : Instr) (s t : State), 2 ^ 32 ≤ s.pc.toNat + 4 → exec i s = .next t →
      (match i with | .blxReg .. | .blxLabel .. | .b .. | .bxj .. | .rfe .. => True | _ => False)
      ∨ ∃ e ∈ Claims.raises i, t = takeException e s)
    ∧ (∀ (s : State) (iBit u : Bool) (rn : Reg) (am : BitVec 12), 2 ^ 32 ≤ s.pc.toNat + 4 →
      exec (.pld iBit u rn am) s = .refused .sequentialWrap)
    ∧ (∀ (i : Instr) (c : Cond) (s : State), Claims.condition i = some c →
      Arch.rank (Claims.level i) ≤ Arch.rank s.params.arch → (∀ c' imm, i = .smi c' imm → s.params.hasTrustZone = true) →
      conditionPassed c s.cpsr = false → 2 ^ 32 ≤ s.pc.toNat + 4 → exec i s = .refused .sequentialWrap)
    ∧ (∀ (s : State) (c : Cond) (add : Bool) (rd rn : Reg) (imm12 : BitVec 12), conditionPassed c s.cpsr = true → rd ≠ 15 →
      rn ≠ 15 → rd ≠ rn → s.params.arch = .v6 → 2 ^ 32 < (s.reg rn).toNat + 4 →
      exec (.ldrPost c add rd rn imm12) s = .refused .addressWrap)

/-! ## The v5 extensions -/

/-- BLX label (R120, R100) always executes, links, sets T, and goes to the address of R100; B (R282) goes, when its condition passes, to pc + 8 plus
four times its signed offset, a multiple of 4 from an aligned pc. -/
def Obligations.RelativeBranches : Prop :=
  (∀ (s : State) (hBit : Bool) (imm24 : BitVec 24), ∃ t, exec (.blxLabel hBit imm24) s = .next t
      ∧ t.pc = BitVec.ofInt 32 (s.pc.toNat + 8 + 4 * imm24.toInt + if hBit then 2 else 0)
      ∧ t.reg 14 = s.pc + 4#32 ∧ t.cpsr.getLsbD 5 = true ∧ Claims.frame s t [14] [5])
    ∧ ∀ (s : State) (c : Cond) (imm24 : BitVec 24),
      (conditionPassed c s.cpsr = true → ∃ t, exec (.b c imm24) s = .next t
        ∧ t.pc = BitVec.ofInt 32 (s.pc.toNat + 8 + 4 * imm24.toInt) ∧ (s.pc.toNat % 4 = 0 → t.pc.toNat % 4 = 0)
        ∧ Claims.frame s t [] [])
      ∧ (conditionPassed c s.cpsr = false → Claims.hasRoom s →
        ∃ t, exec (.b c imm24) s = .next t ∧ Claims.onlyWrites s t [] [])

/-- BLX Rm (R121): the target is read before the link is written, bit 0 goes to T; a target with bits 1:0 = 10 is refused (R75), and
so is Rm = 15. -/
def Obligations.BlxRegister : Prop :=
  ∀ (s : State) (c : Cond) (rm : Reg), conditionPassed c s.cpsr = true →
    (rm ≠ 15 → (s.reg rm).getLsbD 0 = true ∨ (s.reg rm).getLsbD 1 = false →
      ∃ t, exec (.blxReg c rm) s = .next t ∧ t.pc = (s.reg rm &&& 0xFFFFFFFE#32) ∧ t.reg 14 = s.pc + 4#32
        ∧ t.cpsr.getLsbD 5 = (s.reg rm).getLsbD 0 ∧ Claims.frame s t [14] [5])
    ∧ (rm ≠ 15 → (s.reg rm).getLsbD 0 = false → (s.reg rm).getLsbD 1 = true →
      exec (.blxReg c rm) s = .refused .misalignedArmTarget)
    ∧ (rm = 15 → exec (.blxReg c rm) s = .refused .registerFifteen)

/-- CLZ (R122): the number of zeros above the highest set bit, 32 for zero. -/
def Obligations.ClzCountsLeadingZeros : Prop :=
  ∀ (c : Cond) (rd rm : Reg),
    (∀ s : State, Claims.runs .v5 c [rd, rm] s → ∃ t n, exec (.clz c rd rm) s = .next t ∧ Claims.onlyWrites s t [rd] []
      ∧ n ≤ 32 ∧ (t.reg rd).toNat = n ∧ (∀ k, k < n → (s.reg rm).getLsbD (31 - k) = false)
      ∧ (n < 32 → (s.reg rm).getLsbD (31 - n) = true))
    ∧ Claims.refusesFifteen .v5 c [rd, rm] (.clz c rd rm)

/-- PLD (R124): nothing but the next pc, whatever the base register and the address (that register 15 as its base is not refused is
the model's reading of R21 with R124, log 19). -/
def Obligations.PldHasNoEffect : Prop :=
  ∀ (s : State) (iBit u : Bool) (rn : Reg) (am : BitVec 12), Claims.hasRoom s →
    exec (.pld iBit u rn am) s = .next { s with pc := s.pc + 4#32 }

/-- CDP2 and MRC2 are refused: no coprocessor is specified (R125, R126). -/
def Obligations.CoprocessorInstructionsAreRefused : Prop :=
  ∀ (s : State) (o1 crn crd cp crm : BitVec 4) (m1 o2 : BitVec 3) (rd : Reg),
    exec (.cdp2 o1 crn crd cp o2 crm) s = .refused .coprocessorNotSpecified
    ∧ exec (.mrc2 m1 crn rd cp o2 crm) s = .refused .coprocessorNotSpecified

/-! ## v6 control, semaphores, byte reversal, packing -/

/-- UMAAL (R140): RdHi:RdLo is the product plus the two addends, exactly. -/
def Obligations.UmaalIsExact : Prop :=
  ∀ (c : Cond) (rdLo rdHi rm rs : Reg),
    (∀ s : State, Claims.runs .v6 c [rdLo, rdHi, rm, rs] s → rdLo ≠ rdHi →
      ∃ t, exec (.umaal c rdLo rdHi rm rs) s = .next t ∧ Claims.onlyWrites s t [rdLo, rdHi] []
        ∧ (t.reg rdHi).toNat * 2 ^ 32 + (t.reg rdLo).toNat
          = (s.reg rm).toNat * (s.reg rs).toNat + (s.reg rdLo).toNat + (s.reg rdHi).toNat)
    ∧ (∀ s : State, Claims.selected .v6 c s → (15 : Reg) ∉ [rdLo, rdHi, rm, rs] → rdLo = rdHi →
      exec (.umaal c rdLo rdHi rm rs) s = .refused .registerCombination)
    ∧ Claims.refusesFifteen .v6 c [rdLo, rdHi, rm, rs] (.umaal c rdLo rdHi rm rs)

/-- CPS (R141): in a privileged mode it changes the named mask bits and the mode, and secure monitor mode and numbers outside R34's table
are refused; in user mode it does nothing, whatever mode it names (that R141's refusals are then not made is the model's choice,
log 42). -/
def Obligations.CpsChangesMasksAndMode : Prop :=
  ∀ (s : State) (change : MaskChange) (mode : Option (BitVec 5)), s.params.arch = .v6 →
    (s.cpsr.extractLsb' 0 5 ≠ 0b10000#5 → Claims.hasRoom s →
      (∀ n, mode = some n → (Mode.ofBits n).isSome = true ∧ n ≠ 0b10110#5) →
      ∃ t, exec (.cps change mode) s = .next t ∧ Claims.onlyWrites s t [] [8, 7, 6, 4, 3, 2, 1, 0]
        ∧ t.cpsr.getLsbD 8 = Claims.maskAfter change (fun a _ _ => a) (s.cpsr.getLsbD 8)
        ∧ t.cpsr.getLsbD 7 = Claims.maskAfter change (fun _ i _ => i) (s.cpsr.getLsbD 7)
        ∧ t.cpsr.getLsbD 6 = Claims.maskAfter change (fun _ _ f => f) (s.cpsr.getLsbD 6)
        ∧ t.cpsr.extractLsb' 0 5 = mode.getD (s.cpsr.extractLsb' 0 5))
    ∧ (s.cpsr.extractLsb' 0 5 = 0b10000#5 → Claims.hasRoom s → exec (.cps change mode) s = .next { s with pc := s.pc + 4#32 })
    ∧ (s.cpsr.extractLsb' 0 5 ≠ 0b10000#5 → mode = some 0b10110#5 → exec (.cps change mode) s = .refused .cpsToMonitor)
    ∧ (s.cpsr.extractLsb' 0 5 ≠ 0b10000#5 → ∀ n, mode = some n → Mode.ofBits n = none →
      exec (.cps change mode) s = .refused .illegalMode)

/-- SETEND (R142): E is written, in every mode, the next data access follows it, and an instruction fetch at any address gives what it
gave before. -/
def Obligations.SetendWritesE : Prop :=
  ∀ (s : State) (big : Bool), s.params.arch = .v6 → Claims.hasRoom s →
    ∃ t, exec (.setend big) s = .next t ∧ Claims.onlyWrites s t [] [9] ∧ t.cpsr.getLsbD 9 = big ∧ t.bigEndian = big
      ∧ ∀ a : Word, fetchWord { t with pc := a } = fetchWord { s with pc := a }

/-- SRS (R143): LR and SPSR of the current mode are stored at the two words of the addressing form on the stack of the named mode, whose
stack pointer is written back on request; user and system mode, a mode number outside R34's table and an unaligned address are
refused, and either write can take a Data Abort. That the named mode may be user or system, and that another number is refused there, is
the model's reading (log 35), and so are a pair of words across the top of the address space (log 27) and secure monitor mode on a part
without TrustZone (log 41). -/
def Obligations.SrsSavesTheReturnState : Prop :=
  (∀ base : Word, pairAddress .ia base = base ∧ pairBase .ia base = base + 8#32 ∧ pairAddress .ib base = base + 4#32
      ∧ pairBase .ib base = base + 8#32 ∧ pairAddress .da base = base - 4#32 ∧ pairBase .da base = base - 8#32
      ∧ pairAddress .db base = base - 8#32 ∧ pairBase .db base = base - 8#32)
    ∧ (∀ (s : State) (am : AddrMode) (wb : Bool) (saved a : Word) (m : Mode), s.params.arch = .v6 →
      spsrOf s.spsr s.mode = some saved → a = pairAddress am (s.phys (stackReg m)) → wordAligned a = true →
      Claims.permitted s a → Claims.permitted s (a + 4#32) → Claims.notText s a → Claims.notText s (a + 4#32) →
      Claims.hasRoom s →
      ∃ t, exec (.srs am wb m.bits) s = .next t ∧ Claims.holdsWord s.bigEndian t.mem a (s.reg 14)
        ∧ Claims.holdsWord s.bigEndian t.mem (a + 4#32) saved
        ∧ (∀ x : Nat, (x < a.toNat ∨ a.toNat + 4 ≤ x) → (x < (a + 4#32).toNat ∨ (a + 4#32).toNat + 4 ≤ x) →
          readByte t.mem x = readByte s.mem x)
        ∧ (∀ p, t.phys p = if wb = true ∧ p = stackReg m then pairBase am (s.phys (stackReg m)) else s.phys p)
        ∧ t.pc = s.pc + 4#32 ∧ t.cpsr = s.cpsr ∧ t.reservation = s.reservation ∧ Claims.sameSystem s t
        ∧ t.freeCount = s.freeCount)
    ∧ (∀ (s : State) (am : AddrMode) (wb : Bool) (mode : BitVec 5), s.params.arch = .v6 → s.mode = .user ∨ s.mode = .system →
      exec (.srs am wb mode) s = .refused .noSpsr)
    ∧ (∀ (s : State) (am : AddrMode) (wb : Bool) (mode : BitVec 5), s.params.arch = .v6 →
      (spsrOf s.spsr s.mode).isSome = true → Mode.ofBits mode = none → exec (.srs am wb mode) s = .refused .illegalMode)
    ∧ (∀ (s : State) (am : AddrMode) (wb : Bool) (saved a : Word) (m : Mode), s.params.arch = .v6 →
      spsrOf s.spsr s.mode = some saved → a = pairAddress am (s.phys (stackReg m)) →
      (a.toNat % 4 ≠ 0 → exec (.srs am wb m.bits) s = .refused .unalignedSemaphore)
      ∧ (wordAligned a = true → s.secureViolation a.toNat 4 = true ∨ (Claims.permitted s a ∧ Claims.notText s a
          ∧ s.secureViolation (a + 4#32).toNat 4 = true) →
        exec (.srs am wb m.bits) s = .next (takeException .dataAbort s)))

/-- RFE (R144): the pc and the whole status register are loaded from the two words of the addressing form, the base is written back on
request in the mode the instruction runs in; user mode, an unaligned address, a loaded mode outside R34's table and, with a loaded
T = 0, an unaligned pc are refused, and either read can take a Data Abort. That secure monitor mode may be loaded (log 35), also on a part
without TrustZone (log 41), and a pair of words across the top of the address space (log 27), are the model's readings. -/
def Obligations.RfeReturns : Prop :=
  ∀ (s : State) (am : AddrMode) (wb : Bool) (rn : Reg) (a newPc newCpsr : Word), s.params.arch = .v6 → rn ≠ 15 →
    a = pairAddress am (s.reg rn) →
    (s.cpsr.extractLsb' 0 5 ≠ 0b10000#5 → wordAligned a = true → Claims.permitted s a → Claims.permitted s (a + 4#32) →
      Claims.holdsWord s.bigEndian s.mem a newPc → Claims.holdsWord s.bigEndian s.mem (a + 4#32) newCpsr →
      ((Mode.ofBits (newCpsr.extractLsb' 0 5)).isSome = true →
        (newCpsr.getLsbD 5 = true ∨ newPc.toNat % 4 = 0) →
        ∃ t, exec (.rfe am wb rn) s = .next t ∧ t.pc = newPc ∧ t.cpsr = newCpsr
          ∧ (∀ p, t.phys p = if wb = true ∧ bankedReg s.mode rn = some p then pairBase am (s.reg rn) else s.phys p)
          ∧ Claims.sameMemory s t ∧ t.reservation = s.reservation ∧ Claims.sameSystem s t ∧ t.freeCount = s.freeCount)
      ∧ (Mode.ofBits (newCpsr.extractLsb' 0 5) = none → exec (.rfe am wb rn) s = .refused .illegalMode)
      ∧ ((Mode.ofBits (newCpsr.extractLsb' 0 5)).isSome = true → newCpsr.getLsbD 5 = false →
        newPc.toNat % 4 ≠ 0 → exec (.rfe am wb rn) s = .refused .misalignedArmTarget))
    ∧ (s.cpsr.extractLsb' 0 5 ≠ 0b10000#5 → a.toNat % 4 ≠ 0 → exec (.rfe am wb rn) s = .refused .unalignedSemaphore)
    ∧ (s.cpsr.extractLsb' 0 5 ≠ 0b10000#5 → wordAligned a = true →
      s.secureViolation a.toNat 4 = true ∨ (Claims.permitted s a ∧ Claims.holdsWord s.bigEndian s.mem a newPc
        ∧ s.secureViolation (a + 4#32).toNat 4 = true) → exec (.rfe am wb rn) s = .next (takeException .dataAbort s))
    ∧ (s.cpsr.extractLsb' 0 5 = 0b10000#5 → exec (.rfe am wb rn) s = .refused .rfeInUserMode)

/-- SWP (R145): in one step the word at Rn goes to Rd and Rm's old value to the word; Rn = Rd, Rn = Rm and an unaligned address are refused, and
an access that R70 rejects is a Data Abort with no other effect. -/
def Obligations.SwpExchanges : Prop :=
  ∀ (c : Cond) (rd rm rn : Reg),
    (∀ (s : State) (a old : Word), Claims.runs .v5 c [rd, rm, rn] s → rn ≠ rd → rn ≠ rm → a = s.reg rn →
      wordAligned a = true → Claims.permitted s a → Claims.notText s a → Claims.holdsWord s.bigEndian s.mem a old →
      ∃ t, exec (.swp c rd rm rn) s = .next t ∧ t.reg rd = old ∧ Claims.holdsWord s.bigEndian t.mem a (s.reg rm)
        ∧ Claims.sameMemoryBut s t a.toNat 4 ∧ Claims.sameRegsBut s t [rd] ∧ t.pc = s.pc + 4#32 ∧ t.cpsr = s.cpsr
        ∧ t.reservation = s.reservation ∧ Claims.sameSystem s t ∧ t.freeCount = s.freeCount)
    ∧ (∀ s : State, Claims.selected .v5 c s → (15 : Reg) ∉ [rd, rm, rn] → rn = rd ∨ rn = rm →
      exec (.swp c rd rm rn) s = .refused .registerCombination)
    ∧ (∀ s : State, Claims.selected .v5 c s → (15 : Reg) ∉ [rd, rm, rn] → rn ≠ rd → rn ≠ rm →
      ((s.reg rn).toNat % 4 ≠ 0 → exec (.swp c rd rm rn) s = .refused .unalignedSemaphore)
      ∧ (wordAligned (s.reg rn) = true → s.secureViolation (s.reg rn).toNat 4 = true →
        exec (.swp c rd rm rn) s = .next (takeException .dataAbort s)))
    ∧ Claims.refusesFifteen .v5 c [rd, rm, rn] (.swp c rd rm rn)

/-- LDREX (R146): the word at Rn goes to Rd and the reservation holds the address; an unaligned address is refused, and a Data Abort leaves the
reservation unchanged. -/
def Obligations.LdrexReserves : Prop :=
  ∀ (c : Cond) (rd rn : Reg),
    (∀ (s : State) (a v : Word), Claims.runs .v6 c [rd, rn] s → a = s.reg rn → wordAligned a = true → Claims.permitted s a →
      Claims.holdsWord s.bigEndian s.mem a v →
      ∃ t, exec (.ldrex c rd rn) s = .next t ∧ t.reg rd = v ∧ t.reservation = some a ∧ Claims.sameRegsBut s t [rd]
        ∧ t.pc = s.pc + 4#32 ∧ t.cpsr = s.cpsr ∧ Claims.sameMemory s t ∧ Claims.sameSystem s t ∧ t.freeCount = s.freeCount)
    ∧ (∀ s : State, Claims.selected .v6 c s → (15 : Reg) ∉ [rd, rn] →
      ((s.reg rn).toNat % 4 ≠ 0 → exec (.ldrex c rd rn) s = .refused .unalignedSemaphore)
      ∧ (wordAligned (s.reg rn) = true → s.secureViolation (s.reg rn).toNat 4 = true →
        exec (.ldrex c rd rn) s = .next (takeException .dataAbort s)))
    ∧ Claims.refusesFifteen .v6 c [rd, rn] (.ldrex c rd rn)

/-- STREX (R147): with a reservation of the same granule it stores Rm and answers 0, otherwise it answers 1 and stores nothing; the reservation
ends either way. Where another agent has just written a byte of the word it answers 1 and stores nothing. Rd = Rm, Rd = Rn and an
unaligned address are refused; a store that R70 rejects is a Data Abort. -/
def Obligations.StrexStoresOrFails : Prop :=
  ∀ (c : Cond) (rd rm rn : Reg),
    (∀ (s : State) (a : Word), Claims.runs .v6 c [rd, rm, rn] s → rd ≠ rm → rd ≠ rn → a = s.reg rn → wordAligned a = true →
      (∀ a' : Word, s.reservation = some a' → a'.toNat / 2 ^ s.params.ergLog2 = a.toNat / 2 ^ s.params.ergLog2 →
        Claims.permitted s a → Claims.notText s a →
        ∃ t, exec (.strex c rd rm rn) s = .next t ∧ t.reg rd = 0#32 ∧ Claims.holdsWord s.bigEndian t.mem a (s.reg rm)
          ∧ Claims.sameMemoryBut s t a.toNat 4 ∧ t.reservation = none ∧ Claims.sameRegsBut s t [rd] ∧ t.pc = s.pc + 4#32
          ∧ t.cpsr = s.cpsr ∧ Claims.sameSystem s t ∧ t.freeCount = s.freeCount)
      ∧ ((∀ a' : Word, s.reservation = some a' → a'.toNat / 2 ^ s.params.ergLog2 ≠ a.toNat / 2 ^ s.params.ergLog2) →
        ∃ t, exec (.strex c rd rm rn) s = .next t ∧ t.reg rd = 1#32 ∧ Claims.sameMemory s t ∧ t.reservation = none
          ∧ Claims.sameRegsBut s t [rd] ∧ t.pc = s.pc + 4#32 ∧ t.cpsr = s.cpsr ∧ Claims.sameSystem s t
          ∧ t.freeCount = s.freeCount))
    ∧ (∀ (s u : State) (x : Word) (v : Byte), Claims.runs .v6 c [rd, rm, rn] s → rd ≠ rm → rd ≠ rn →
      wordAligned (s.reg rn) = true → s.params.wf = true → (s.reg rn).toNat ≤ x.toNat → x.toNat < (s.reg rn).toNat + 4 →
      u = envAct s (.writeByte x v) →
      ∃ t, exec (.strex c rd rm rn) u = .next t ∧ t.reg rd = 1#32 ∧ Claims.sameMemory u t ∧ t.reservation = none
        ∧ Claims.sameRegsBut u t [rd] ∧ t.pc = u.pc + 4#32 ∧ t.cpsr = u.cpsr ∧ Claims.sameSystem u t
        ∧ t.freeCount = u.freeCount)
    ∧ (∀ s : State, Claims.selected .v6 c s → (15 : Reg) ∉ [rd, rm, rn] → rd = rm ∨ rd = rn →
      exec (.strex c rd rm rn) s = .refused .registerCombination)
    ∧ (∀ s : State, Claims.selected .v6 c s → (15 : Reg) ∉ [rd, rm, rn] → rd ≠ rm → rd ≠ rn →
      ((s.reg rn).toNat % 4 ≠ 0 → exec (.strex c rd rm rn) s = .refused .unalignedSemaphore)
      ∧ (∀ a' : Word, s.reservation = some a' → a'.toNat / 2 ^ s.params.ergLog2 = (s.reg rn).toNat / 2 ^ s.params.ergLog2 →
        wordAligned (s.reg rn) = true → s.secureViolation (s.reg rn).toNat 4 = true →
        exec (.strex c rd rm rn) s = .next (takeException .dataAbort s)))
    ∧ Claims.refusesFifteen .v6 c [rd, rm, rn] (.strex c rd rm rn)

/-- REV, REV16 and REVSH (R148 to R150), byte by byte; REV twice gives the original. -/
def Obligations.ByteReversal : Prop :=
  ∀ (c : Cond) (rd rm : Reg),
    (∀ s : State, Claims.runs .v6 c [rd, rm] s →
      (∃ t, exec (.rev c rd rm) s = .next t ∧ Claims.onlyWrites s t [rd] []
        ∧ (∀ k, k < 4 → Claims.b (t.reg rd) k = Claims.b (s.reg rm) (3 - k))
        ∧ (Claims.hasRoom t → ∃ u, exec (.rev c rd rd) t = .next u ∧ u.reg rd = s.reg rm))
      ∧ (∃ t, exec (.rev16 c rd rm) s = .next t ∧ Claims.onlyWrites s t [rd] []
        ∧ Claims.b (t.reg rd) 0 = Claims.b (s.reg rm) 1 ∧ Claims.b (t.reg rd) 1 = Claims.b (s.reg rm) 0
        ∧ Claims.b (t.reg rd) 2 = Claims.b (s.reg rm) 3 ∧ Claims.b (t.reg rd) 3 = Claims.b (s.reg rm) 2)
      ∧ (∃ t, exec (.revsh c rd rm) s = .next t ∧ Claims.onlyWrites s t [rd] []
        ∧ (t.reg rd).toInt = (Claims.b (s.reg rm) 0 ++ Claims.b (s.reg rm) 1 : BitVec 16).toInt))
    ∧ Claims.refusesFifteen .v6 c [rd, rm] (.rev c rd rm) ∧ Claims.refusesFifteen .v6 c [rd, rm] (.rev16 c rd rm)
    ∧ Claims.refusesFifteen .v6 c [rd, rm] (.revsh c rd rm)

/-- PKHBT and PKHTB (R151, R152): one half of Rn and one half of the shifted Rm, for every shift the operand admits (which half comes from
where is the spec's inference from its S24 example). -/
def Obligations.PackHalfwords : Prop :=
  ∀ (c : Cond) (rd rn rm : Reg) (sh : Nat),
    (∀ s : State, Claims.runs .v6 c [rd, rn, rm] s →
      (sh < 32 → ∃ t, exec (.pkhbt c rd rn rm sh) s = .next t ∧ Claims.onlyWrites s t [rd] []
        ∧ Claims.h (t.reg rd) 0 = Claims.h (s.reg rn) 0
        ∧ (Claims.h (t.reg rd) 1).toNat = (s.reg rm).toNat * 2 ^ sh / 2 ^ 16 % 2 ^ 16)
      ∧ (1 ≤ sh → sh ≤ 32 → ∃ t, exec (.pkhtb c rd rn rm sh) s = .next t ∧ Claims.onlyWrites s t [rd] []
        ∧ Claims.h (t.reg rd) 1 = Claims.h (s.reg rn) 1
        ∧ Claims.h (t.reg rd) 0 = BitVec.ofInt 16 ((s.reg rm).toInt / ((2 ^ sh : Nat) : Int))))
    ∧ Claims.refusesFifteen .v6 c [rd, rn, rm] (.pkhbt c rd rn rm sh)
    ∧ Claims.refusesFifteen .v6 c [rd, rn, rm] (.pkhtb c rd rn rm sh)

/-! ## v5TE signal processing -/

/-- SMLAWy and SMULWy (R172, R173): the top 32 bits of the 48-bit product, exact for SMULWy; SMLAWy adds Rn, wraps, and sets Q when the sum does
not fit. -/
def Obligations.WordByHalfwordMultiplies : Prop :=
  ∀ (c : Cond) (y : HalfSel) (rd rm rs rn : Reg),
    (∀ (s : State) (r : Int), Claims.runs .v5TE c [rd, rm, rs, rn] s →
      r = (s.reg rm).toInt * Claims.half (s.reg rs) y / 65536 + (s.reg rn).toInt →
      ∃ t, exec (.smlaw c y rd rm rs rn) s = .next t ∧ Claims.onlyWrites s t [rd] [27] ∧ t.reg rd = BitVec.ofInt 32 r
        ∧ Claims.stickyQ s t (Claims.outside32 r))
    ∧ (∀ s : State, Claims.runs .v5TE c [rd, rm, rs] s → ∃ t, exec (.smulw c y rd rm rs) s = .next t
        ∧ Claims.onlyWrites s t [rd] [] ∧ (t.reg rd).toInt = (s.reg rm).toInt * Claims.half (s.reg rs) y / 65536)
    ∧ Claims.refusesFifteen .v5TE c [rd, rm, rs, rn] (.smlaw c y rd rm rs rn)
    ∧ Claims.refusesFifteen .v5TE c [rd, rm, rs] (.smulw c y rd rm rs)

/-- SMULxy and SMLALxy (R175, R174): the product of two signed halves, exact in 32 bits, and added to RdHi:RdLo modulo 2^64; RdLo = RdHi is
refused. -/
def Obligations.HalfwordMultiplies : Prop :=
  ∀ (c : Cond) (x y : HalfSel) (rd rdLo rdHi rm rs : Reg),
    (∀ s : State, Claims.runs .v5TE c [rd, rm, rs] s → ∃ t, exec (.smul c x y rd rm rs) s = .next t
        ∧ Claims.onlyWrites s t [rd] [] ∧ (t.reg rd).toInt = Claims.half (s.reg rm) x * Claims.half (s.reg rs) y)
    ∧ (∀ s : State, Claims.runs .v5TE c [rdLo, rdHi, rm, rs] s → rdLo ≠ rdHi →
      ∃ t, exec (.smlal c x y rdLo rdHi rm rs) s = .next t ∧ Claims.onlyWrites s t [rdLo, rdHi] []
        ∧ (t.reg rdHi ++ t.reg rdLo : BitVec 64)
          = (s.reg rdHi ++ s.reg rdLo : BitVec 64) + BitVec.ofInt 64 (Claims.half (s.reg rm) x * Claims.half (s.reg rs) y))
    ∧ (∀ s : State, Claims.selected .v5TE c s → (15 : Reg) ∉ [rdLo, rdHi, rm, rs] → rdLo = rdHi →
      exec (.smlal c x y rdLo rdHi rm rs) s = .refused .registerCombination)
    ∧ Claims.refusesFifteen .v5TE c [rd, rm, rs] (.smul c x y rd rm rs)
    ∧ Claims.refusesFifteen .v5TE c [rdLo, rdHi, rm, rs] (.smlal c x y rdLo rdHi rm rs)

/-- QADD and QSUB (R176, R177): the exact sum or difference brought into the 32-bit range; Q when it was outside. -/
def Obligations.SaturatingAddSubtract : Prop :=
  ∀ (c : Cond) (rd rm rn : Reg),
    (∀ (s : State) (r : Int), Claims.runs .v5TE c [rd, rm, rn] s →
      (r = (s.reg rm).toInt + (s.reg rn).toInt → ∃ t, exec (.qadd c rd rm rn) s = .next t
        ∧ Claims.onlyWrites s t [rd] [27] ∧ (t.reg rd).toInt = Claims.sat true 32 r ∧ Claims.stickyQ s t (Claims.outside32 r))
      ∧ (r = (s.reg rm).toInt - (s.reg rn).toInt → ∃ t, exec (.qsub c rd rm rn) s = .next t
        ∧ Claims.onlyWrites s t [rd] [27] ∧ (t.reg rd).toInt = Claims.sat true 32 r ∧ Claims.stickyQ s t (Claims.outside32 r)))
    ∧ Claims.refusesFifteen .v5TE c [rd, rm, rn] (.qadd c rd rm rn)
    ∧ Claims.refusesFifteen .v5TE c [rd, rm, rn] (.qsub c rd rm rn)

/-- QDADD and QDSUB (R178, R179): Rn is doubled and brought into range, then added to or subtracted from Rm and brought into range; Q when
either step saturates (that Rn is the doubled operand is the spec's inference from the S16 program). -/
def Obligations.SaturatingDoubleAddSubtract : Prop :=
  ∀ (c : Cond) (rd rm rn : Reg),
    (∀ (s : State) (d r : Int), Claims.runs .v5TE c [rd, rm, rn] s → d = Claims.sat true 32 (2 * (s.reg rn).toInt) →
      (r = (s.reg rm).toInt + d → ∃ t, exec (.qdadd c rd rm rn) s = .next t ∧ Claims.onlyWrites s t [rd] [27]
        ∧ (t.reg rd).toInt = Claims.sat true 32 r
        ∧ Claims.stickyQ s t (Claims.outside32 (2 * (s.reg rn).toInt) ∨ Claims.outside32 r))
      ∧ (r = (s.reg rm).toInt - d → ∃ t, exec (.qdsub c rd rm rn) s = .next t ∧ Claims.onlyWrites s t [rd] [27]
        ∧ (t.reg rd).toInt = Claims.sat true 32 r
        ∧ Claims.stickyQ s t (Claims.outside32 (2 * (s.reg rn).toInt) ∨ Claims.outside32 r)))
    ∧ Claims.refusesFifteen .v5TE c [rd, rm, rn] (.qdadd c rd rm rn)
    ∧ Claims.refusesFifteen .v5TE c [rd, rm, rn] (.qdsub c rd rm rn)

/-! ## v6 SIMD -/

/-- UADD8, SADD8, USUB8, SSUB8 (R197, R198, R201, R202): wrapping byte lanes and their GE bits. -/
def Obligations.ByteLanesWrap : Prop :=
  ∀ (c : Cond) (rd rn rm : Reg) (s : State), Claims.runs .v6 c [rd, rn, rm] s →
    (∃ t, exec (.uadd8 c rd rn rm) s = .next t ∧ Claims.bytesWrap false (fun x y => x + y) 256 s t rd rn rm)
    ∧ (∃ t, exec (.sadd8 c rd rn rm) s = .next t ∧ Claims.bytesWrap true (fun x y => x + y) 0 s t rd rn rm)
    ∧ (∃ t, exec (.usub8 c rd rn rm) s = .next t ∧ Claims.bytesWrap false (fun x y => x - y) 0 s t rd rn rm)
    ∧ (∃ t, exec (.ssub8 c rd rn rm) s = .next t ∧ Claims.bytesWrap true (fun x y => x - y) 0 s t rd rn rm)

/-- UADD16, SADD16, USUB16, SSUB16 and the swapped forms (R205, R206, R209, R210, R213, R214, R217, R218): wrapping halfword lanes and their
GE bits. -/
def Obligations.HalfwordLanesWrap : Prop :=
  ∀ (c : Cond) (rd rn rm : Reg) (s : State), Claims.runs .v6 c [rd, rn, rm] s →
    (∃ t, exec (.uadd16 c rd rn rm) s = .next t
      ∧ Claims.halvesWrap false false (fun x y => x + y) (fun x y => x + y) 65536 65536 s t rd rn rm)
    ∧ (∃ t, exec (.sadd16 c rd rn rm) s = .next t
      ∧ Claims.halvesWrap true false (fun x y => x + y) (fun x y => x + y) 0 0 s t rd rn rm)
    ∧ (∃ t, exec (.usub16 c rd rn rm) s = .next t
      ∧ Claims.halvesWrap false false (fun x y => x - y) (fun x y => x - y) 0 0 s t rd rn rm)
    ∧ (∃ t, exec (.ssub16 c rd rn rm) s = .next t
      ∧ Claims.halvesWrap true false (fun x y => x - y) (fun x y => x - y) 0 0 s t rd rn rm)
    ∧ (∃ t, exec (.uaddsubx c rd rn rm) s = .next t
      ∧ Claims.halvesWrap false true (fun x y => x + y) (fun x y => x - y) 65536 0 s t rd rn rm)
    ∧ (∃ t, exec (.saddsubx c rd rn rm) s = .next t
      ∧ Claims.halvesWrap true true (fun x y => x + y) (fun x y => x - y) 0 0 s t rd rn rm)
    ∧ (∃ t, exec (.usubaddx c rd rn rm) s = .next t
      ∧ Claims.halvesWrap false true (fun x y => x - y) (fun x y => x + y) 0 65536 s t rd rn rm)
    ∧ (∃ t, exec (.ssubaddx c rd rn rm) s = .next t
      ∧ Claims.halvesWrap true true (fun x y => x - y) (fun x y => x + y) 0 0 s t rd rn rm)

/-- UQADD8, QADD8, UQSUB8, QSUB8 (R195, R196, R199, R200): saturating byte lanes, GE kept, Q by R193. -/
def Obligations.ByteLanesSaturate : Prop :=
  ∀ (c : Cond) (rd rn rm : Reg) (s : State), Claims.runs .v6 c [rd, rn, rm] s →
    (∃ t, exec (.uqadd8 c rd rn rm) s = .next t ∧ Claims.bytesSat false (fun x y => x + y) s t rd rn rm)
    ∧ (∃ t, exec (.qadd8 c rd rn rm) s = .next t ∧ Claims.bytesSat true (fun x y => x + y) s t rd rn rm)
    ∧ (∃ t, exec (.uqsub8 c rd rn rm) s = .next t ∧ Claims.bytesSat false (fun x y => x - y) s t rd rn rm)
    ∧ (∃ t, exec (.qsub8 c rd rn rm) s = .next t ∧ Claims.bytesSat true (fun x y => x - y) s t rd rn rm)

/-- UQADD16, QADD16, UQSUB16, QSUB16 and the swapped forms (R203, R204, R207, R208, R211, R212, R215, R216): saturating halfword lanes, GE
kept, Q by R193. -/
def Obligations.HalfwordLanesSaturate : Prop :=
  ∀ (c : Cond) (rd rn rm : Reg) (s : State), Claims.runs .v6 c [rd, rn, rm] s →
    (∃ t, exec (.uqadd16 c rd rn rm) s = .next t
      ∧ Claims.halvesSat false false (fun x y => x + y) (fun x y => x + y) s t rd rn rm)
    ∧ (∃ t, exec (.qadd16 c rd rn rm) s = .next t
      ∧ Claims.halvesSat true false (fun x y => x + y) (fun x y => x + y) s t rd rn rm)
    ∧ (∃ t, exec (.uqsub16 c rd rn rm) s = .next t
      ∧ Claims.halvesSat false false (fun x y => x - y) (fun x y => x - y) s t rd rn rm)
    ∧ (∃ t, exec (.qsub16 c rd rn rm) s = .next t
      ∧ Claims.halvesSat true false (fun x y => x - y) (fun x y => x - y) s t rd rn rm)
    ∧ (∃ t, exec (.uqaddsubx c rd rn rm) s = .next t
      ∧ Claims.halvesSat false true (fun x y => x + y) (fun x y => x - y) s t rd rn rm)
    ∧ (∃ t, exec (.qaddsubx c rd rn rm) s = .next t
      ∧ Claims.halvesSat true true (fun x y => x + y) (fun x y => x - y) s t rd rn rm)
    ∧ (∃ t, exec (.uqsubaddx c rd rn rm) s = .next t
      ∧ Claims.halvesSat false true (fun x y => x - y) (fun x y => x + y) s t rd rn rm)
    ∧ (∃ t, exec (.qsubaddx c rd rn rm) s = .next t
      ∧ Claims.halvesSat true true (fun x y => x - y) (fun x y => x + y) s t rd rn rm)

/-! ## v6 dual multiplies, extend, saturate, select, sum of absolute differences -/

/-- SMUAD, SMUSD, SMLAD, SMLSD, SMLALD and SMLSLD with and without X (R231 to R236): two signed products added or subtracted, SMUSD exact, SMUAD,
SMLAD and SMLSD wrapping with Q when the result does not fit, the long forms added to RdHi:RdLo modulo 2^64; RdLo = RdHi is refused. -/
def Obligations.DualMultiplies : Prop :=
  ∀ (x : Bool) (c : Cond) (rd rdLo rdHi rm rs rn : Reg),
    (∀ s : State, Claims.runs .v6 c [rd, rm, rs] s →
      (∃ t, exec (.smuad x c rd rm rs) s = .next t ∧ Claims.onlyWrites s t [rd] [27]
        ∧ t.reg rd = BitVec.ofInt 32 (Claims.p1 x (s.reg rm) (s.reg rs) + Claims.p2 x (s.reg rm) (s.reg rs))
        ∧ Claims.stickyQ s t (Claims.outside32 (Claims.p1 x (s.reg rm) (s.reg rs) + Claims.p2 x (s.reg rm) (s.reg rs))))
      ∧ (∃ t, exec (.smusd x c rd rm rs) s = .next t ∧ Claims.onlyWrites s t [rd] []
        ∧ (t.reg rd).toInt = Claims.p1 x (s.reg rm) (s.reg rs) - Claims.p2 x (s.reg rm) (s.reg rs)))
    ∧ (∀ (s : State) (r : Int), Claims.runs .v6 c [rd, rm, rs, rn] s →
      (r = (s.reg rn).toInt + Claims.p1 x (s.reg rm) (s.reg rs) + Claims.p2 x (s.reg rm) (s.reg rs) →
        ∃ t, exec (.smlad x c rd rm rs rn) s = .next t ∧ Claims.onlyWrites s t [rd] [27] ∧ t.reg rd = BitVec.ofInt 32 r
          ∧ Claims.stickyQ s t (Claims.outside32 r))
      ∧ (r = (s.reg rn).toInt + Claims.p1 x (s.reg rm) (s.reg rs) - Claims.p2 x (s.reg rm) (s.reg rs) →
        ∃ t, exec (.smlsd x c rd rm rs rn) s = .next t ∧ Claims.onlyWrites s t [rd] [27] ∧ t.reg rd = BitVec.ofInt 32 r
          ∧ Claims.stickyQ s t (Claims.outside32 r)))
    ∧ (∀ s : State, Claims.runs .v6 c [rdLo, rdHi, rm, rs] s → rdLo ≠ rdHi →
      (∃ t, exec (.smlald x c rdLo rdHi rm rs) s = .next t ∧ Claims.onlyWrites s t [rdLo, rdHi] []
        ∧ (t.reg rdHi ++ t.reg rdLo : BitVec 64) = (s.reg rdHi ++ s.reg rdLo : BitVec 64)
          + BitVec.ofInt 64 (Claims.p1 x (s.reg rm) (s.reg rs) + Claims.p2 x (s.reg rm) (s.reg rs)))
      ∧ (∃ t, exec (.smlsld x c rdLo rdHi rm rs) s = .next t ∧ Claims.onlyWrites s t [rdLo, rdHi] []
        ∧ (t.reg rdHi ++ t.reg rdLo : BitVec 64) = (s.reg rdHi ++ s.reg rdLo : BitVec 64)
          + BitVec.ofInt 64 (Claims.p1 x (s.reg rm) (s.reg rs) - Claims.p2 x (s.reg rm) (s.reg rs))))
    ∧ (∀ s : State, Claims.selected .v6 c s → (15 : Reg) ∉ [rdLo, rdHi, rm, rs] → rdLo = rdHi →
      exec (.smlald x c rdLo rdHi rm rs) s = .refused .registerCombination
      ∧ exec (.smlsld x c rdLo rdHi rm rs) s = .refused .registerCombination)

/-- UXTB and SXTB16 (R238, R239, with R237's rotation): the bytes that the rotation brings down, zero- or sign-extended. -/
def Obligations.ExtendBytes : Prop :=
  ∀ (c : Cond) (rd rm : Reg) (rot : Rotation) (s : State), Claims.runs .v6 c [rd, rm] s →
    (∃ t, exec (.uxtb c rd rm rot) s = .next t ∧ Claims.onlyWrites s t [rd] []
      ∧ (t.reg rd).toNat = (Claims.b (s.reg rm) (Claims.firstByte rot)).toNat)
    ∧ (∃ t, exec (.sxtb16 c rd rm rot) s = .next t ∧ Claims.onlyWrites s t [rd] []
      ∧ (Claims.h (t.reg rd) 0).toInt = (Claims.b (s.reg rm) (Claims.firstByte rot)).toInt
      ∧ (Claims.h (t.reg rd) 1).toInt = (Claims.b (s.reg rm) ((Claims.firstByte rot + 2) % 4)).toInt)

/-- SSAT (R241): the shifted operand brought into n bits, 1 to 32; Q when it was outside. -/
def Obligations.SsatSaturates : Prop :=
  ∀ (c : Cond) (rd : Reg) (n : Nat) (rm : Reg) (shift : SatShift) (s : State), Claims.runs .v6 c [rd, rm] s → 1 ≤ n → n ≤ 32 →
    shift.wf = true →
    ∃ t, exec (.ssat c rd n rm shift) s = .next t ∧ Claims.onlyWrites s t [rd] [27]
      ∧ (t.reg rd).toInt = Claims.sat true n (Claims.shifted (s.reg rm) shift)
      ∧ Claims.stickyQ s t (Claims.sat true n (Claims.shifted (s.reg rm) shift) ≠ Claims.shifted (s.reg rm) shift)

/-- UHSUB8 (R220): each byte is half the exact difference, rounded down, GE and Q kept; SEL (R242) chooses bytes by the GE flags; USAD8 (R243) is
the sum of the absolute differences of the four unsigned bytes. -/
def Obligations.HalveSelectAndDifference : Prop :=
  ∀ (c : Cond) (rd rn rm : Reg) (s : State), Claims.runs .v6 c [rd, rn, rm] s →
    (∃ t, exec (.uhsub8 c rd rn rm) s = .next t ∧ Claims.onlyWrites s t [rd] []
      ∧ ∀ k, k < 4 → Claims.b (t.reg rd) k
          = BitVec.ofInt 8 ((((Claims.b (s.reg rn) k).toNat : Int) - (Claims.b (s.reg rm) k).toNat) / 2))
    ∧ (∃ t, exec (.sel c rd rn rm) s = .next t ∧ Claims.onlyWrites s t [rd] []
      ∧ ∀ k, k < 4 → Claims.b (t.reg rd) k
          = if s.cpsr.getLsbD (16 + k) = true then Claims.b (s.reg rn) k else Claims.b (s.reg rm) k)
    ∧ (∃ t, exec (.usad8 c rd rn rm) s = .next t ∧ Claims.onlyWrites s t [rd] []
      ∧ ((t.reg rd).toNat : Int) = |((Claims.b (s.reg rn) 0).toNat : Int) - (Claims.b (s.reg rm) 0).toNat|
        + |((Claims.b (s.reg rn) 1).toNat : Int) - (Claims.b (s.reg rm) 1).toNat|
        + |((Claims.b (s.reg rn) 2).toNat : Int) - (Claims.b (s.reg rm) 2).toNat|
        + |((Claims.b (s.reg rn) 3).toNat : Int) - (Claims.b (s.reg rm) 3).toNat|)

/-! ## Jazelle and the base forms -/

/-- BXJ (R266): with Jazelle present and enabled J is set and T cleared, and the pc is wherever the hardware chooses; otherwise an exchange
branch without link, refused for a target with bits 1:0 = 10. Rm = 15 is refused. -/
def Obligations.BxjEntersJazelleOrBranches : Prop :=
  ∀ (s : State) (c : Cond) (rm : Reg), conditionPassed c s.cpsr = true →
    (rm ≠ 15 → s.params.hasJazelle = true → s.params.jazelleEnabled = true →
      ∃ t, exec (.bxj c rm) s = .next t ∧ t.cpsr.getLsbD 24 = true ∧ t.cpsr.getLsbD 5 = false
        ∧ Claims.sameRegsBut s t [] ∧ Claims.sameStatusBut s t [24, 5] ∧ Claims.sameMemory s t
        ∧ t.reservation = s.reservation ∧ Claims.sameSystem s t)
    ∧ (rm ≠ 15 → s.params.hasJazelle = false ∨ s.params.jazelleEnabled = false →
      ((s.reg rm).getLsbD 0 = true ∨ (s.reg rm).getLsbD 1 = false →
        ∃ t, exec (.bxj c rm) s = .next t ∧ t.pc = (s.reg rm &&& 0xFFFFFFFE#32)
          ∧ t.cpsr.getLsbD 5 = (s.reg rm).getLsbD 0 ∧ Claims.frame s t [] [5])
      ∧ ((s.reg rm).getLsbD 0 = false → (s.reg rm).getLsbD 1 = true →
        exec (.bxj c rm) s = .refused .misalignedArmTarget))
    ∧ (rm = 15 → exec (.bxj c rm) s = .refused .registerFifteen)

/-- LDR Rd, [Rn], #imm (R280): the word at Rn goes to Rd and the base is written back; any address at v6, a word-aligned one below, where
another is refused (R65); Rd = Rn and register 15 are refused; on a Data Abort, which any secure byte of the access causes (the model's
reading of R70, log 25), neither register is written. An unaligned load takes its bytes one by one while the environment may act
(R68, D10; how its actions are scheduled is the model's, log 30); with nothing scheduled the word is as it stands. -/
def Obligations.LdrPostIndexed : Prop :=
  ∀ (c : Cond) (add : Bool) (rd rn : Reg) (imm12 : BitVec 12),
    (∀ (s : State) (a v : Word), Claims.runs .v5 c [rd, rn] s → rd ≠ rn → a = s.reg rn →
      a.toNat % 4 = 0 ∨ (s.params.arch = .v6 ∧ s.torn = []) → a.toNat + 4 ≤ 2 ^ 32 → Claims.permitted s a →
      Claims.holdsWord s.bigEndian s.mem a v →
      ∃ t, exec (.ldrPost c add rd rn imm12) s = .next t ∧ Claims.onlyWrites s t [rd, rn] [] ∧ t.reg rd = v
        ∧ t.reg rn = BitVec.ofInt 32 (if add then (a.toNat : Int) + imm12.toNat else (a.toNat : Int) - imm12.toNat))
    ∧ (∀ (s u : State) (a v : Word) (es : List AccessEvent) (more : List (List AccessEvent)), Claims.runs .v5 c [rd, rn] s →
      rd ≠ rn → a = s.reg rn → s.params.arch = .v6 → a.toNat % 4 ≠ 0 → a.toNat + 4 ≤ 2 ^ 32 → Claims.permitted s a →
      s.torn = es :: more → u = { Claims.after s es with torn := more } →
      (∀ k : Fin 4, Claims.readDuring s a es k (v.extractLsb' (8 * (if s.bigEndian then 3 - k.val else k.val)) 8)) →
      ∃ t, exec (.ldrPost c add rd rn imm12) s = .next t ∧ Claims.onlyWrites u t [rd, rn] [] ∧ t.reg rd = v
        ∧ t.reg rn = BitVec.ofInt 32 (if add then (a.toNat : Int) + imm12.toNat else (a.toNat : Int) - imm12.toNat))
    ∧ (∀ s : State, Claims.selected .v5 c s → (15 : Reg) ∉ [rd, rn] → rd ≠ rn → s.params.arch ≠ .v6 → (s.reg rn).toNat % 4 ≠ 0 →
      exec (.ldrPost c add rd rn imm12) s = .refused .unalignedBeforeV6)
    ∧ (∀ s : State, Claims.selected .v5 c s → (15 : Reg) ∉ [rd, rn] → rd ≠ rn → (s.params.arch = .v6 ∨ (s.reg rn).toNat % 4 = 0) →
      (s.reg rn).toNat + 4 ≤ 2 ^ 32 → s.secureViolation (s.reg rn).toNat 4 = true →
      exec (.ldrPost c add rd rn imm12) s = .next (takeException .dataAbort s))
    ∧ (∀ s : State, Claims.selected .v5 c s → (15 : Reg) ∉ [rd, rn] → rd = rn →
      exec (.ldrPost c add rd rn imm12) s = .refused .registerCombination)
    ∧ Claims.refusesFifteen .v5 c [rd, rn] (.ldrPost c add rd rn imm12)

/-- SUBS Rd, Rn, #imm (R281): the difference modulo 2^32 and N, Z, C, V; Q and GE are kept (V is signed overflow with the immediate read as a
32-bit number, the model's reading, log 20). -/
def Obligations.SubsSetsTheFlags : Prop :=
  ∀ (c : Cond) (rd rn : Reg) (rot : BitVec 4) (imm8 : BitVec 8) (imm : Word), imm = (imm8.setWidth 32).rotateRight (2 * rot.toNat) →
    (∀ s : State, Claims.runs .v5 c [rd, rn] s →
      ∃ t, exec (.subsImm c rd rn rot imm8) s = .next t ∧ Claims.onlyWrites s t [rd] [31, 30, 29, 28]
        ∧ t.reg rd = BitVec.ofInt 32 ((s.reg rn).toNat - imm.toNat)
        ∧ t.cpsr.getLsbD 31 = (t.reg rd).getLsbD 31 ∧ t.cpsr.getLsbD 30 = decide (t.reg rd = 0#32)
        ∧ t.cpsr.getLsbD 29 = decide (imm.toNat ≤ (s.reg rn).toNat)
        ∧ t.cpsr.getLsbD 28 = decide ((s.reg rn).toInt - imm.toInt ≠ (t.reg rd).toInt))
    ∧ Claims.refusesFifteen .v5 c [rd, rn] (.subsImm c rd rn rot imm8)

/-- MSR CPSR_f, Rm (R283): N, Z, C, V and Q come from Rm and J is not writable this way; bits 26:25 come from Rm in a privileged mode and are
kept in user mode, where only flags can be changed (the model's reading of R283 with R309, log 21). -/
def Obligations.MsrWritesTheFlags : Prop :=
  ∀ (c : Cond) (rm : Reg),
    (∀ s : State, Claims.runs .v5 c [rm] s → ∃ t, exec (.msrCpsrF c rm) s = .next t
      ∧ Claims.onlyWrites s t [] [31, 30, 29, 28, 27, 26, 25]
      ∧ (∀ k, 27 ≤ k → k < 32 → t.cpsr.getLsbD k = (s.reg rm).getLsbD k)
      ∧ (∀ k, k = 25 ∨ k = 26 → t.cpsr.getLsbD k
          = if s.cpsr.extractLsb' 0 5 = 0b10000#5 then s.cpsr.getLsbD k else (s.reg rm).getLsbD k))
    ∧ Claims.refusesFifteen .v5 c [rm] (.msrCpsrF c rm)
end

