-- ==== Sys2Proof/Laws/Fields.lean ====
section
/-! SUPPORT. Fields and bits of a word: what `putField` leaves in every field, and what it does under a mask. -/

namespace Sys2Proof

theorem getLsbD_putField {n : Nat} (w : Word) (lo : Nat) (v : BitVec n) (h : lo + n ≤ 32) (i : Nat) :
    (putField w lo v).getLsbD i = if lo ≤ i ∧ i < lo + n then v.getLsbD (i - lo) else w.getLsbD i := by
  by_cases hi : i < 32
  · by_cases hin : lo ≤ i ∧ i < lo + n
    · have h1 : ¬ i < lo := by omega
      have h2 : i - lo < n := by omega
      simp [putField, hi, hin, h1, h2]
    · by_cases h1 : i < lo
      · have h4 : ¬ (lo ≤ i ∧ i < lo + n) := hin
        simp [putField, hi, h1, h4]
      · have h2 : ¬ i - lo < n := by omega
        have h4 : ¬ i < lo + n := by omega
        have h5 : v.getLsbD (i - lo) = false := BitVec.getLsbD_of_ge _ _ (by omega)
        simp [putField, hi, h1, h2, h4, h5]
  · have hw : w.getLsbD i = false := BitVec.getLsbD_of_ge _ _ (by omega)
    have hp : (putField w lo v).getLsbD i = false := BitVec.getLsbD_of_ge _ _ (by omega)
    have h1 : ¬ (lo ≤ i ∧ i < lo + n) := by omega
    simp [hw, hp, h1]

/-- Reading the field just written. -/
@[simp] theorem getField_putField_same {n : Nat} (w : Word) (lo : Nat) (v : BitVec n) (h : lo + n ≤ 32) :
    getField (putField w lo v) lo n = v := by
  apply BitVec.eq_of_getLsbD_eq
  intro i hi
  have h1 : lo + i < lo + n := by omega
  simp [getField, getLsbD_putField w lo v h, hi]

/-- Reading a field outside the one written. -/
@[simp] theorem getField_putField_other {n : Nat} (w : Word) (lo : Nat) (v : BitVec n) (lo' n' : Nat) (h : lo + n ≤ 32)
    (hd : lo' + n' ≤ lo ∨ lo + n ≤ lo') : getField (putField w lo v) lo' n' = getField w lo' n' := by
  apply BitVec.eq_of_getLsbD_eq
  intro i hi
  have h1 : ¬ (lo ≤ lo' + i ∧ lo' + i < lo + n) := by omega
  simp [getField, getLsbD_putField w lo v h, hi, h1]

@[simp] theorem getBit_putField_other {n : Nat} (w : Word) (lo : Nat) (v : BitVec n) (i : Nat) (h : lo + n ≤ 32)
    (hd : i < lo ∨ lo + n ≤ i) : getBit (putField w lo v) i = getBit w i := by
  have h1 : ¬ (lo ≤ i ∧ i < lo + n) := by omega
  simp [getBit, getLsbD_putField w lo v h, h1]

@[simp] theorem getBit_putField_inside {n : Nat} (w : Word) (lo : Nat) (v : BitVec n) (i : Nat) (h : lo + n ≤ 32)
    (h1 : lo ≤ i) (h2 : i < lo + n) : getBit (putField w lo v) i = v.getLsbD (i - lo) := by
  simp [getBit, getLsbD_putField w lo v h, h1, h2]

@[simp] theorem getBit_putBit_same (w : Word) (i : Nat) (v : Bool) (h : i < 32) : getBit (putBit w i v) i = v := by
  simp [getBit, putBit, getLsbD_putField w i (BitVec.ofBool v) (by omega)]

@[simp] theorem getBit_putBit_other (w : Word) (i j : Nat) (v : Bool) (h : i < 32) (hd : j ≠ i) :
    getBit (putBit w i v) j = getBit w j :=
  getBit_putField_other w i _ j (by omega) (by omega)

@[simp] theorem getField_putBit_other (w : Word) (i : Nat) (v : Bool) (lo' n' : Nat) (h : i < 32)
    (hd : lo' + n' ≤ i ∨ i + 1 ≤ lo') : getField (putBit w i v) lo' n' = getField w lo' n' :=
  getField_putField_other w i _ lo' n' (by omega) hd

/-- A field that the mask leaves out does not change the masked word. -/
@[simp] theorem putField_and_mask {n : Nat} (w : Word) (lo : Nat) (v : BitVec n) (mask : Word) (h : lo + n ≤ 32)
    (hm : getField mask lo n = 0#n) : putField w lo v &&& mask = w &&& mask := by
  apply BitVec.eq_of_getLsbD_eq
  intro i hi
  by_cases hin : lo ≤ i ∧ i < lo + n
  · have hz : mask.getLsbD i = false := by
      have := congrArg (fun x : BitVec n => x.getLsbD (i - lo)) hm
      have h2 : i - lo < n := by omega
      have h3 : lo + (i - lo) = i := by omega
      simpa [getField, h2, h3] using this
    simp [hz]
  · simp [getLsbD_putField w lo v h, hin]

@[simp] theorem Cond.ofBits_bits (c : Cond) : Cond.ofBits c.bits = some c := by cases c <;> rfl
@[simp] theorem HalfSel.ofBit_bit (h : HalfSel) : HalfSel.ofBit h.bit = h := by cases h <;> rfl
@[simp] theorem Rotation.ofBits_bits (r : Rotation) : Rotation.ofBits r.bits = r := by cases r <;> rfl
@[simp] theorem AddrMode.ofBits_bits (a : AddrMode) : AddrMode.ofBits a.bits = a := by cases a <;> rfl

namespace Machine

@[simp] theorem Mode.ofBits_bits (m : Mode) : Mode.ofBits m.bits = some m := by cases m <;> rfl

theorem Mode.bits_of_ofBits {b : BitVec 5} {m : Mode} (h : Mode.ofBits b = some m) : m.bits = b := by
  revert b; cases m <;> decide

end Machine

end Sys2Proof
end

