-- ==== Sys2Proof/Laws/PerInstr.lean ====
section
/-! SUPPORT. One lemma per instruction: a row of the opcode table fits its encoded word and reads the instruction back. -/

-- One theorem after another: in parallel, the many small kernel checks would each hold a thread.
set_option Elab.async false

namespace Sys2Proof.Laws

open Sys2Proof

/-- The condition and the table that bits 31:28 of a word choose (R107). -/
def rowsFor (w : Word) : Cond × List DecodeRow :=
  match Cond.ofBits (getField w 28 4) with
  | none => (.al, unconditionalRows)
  | some c => (c, conditionalRows)

theorem decodeWord_eq_lookup (w : Word) : decodeWord w = lookup (rowsFor w).2 (rowsFor w).1 w := by
  unfold decodeWord rowsFor
  cases Cond.ofBits (getField w 28 4) <;> rfl

/-- A row of the table fits the encoded word of a well-formed instruction, and reads the instruction back. -/
def EncodedRow.Statement (i : Instr) : Prop :=
  i.wf = true → ∃ (k : Nat) (r : DecodeRow), (rowsFor (encode i)).2[k]? = some r ∧ r.fits (encode i) = true
    ∧ r.read (rowsFor (encode i)).1 (encode i) = .ok i

theorem encodedRow_conditional {i : Instr} {c : Cond} {r : DecodeRow} (k : Nat)
    (hk : conditionalRows[k]? = some r) (hc : getField (encode i) 28 4 = c.bits)
    (hf : encode i &&& r.mask = r.value) (hr : i.wf = true → r.read c (encode i) = .ok i) :
    EncodedRow.Statement i := by
  intro h
  have h1 : rowsFor (encode i) = (c, conditionalRows) := by simp [rowsFor, hc]
  exact ⟨k, r, by simpa [h1] using hk, by simpa [DecodeRow.fits] using hf, by simpa [h1] using hr h⟩

theorem encodedRow_unconditional {i : Instr} {r : DecodeRow} (k : Nat)
    (hk : unconditionalRows[k]? = some r) (hc : getField (encode i) 28 4 = 0b1111#4)
    (hf : encode i &&& r.mask = r.value) (hr : i.wf = true → r.read .al (encode i) = .ok i) :
    EncodedRow.Statement i := by
  intro h
  have h0 : Cond.ofBits 0b1111#4 = none := by decide
  have h1 : rowsFor (encode i) = (.al, unconditionalRows) := by simp [rowsFor, hc, h0]
  exact ⟨k, r, by simpa [h1] using hk, by simpa [DecodeRow.fits] using hf, by simpa [h1] using hr h⟩

@[simp] theorem getReg_putReg_same (w : Word) (lo : Nat) (r : Reg) (h : lo + 4 ≤ 32) : getReg (putReg w lo r) lo = r := by
  simp [getReg, putReg, getField_putField_same w lo _ h]

@[simp] theorem getReg_putField_other {n : Nat} (w : Word) (lo : Nat) (v : BitVec n) (lo' : Nat) (h : lo + n ≤ 32)
    (hd : lo' + 4 ≤ lo ∨ lo + n ≤ lo') : getReg (putField w lo v) lo' = getReg w lo' := by
  simp [getReg, getField_putField_other w lo v lo' 4 h hd]

@[simp] theorem getReg_putReg_other (w : Word) (lo : Nat) (r : Reg) (lo' : Nat) (h : lo + 4 ≤ 32)
    (hd : lo' + 4 ≤ lo ∨ lo + 4 ≤ lo') : getReg (putReg w lo r) lo' = getReg w lo' :=
  getReg_putField_other w lo _ lo' h hd

@[simp] theorem getReg_putBit_other (w : Word) (i : Nat) (v : Bool) (lo' : Nat) (h : i < 32)
    (hd : lo' + 4 ≤ i ∨ i + 1 ≤ lo') : getReg (putBit w i v) lo' = getReg w lo' :=
  getReg_putField_other w i _ lo' (by omega) hd

@[simp] theorem getField_putReg_other (w : Word) (lo : Nat) (r : Reg) (lo' n' : Nat) (h : lo + 4 ≤ 32)
    (hd : lo' + n' ≤ lo ∨ lo + 4 ≤ lo') : getField (putReg w lo r) lo' n' = getField w lo' n' :=
  getField_putField_other w lo _ lo' n' h hd

@[simp] theorem getBit_putReg_other (w : Word) (lo : Nat) (r : Reg) (i : Nat) (h : lo + 4 ≤ 32)
    (hd : i < lo ∨ lo + 4 ≤ i) : getBit (putReg w lo r) i = getBit w i :=
  getBit_putField_other w lo _ i h hd

@[simp] theorem putReg_and_mask (w : Word) (lo : Nat) (r : Reg) (mask : Word) (h : lo + 4 ≤ 32)
    (hm : getField mask lo 4 = 0#4) : putReg w lo r &&& mask = w &&& mask :=
  putField_and_mask w lo _ mask h hm

@[simp] theorem putBit_and_mask (w : Word) (i : Nat) (v : Bool) (mask : Word) (h : i < 32)
    (hm : getField mask i 1 = 0#1) : putBit w i v &&& mask = w &&& mask :=
  putField_and_mask w i _ mask (by omega) hm

@[simp] theorem extract_append_parts (v : BitVec 16) : v.extractLsb' 4 12 ++ v.extractLsb' 0 4 = v := by
  apply BitVec.eq_of_getLsbD_eq
  intro i hi
  rw [BitVec.getLsbD_append]
  by_cases h : i < 4
  · simp [h]
  · have h1 : 4 + (i - 4) = i := by omega
    have h2 : i - 4 < 12 := by omega
    simp [h, h1, h2]

@[simp] theorem encRdRm_eq (v : Word) (c : Cond) (rd rm : Reg) :
    encRdRm v c rd rm = putReg (putReg (putField v 28 c.bits) 12 rd) 0 rm := rfl

@[simp] theorem encRdRnRm_eq (v : Word) (c : Cond) (rd rn rm : Reg) :
    encRdRnRm v c rd rn rm = putReg (encRdRm v c rd rm) 16 rn := rfl

@[simp] theorem encRdRmRs_eq (v : Word) (c : Cond) (rd rm rs : Reg) :
    encRdRmRs v c rd rm rs = putReg (putReg (putReg (putField v 28 c.bits) 16 rd) 8 rs) 0 rm := rfl

@[simp] theorem encRdRmRsRn_eq (v : Word) (c : Cond) (rd rm rs rn : Reg) :
    encRdRmRsRn v c rd rm rs rn = putReg (encRdRmRs v c rd rm rs) 12 rn := rfl

@[simp] theorem encLong_eq (v : Word) (c : Cond) (rdLo rdHi rm rs : Reg) :
    encLong v c rdLo rdHi rm rs = encRdRmRsRn v c rdHi rm rs rdLo := rfl

@[simp] theorem readRdRm_eq (k : Cond → Reg → Reg → Instr) (c : Cond) (w : Word) :
    readRdRm k c w = .ok (k c (getReg w 12) (getReg w 0)) := rfl

@[simp] theorem readRdRnRm_eq (k : Cond → Reg → Reg → Reg → Instr) (c : Cond) (w : Word) :
    readRdRnRm k c w = .ok (k c (getReg w 12) (getReg w 16) (getReg w 0)) := rfl

@[simp] theorem readRdRmRn_eq (k : Cond → Reg → Reg → Reg → Instr) (c : Cond) (w : Word) :
    readRdRmRn k c w = .ok (k c (getReg w 12) (getReg w 0) (getReg w 16)) := rfl

@[simp] theorem readRdRmRs_eq (k : Cond → Reg → Reg → Reg → Instr) (c : Cond) (w : Word) :
    readRdRmRs k c w = .ok (k c (getReg w 16) (getReg w 0) (getReg w 8)) := rfl

@[simp] theorem readRdRmRsRn_eq (k : Cond → Reg → Reg → Reg → Reg → Instr) (c : Cond) (w : Word) :
    readRdRmRsRn k c w = .ok (k c (getReg w 16) (getReg w 0) (getReg w 8) (getReg w 12)) := rfl

@[simp] theorem readLong_eq (k : Cond → Reg → Reg → Reg → Reg → Instr) (c : Cond) (w : Word) :
    readLong k c w = .ok (k c (getReg w 12) (getReg w 16) (getReg w 0) (getReg w 8)) := rfl

/-- CPS's three mask bits, read one by one. -/
@[simp] theorem maskBits_read (a i f : Bool) :
    (BitVec.ofBool a ++ BitVec.ofBool i ++ BitVec.ofBool f)[2] = a
      ∧ (BitVec.ofBool a ++ BitVec.ofBool i ++ BitVec.ofBool f)[1] = i
      ∧ (BitVec.ofBool a ++ BitVec.ofBool i ++ BitVec.ofBool f)[0] = f := by
  revert a i f; decide

theorem toNat_ofNat5 {n : Nat} (h : n < 32) : (BitVec.ofNat 5 n).toNat = n := by
  simp [Nat.mod_eq_of_lt h]

theorem asrAmount_asrField {n : Nat} (h1 : 1 ≤ n) (h2 : n ≤ 32) : asrAmount (asrField n) = n := by
  by_cases h : n = 32
  · subst h; rfl
  · have h3 : n < 32 := by omega
    have h4 : ¬ BitVec.ofNat 5 n = 0#5 := by
      intro h5
      have := congrArg BitVec.toNat h5
      rw [toNat_ofNat5 h3] at this
      simp at this
      omega
    simp only [asrAmount, asrField, h4, if_false]
    exact toNat_ofNat5 h3

theorem satShift_ofBits_bits (s : SatShift) (h : s.wf = true) : SatShift.ofBits s.bits.1 s.bits.2 = s := by
  cases s with
  | lsl n =>
    have h1 : n < 32 := by simpa [SatShift.wf] using h
    simp [SatShift.bits, SatShift.ofBits, Nat.mod_eq_of_lt h1]
  | asr n =>
    have h1 : 1 ≤ n ∧ n ≤ 32 := by simpa [SatShift.wf] using h
    simp [SatShift.bits, SatShift.ofBits, asrAmount_asrField h1.1 h1.2]

theorem EncodedRow.blxReg (c : Cond) (rm : Reg) :
    EncodedRow.Statement (.blxReg c rm) :=
  encodedRow_conditional (c := c) 1 rfl
    (by simp (disch := decide) [encode])
    (by simp (disch := decide) [encode])
    (by simp (disch := decide) [encode])

theorem EncodedRow.blxLabel (h : Bool) (imm24 : BitVec 24) :
    EncodedRow.Statement (.blxLabel h imm24) :=
  encodedRow_unconditional 0 rfl
    (by simp (disch := decide) [encode]; rfl)
    (by simp (disch := decide) [encode])
    (by simp (disch := decide) [encode])

theorem EncodedRow.clz (c : Cond) (rd rm : Reg) :
    EncodedRow.Statement (.clz c rd rm) :=
  encodedRow_conditional (c := c) 3 rfl
    (by simp (disch := decide) [encode])
    (by simp (disch := decide) [encode])
    (by simp (disch := decide) [encode])

theorem EncodedRow.bkpt (imm16 : BitVec 16) :
    EncodedRow.Statement (.bkpt imm16) :=
  encodedRow_conditional (c := .al) 0 rfl
    (by simp (disch := decide) [encode]; rfl)
    (by simp (disch := decide) [encode])
    (by simp (disch := decide) [encode])

theorem EncodedRow.pld (i u : Bool) (rn : Reg) (addrMode : BitVec 12) :
    EncodedRow.Statement (.pld i u rn addrMode) :=
  encodedRow_unconditional 1 rfl
    (by simp (disch := decide) [encode]; rfl)
    (by simp (disch := decide) [encode])
    (by simp (disch := decide) [encode])

theorem EncodedRow.cdp2 (opc1 crn crd cpNum : BitVec 4) (opc2 : BitVec 3) (crm : BitVec 4) :
    EncodedRow.Statement (.cdp2 opc1 crn crd cpNum opc2 crm) :=
  encodedRow_unconditional 2 rfl
    (by simp (disch := decide) [encode]; rfl)
    (by simp (disch := decide) [encode])
    (by simp (disch := decide) [encode])

theorem EncodedRow.mrc2 (opc1 : BitVec 3) (crn : BitVec 4) (rd : Reg) (cpNum : BitVec 4) (opc2 : BitVec 3) (crm : BitVec 4) :
    EncodedRow.Statement (.mrc2 opc1 crn rd cpNum opc2 crm) :=
  encodedRow_unconditional 3 rfl
    (by simp (disch := decide) [encode]; rfl)
    (by simp (disch := decide) [encode])
    (by simp (disch := decide) [encode])

theorem EncodedRow.pkhbt (c : Cond) (rd rn rm : Reg) (lsl : Nat) :
    EncodedRow.Statement (.pkhbt c rd rn rm lsl) :=
  encodedRow_conditional (c := c) 4 rfl
    (by simp (disch := decide) [encode])
    (by simp (disch := decide) [encode]; rfl)
    (by
    intro h
    have h1 : lsl < 32 := by simpa [Instr.wf] using h
    simp (disch := decide) [encode, Nat.mod_eq_of_lt h1])

theorem EncodedRow.pkhtb (c : Cond) (rd rn rm : Reg) (asr : Nat) :
    EncodedRow.Statement (.pkhtb c rd rn rm asr) :=
  encodedRow_conditional (c := c) 5 rfl
    (by simp (disch := decide) [encode])
    (by simp (disch := decide) [encode]; rfl)
    (by
    intro h
    have h1 : 1 ≤ asr ∧ asr ≤ 32 := by simpa [Instr.wf] using h
    simp (disch := decide) [encode, asrAmount_asrField h1.1 h1.2])

theorem EncodedRow.umaal (c : Cond) (rdLo rdHi rm rs : Reg) :
    EncodedRow.Statement (.umaal c rdLo rdHi rm rs) :=
  encodedRow_conditional (c := c) 6 rfl
    (by simp (disch := decide) [encode])
    (by simp (disch := decide) [encode])
    (by simp (disch := decide) [encode])

theorem EncodedRow.cps (change : MaskChange) (mode : Option (BitVec 5)) :
    EncodedRow.Statement (.cps change mode) :=
  encodedRow_unconditional 4 rfl
    (by simp (disch := decide) [encode]; rfl)
    (by simp (disch := decide) [encode])
    (by
    intro h
    cases change <;> cases mode <;> simp [Instr.wf, MaskChange.wfWith] at h <;>
      simp (disch := decide) [encode, readCps, MaskChange.bits])

theorem EncodedRow.setend (big : Bool) :
    EncodedRow.Statement (.setend big) :=
  encodedRow_unconditional 5 rfl
    (by simp (disch := decide) [encode]; rfl)
    (by simp (disch := decide) [encode])
    (by simp (disch := decide) [encode])

theorem EncodedRow.srs (am : AddrMode) (wb : Bool) (mode : BitVec 5) :
    EncodedRow.Statement (.srs am wb mode) :=
  encodedRow_unconditional 6 rfl
    (by simp (disch := decide) [encode]; rfl)
    (by simp (disch := decide) [encode])
    (by simp (disch := decide) [encode])

theorem EncodedRow.rfe (am : AddrMode) (wb : Bool) (rn : Reg) :
    EncodedRow.Statement (.rfe am wb rn) :=
  encodedRow_unconditional 7 rfl
    (by simp (disch := decide) [encode]; rfl)
    (by simp (disch := decide) [encode])
    (by simp (disch := decide) [encode])

theorem EncodedRow.swp (c : Cond) (rd rm rn : Reg) :
    EncodedRow.Statement (.swp c rd rm rn) :=
  encodedRow_conditional (c := c) 7 rfl
    (by simp (disch := decide) [encode])
    (by simp (disch := decide) [encode])
    (by simp (disch := decide) [encode])

theorem EncodedRow.ldrex (c : Cond) (rd rn : Reg) :
    EncodedRow.Statement (.ldrex c rd rn) :=
  encodedRow_conditional (c := c) 8 rfl
    (by simp (disch := decide) [encode])
    (by simp (disch := decide) [encode])
    (by simp (disch := decide) [encode])

theorem EncodedRow.strex (c : Cond) (rd rm rn : Reg) :
    EncodedRow.Statement (.strex c rd rm rn) :=
  encodedRow_conditional (c := c) 9 rfl
    (by simp (disch := decide) [encode])
    (by simp (disch := decide) [encode])
    (by simp (disch := decide) [encode])

theorem EncodedRow.rev (c : Cond) (rd rm : Reg) :
    EncodedRow.Statement (.rev c rd rm) :=
  encodedRow_conditional (c := c) 10 rfl
    (by simp (disch := decide) [encode])
    (by simp (disch := decide) [encode])
    (by simp (disch := decide) [encode])

theorem EncodedRow.rev16 (c : Cond) (rd rm : Reg) :
    EncodedRow.Statement (.rev16 c rd rm) :=
  encodedRow_conditional (c := c) 11 rfl
    (by simp (disch := decide) [encode])
    (by simp (disch := decide) [encode])
    (by simp (disch := decide) [encode])

theorem EncodedRow.revsh (c : Cond) (rd rm : Reg) :
    EncodedRow.Statement (.revsh c rd rm) :=
  encodedRow_conditional (c := c) 12 rfl
    (by simp (disch := decide) [encode])
    (by simp (disch := decide) [encode])
    (by simp (disch := decide) [encode])

theorem EncodedRow.smlaw (c : Cond) (y : HalfSel) (rd rm rs rn : Reg) :
    EncodedRow.Statement (.smlaw c y rd rm rs rn) :=
  encodedRow_conditional (c := c) 13 rfl
    (by simp (disch := decide) [encode])
    (by simp (disch := decide) [encode])
    (by simp (disch := decide) [encode])

theorem EncodedRow.smulw (c : Cond) (y : HalfSel) (rd rm rs : Reg) :
    EncodedRow.Statement (.smulw c y rd rm rs) :=
  encodedRow_conditional (c := c) 14 rfl
    (by simp (disch := decide) [encode])
    (by simp (disch := decide) [encode])
    (by simp (disch := decide) [encode])

theorem EncodedRow.smlal (c : Cond) (x y : HalfSel) (rdLo rdHi rm rs : Reg) :
    EncodedRow.Statement (.smlal c x y rdLo rdHi rm rs) :=
  encodedRow_conditional (c := c) 15 rfl
    (by simp (disch := decide) [encode])
    (by simp (disch := decide) [encode])
    (by simp (disch := decide) [encode])

theorem EncodedRow.smul (c : Cond) (x y : HalfSel) (rd rm rs : Reg) :
    EncodedRow.Statement (.smul c x y rd rm rs) :=
  encodedRow_conditional (c := c) 16 rfl
    (by simp (disch := decide) [encode])
    (by simp (disch := decide) [encode])
    (by simp (disch := decide) [encode])

theorem EncodedRow.qadd (c : Cond) (rd rm rn : Reg) :
    EncodedRow.Statement (.qadd c rd rm rn) :=
  encodedRow_conditional (c := c) 17 rfl
    (by simp (disch := decide) [encode])
    (by simp (disch := decide) [encode])
    (by simp (disch := decide) [encode])

theorem EncodedRow.qsub (c : Cond) (rd rm rn : Reg) :
    EncodedRow.Statement (.qsub c rd rm rn) :=
  encodedRow_conditional (c := c) 18 rfl
    (by simp (disch := decide) [encode])
    (by simp (disch := decide) [encode])
    (by simp (disch := decide) [encode])

theorem EncodedRow.qdadd (c : Cond) (rd rm rn : Reg) :
    EncodedRow.Statement (.qdadd c rd rm rn) :=
  encodedRow_conditional (c := c) 19 rfl
    (by simp (disch := decide) [encode])
    (by simp (disch := decide) [encode])
    (by simp (disch := decide) [encode])

theorem EncodedRow.qdsub (c : Cond) (rd rm rn : Reg) :
    EncodedRow.Statement (.qdsub c rd rm rn) :=
  encodedRow_conditional (c := c) 20 rfl
    (by simp (disch := decide) [encode])
    (by simp (disch := decide) [encode])
    (by simp (disch := decide) [encode])

theorem EncodedRow.uqadd8 (c : Cond) (rd rn rm : Reg) :
    EncodedRow.Statement (.uqadd8 c rd rn rm) :=
  encodedRow_conditional (c := c) 26 rfl
    (by simp (disch := decide) [encode])
    (by simp (disch := decide) [encode])
    (by simp (disch := decide) [encode])

theorem EncodedRow.qadd8 (c : Cond) (rd rn rm : Reg) :
    EncodedRow.Statement (.qadd8 c rd rn rm) :=
  encodedRow_conditional (c := c) 27 rfl
    (by simp (disch := decide) [encode])
    (by simp (disch := decide) [encode])
    (by simp (disch := decide) [encode])

theorem EncodedRow.uadd8 (c : Cond) (rd rn rm : Reg) :
    EncodedRow.Statement (.uadd8 c rd rn rm) :=
  encodedRow_conditional (c := c) 28 rfl
    (by simp (disch := decide) [encode])
    (by simp (disch := decide) [encode])
    (by simp (disch := decide) [encode])

theorem EncodedRow.sadd8 (c : Cond) (rd rn rm : Reg) :
    EncodedRow.Statement (.sadd8 c rd rn rm) :=
  encodedRow_conditional (c := c) 29 rfl
    (by simp (disch := decide) [encode])
    (by simp (disch := decide) [encode])
    (by simp (disch := decide) [encode])

theorem EncodedRow.uqsub8 (c : Cond) (rd rn rm : Reg) :
    EncodedRow.Statement (.uqsub8 c rd rn rm) :=
  encodedRow_conditional (c := c) 30 rfl
    (by simp (disch := decide) [encode])
    (by simp (disch := decide) [encode])
    (by simp (disch := decide) [encode])

theorem EncodedRow.qsub8 (c : Cond) (rd rn rm : Reg) :
    EncodedRow.Statement (.qsub8 c rd rn rm) :=
  encodedRow_conditional (c := c) 31 rfl
    (by simp (disch := decide) [encode])
    (by simp (disch := decide) [encode])
    (by simp (disch := decide) [encode])

theorem EncodedRow.usub8 (c : Cond) (rd rn rm : Reg) :
    EncodedRow.Statement (.usub8 c rd rn rm) :=
  encodedRow_conditional (c := c) 32 rfl
    (by simp (disch := decide) [encode])
    (by simp (disch := decide) [encode])
    (by simp (disch := decide) [encode])

theorem EncodedRow.ssub8 (c : Cond) (rd rn rm : Reg) :
    EncodedRow.Statement (.ssub8 c rd rn rm) :=
  encodedRow_conditional (c := c) 33 rfl
    (by simp (disch := decide) [encode])
    (by simp (disch := decide) [encode])
    (by simp (disch := decide) [encode])

theorem EncodedRow.uqadd16 (c : Cond) (rd rn rm : Reg) :
    EncodedRow.Statement (.uqadd16 c rd rn rm) :=
  encodedRow_conditional (c := c) 34 rfl
    (by simp (disch := decide) [encode])
    (by simp (disch := decide) [encode])
    (by simp (disch := decide) [encode])

theorem EncodedRow.qadd16 (c : Cond) (rd rn rm : Reg) :
    EncodedRow.Statement (.qadd16 c rd rn rm) :=
  encodedRow_conditional (c := c) 35 rfl
    (by simp (disch := decide) [encode])
    (by simp (disch := decide) [encode])
    (by simp (disch := decide) [encode])

theorem EncodedRow.uadd16 (c : Cond) (rd rn rm : Reg) :
    EncodedRow.Statement (.uadd16 c rd rn rm) :=
  encodedRow_conditional (c := c) 36 rfl
    (by simp (disch := decide) [encode])
    (by simp (disch := decide) [encode])
    (by simp (disch := decide) [encode])

theorem EncodedRow.sadd16 (c : Cond) (rd rn rm : Reg) :
    EncodedRow.Statement (.sadd16 c rd rn rm) :=
  encodedRow_conditional (c := c) 37 rfl
    (by simp (disch := decide) [encode])
    (by simp (disch := decide) [encode])
    (by simp (disch := decide) [encode])

theorem EncodedRow.uqsub16 (c : Cond) (rd rn rm : Reg) :
    EncodedRow.Statement (.uqsub16 c rd rn rm) :=
  encodedRow_conditional (c := c) 38 rfl
    (by simp (disch := decide) [encode])
    (by simp (disch := decide) [encode])
    (by simp (disch := decide) [encode])

theorem EncodedRow.qsub16 (c : Cond) (rd rn rm : Reg) :
    EncodedRow.Statement (.qsub16 c rd rn rm) :=
  encodedRow_conditional (c := c) 39 rfl
    (by simp (disch := decide) [encode])
    (by simp (disch := decide) [encode])
    (by simp (disch := decide) [encode])

theorem EncodedRow.usub16 (c : Cond) (rd rn rm : Reg) :
    EncodedRow.Statement (.usub16 c rd rn rm) :=
  encodedRow_conditional (c := c) 40 rfl
    (by simp (disch := decide) [encode])
    (by simp (disch := decide) [encode])
    (by simp (disch := decide) [encode])

theorem EncodedRow.ssub16 (c : Cond) (rd rn rm : Reg) :
    EncodedRow.Statement (.ssub16 c rd rn rm) :=
  encodedRow_conditional (c := c) 41 rfl
    (by simp (disch := decide) [encode])
    (by simp (disch := decide) [encode])
    (by simp (disch := decide) [encode])

theorem EncodedRow.uqaddsubx (c : Cond) (rd rn rm : Reg) :
    EncodedRow.Statement (.uqaddsubx c rd rn rm) :=
  encodedRow_conditional (c := c) 42 rfl
    (by simp (disch := decide) [encode])
    (by simp (disch := decide) [encode])
    (by simp (disch := decide) [encode])

theorem EncodedRow.qaddsubx (c : Cond) (rd rn rm : Reg) :
    EncodedRow.Statement (.qaddsubx c rd rn rm) :=
  encodedRow_conditional (c := c) 43 rfl
    (by simp (disch := decide) [encode])
    (by simp (disch := decide) [encode])
    (by simp (disch := decide) [encode])

theorem EncodedRow.uaddsubx (c : Cond) (rd rn rm : Reg) :
    EncodedRow.Statement (.uaddsubx c rd rn rm) :=
  encodedRow_conditional (c := c) 44 rfl
    (by simp (disch := decide) [encode])
    (by simp (disch := decide) [encode])
    (by simp (disch := decide) [encode])

theorem EncodedRow.saddsubx (c : Cond) (rd rn rm : Reg) :
    EncodedRow.Statement (.saddsubx c rd rn rm) :=
  encodedRow_conditional (c := c) 45 rfl
    (by simp (disch := decide) [encode])
    (by simp (disch := decide) [encode])
    (by simp (disch := decide) [encode])

theorem EncodedRow.uqsubaddx (c : Cond) (rd rn rm : Reg) :
    EncodedRow.Statement (.uqsubaddx c rd rn rm) :=
  encodedRow_conditional (c := c) 46 rfl
    (by simp (disch := decide) [encode])
    (by simp (disch := decide) [encode])
    (by simp (disch := decide) [encode])

theorem EncodedRow.qsubaddx (c : Cond) (rd rn rm : Reg) :
    EncodedRow.Statement (.qsubaddx c rd rn rm) :=
  encodedRow_conditional (c := c) 47 rfl
    (by simp (disch := decide) [encode])
    (by simp (disch := decide) [encode])
    (by simp (disch := decide) [encode])

theorem EncodedRow.usubaddx (c : Cond) (rd rn rm : Reg) :
    EncodedRow.Statement (.usubaddx c rd rn rm) :=
  encodedRow_conditional (c := c) 48 rfl
    (by simp (disch := decide) [encode])
    (by simp (disch := decide) [encode])
    (by simp (disch := decide) [encode])

theorem EncodedRow.ssubaddx (c : Cond) (rd rn rm : Reg) :
    EncodedRow.Statement (.ssubaddx c rd rn rm) :=
  encodedRow_conditional (c := c) 49 rfl
    (by simp (disch := decide) [encode])
    (by simp (disch := decide) [encode])
    (by simp (disch := decide) [encode])

theorem EncodedRow.uhsub8 (c : Cond) (rd rn rm : Reg) :
    EncodedRow.Statement (.uhsub8 c rd rn rm) :=
  encodedRow_conditional (c := c) 50 rfl
    (by simp (disch := decide) [encode])
    (by simp (disch := decide) [encode])
    (by simp (disch := decide) [encode])

theorem EncodedRow.smuad (x : Bool) (c : Cond) (rd rm rs : Reg) :
    EncodedRow.Statement (.smuad x c rd rm rs) :=
  encodedRow_conditional (c := c) 62 rfl
    (by simp (disch := decide) [encode])
    (by simp (disch := decide) [encode])
    (by intro _; simp (disch := decide) [encode, readDual]; decide)

theorem EncodedRow.smusd (x : Bool) (c : Cond) (rd rm rs : Reg) :
    EncodedRow.Statement (.smusd x c rd rm rs) :=
  encodedRow_conditional (c := c) 63 rfl
    (by simp (disch := decide) [encode])
    (by simp (disch := decide) [encode])
    (by intro _; simp (disch := decide) [encode, readDual]; decide)

theorem EncodedRow.smlad (x : Bool) (c : Cond) (rd rm rs rn : Reg) :
    EncodedRow.Statement (.smlad x c rd rm rs rn) :=
  encodedRow_conditional (c := c) 62 rfl
    (by simp (disch := decide) [encode])
    (by simp (disch := decide) [encode])
    (by
    intro h
    have h1 : rn ≠ 15 := by simpa [Instr.wf] using h
    simp (disch := decide) [encode, readDual, h1])

theorem EncodedRow.smlsd (x : Bool) (c : Cond) (rd rm rs rn : Reg) :
    EncodedRow.Statement (.smlsd x c rd rm rs rn) :=
  encodedRow_conditional (c := c) 63 rfl
    (by simp (disch := decide) [encode])
    (by simp (disch := decide) [encode])
    (by
    intro h
    have h1 : rn ≠ 15 := by simpa [Instr.wf] using h
    simp (disch := decide) [encode, readDual, h1])

theorem EncodedRow.smlald (x : Bool) (c : Cond) (rdLo rdHi rm rs : Reg) :
    EncodedRow.Statement (.smlald x c rdLo rdHi rm rs) :=
  encodedRow_conditional (c := c) 64 rfl
    (by simp (disch := decide) [encode])
    (by simp (disch := decide) [encode])
    (by simp (disch := decide) [encode])

theorem EncodedRow.smlsld (x : Bool) (c : Cond) (rdLo rdHi rm rs : Reg) :
    EncodedRow.Statement (.smlsld x c rdLo rdHi rm rs) :=
  encodedRow_conditional (c := c) 65 rfl
    (by simp (disch := decide) [encode])
    (by simp (disch := decide) [encode])
    (by simp (disch := decide) [encode])

theorem EncodedRow.uxtb (c : Cond) (rd rm : Reg) (rot : Rotation) :
    EncodedRow.Statement (.uxtb c rd rm rot) :=
  encodedRow_conditional (c := c) 66 rfl
    (by simp (disch := decide) [encode])
    (by simp (disch := decide) [encode])
    (by simp (disch := decide) [encode])

theorem EncodedRow.sxtb16 (c : Cond) (rd rm : Reg) (rot : Rotation) :
    EncodedRow.Statement (.sxtb16 c rd rm rot) :=
  encodedRow_conditional (c := c) 67 rfl
    (by simp (disch := decide) [encode])
    (by simp (disch := decide) [encode])
    (by simp (disch := decide) [encode])

theorem EncodedRow.ssat (c : Cond) (rd : Reg) (n : Nat) (rm : Reg) (shift : SatShift) :
    EncodedRow.Statement (.ssat c rd n rm shift) :=
  encodedRow_conditional (c := c) 68 rfl
    (by simp (disch := decide) [encode])
    (by simp (disch := decide) [encode])
    (by
    intro h
    have h1 : (1 ≤ n ∧ n ≤ 32) ∧ shift.wf = true := by simpa [Instr.wf] using h
    have h2 : n - 1 < 32 := by omega
    have h3 : n - 1 + 1 = n := by omega
    simp (disch := decide) [encode, Nat.mod_eq_of_lt h2, h3, satShift_ofBits_bits shift h1.2])

theorem EncodedRow.sel (c : Cond) (rd rn rm : Reg) :
    EncodedRow.Statement (.sel c rd rn rm) :=
  encodedRow_conditional (c := c) 69 rfl
    (by simp (disch := decide) [encode])
    (by simp (disch := decide) [encode])
    (by simp (disch := decide) [encode])

theorem EncodedRow.usad8 (c : Cond) (rd rm rs : Reg) :
    EncodedRow.Statement (.usad8 c rd rm rs) :=
  encodedRow_conditional (c := c) 70 rfl
    (by simp (disch := decide) [encode])
    (by simp (disch := decide) [encode])
    (by intro _; simp (disch := decide) [encode]; decide)

theorem EncodedRow.smi (c : Cond) (imm16 : BitVec 16) :
    EncodedRow.Statement (.smi c imm16) :=
  encodedRow_conditional (c := c) 21 rfl
    (by simp (disch := decide) [encode])
    (by simp (disch := decide) [encode])
    (by simp (disch := decide) [encode])

theorem EncodedRow.bxj (c : Cond) (rm : Reg) :
    EncodedRow.Statement (.bxj c rm) :=
  encodedRow_conditional (c := c) 2 rfl
    (by simp (disch := decide) [encode])
    (by simp (disch := decide) [encode])
    (by simp (disch := decide) [encode])

theorem EncodedRow.ldrPost (c : Cond) (add : Bool) (rd rn : Reg) (imm12 : BitVec 12) :
    EncodedRow.Statement (.ldrPost c add rd rn imm12) :=
  encodedRow_conditional (c := c) 22 rfl
    (by simp (disch := decide) [encode])
    (by simp (disch := decide) [encode])
    (by simp (disch := decide) [encode])

theorem EncodedRow.subsImm (c : Cond) (rd rn : Reg) (rot : BitVec 4) (imm8 : BitVec 8) :
    EncodedRow.Statement (.subsImm c rd rn rot imm8) :=
  encodedRow_conditional (c := c) 23 rfl
    (by simp (disch := decide) [encode])
    (by simp (disch := decide) [encode])
    (by simp (disch := decide) [encode])

theorem EncodedRow.b (c : Cond) (imm24 : BitVec 24) :
    EncodedRow.Statement (.b c imm24) :=
  encodedRow_conditional (c := c) 24 rfl
    (by simp (disch := decide) [encode])
    (by simp (disch := decide) [encode])
    (by simp (disch := decide) [encode])

theorem EncodedRow.msrCpsrF (c : Cond) (rm : Reg) :
    EncodedRow.Statement (.msrCpsrF c rm) :=
  encodedRow_conditional (c := c) 25 rfl
    (by simp (disch := decide) [encode])
    (by simp (disch := decide) [encode])
    (by simp (disch := decide) [encode])

end Sys2Proof.Laws
end

