-- ==== Sys2Proof/Laws/Decode.lean ====
section
/-! SUPPORT. The opcode tables are unambiguous: no word fits two rows, so the row that fits is the one `lookup` finds. -/

namespace Sys2Proof.Laws

open Sys2Proof

/-- The constant bits of two rows differ in a place where both have one. -/
def rowsDiffer (a b : DecodeRow) : Bool := (a.value &&& b.mask) != (b.value &&& a.mask)

theorem conditionalRows_differ : conditionalRows.Pairwise (fun a b => rowsDiffer a b = true) := by decide +kernel

theorem unconditionalRows_differ : unconditionalRows.Pairwise (fun a b => rowsDiffer a b = true) := by decide +kernel

theorem not_fits_both {a b : DecodeRow} {w : Word} (h : rowsDiffer a b = true) (ha : a.fits w = true) :
    b.fits w = false := by
  by_contra hb
  have h1 : w &&& a.mask = a.value := by simpa [DecodeRow.fits] using ha
  have h2 : w &&& b.mask = b.value := by simpa [DecodeRow.fits] using hb
  have h3 : a.value &&& b.mask = b.value &&& a.mask := by
    rw [← h1, ← h2, BitVec.and_assoc, BitVec.and_assoc, BitVec.and_comm a.mask b.mask]
  simp [rowsDiffer, h3] at h

/-- In a table without overlaps, a row that fits is the one that `lookup` reads. -/
theorem lookup_of_fits {rows : List DecodeRow} (hd : rows.Pairwise (fun a b => rowsDiffer a b = true)) {k : Nat}
    {r : DecodeRow} (hk : rows[k]? = some r) {w : Word} (hf : r.fits w = true) (c : Cond) : lookup rows c w = r.read c w := by
  have hfind : rows.find? (·.fits w) = some r := by
    induction rows generalizing k with
    | nil => simp at hk
    | cons a rows ih =>
      rw [List.pairwise_cons] at hd
      cases k with
      | zero =>
        have : a = r := by simpa using hk
        simp [this, hf]
      | succ k =>
        have hk' : rows[k]? = some r := by simpa using hk
        have hmem : r ∈ rows := List.mem_of_getElem? hk'
        have hdr := hd.1 r hmem
        have ha : a.fits w = false := by
          by_contra hc
          have := not_fits_both hdr (by simpa using hc)
          rw [hf] at this
          exact Bool.noConfusion this
        simp only [List.find?, ha]
        exact ih hd.2 hk'
  simp [lookup, hfind]

theorem rowsFor_differ (w : Word) : (rowsFor w).2.Pairwise (fun a b => rowsDiffer a b = true) := by
  unfold rowsFor
  cases Cond.ofBits (getField w 28 4)
  · exact unconditionalRows_differ
  · exact conditionalRows_differ

end Sys2Proof.Laws
end

