-- ==== Sys2Proof/Laws/Memory.lean ====
section
/-! SUPPORT. Memory: read after write, every operation keeps the canonical form, equal reads are equal memories. -/

namespace Sys2Proof.Machine

@[simp] theorem readByte_nil (a : Nat) : readByte [] a = none := rfl

@[simp] theorem readByte_writeByte_same (m : Memory) (a : Nat) (v : Byte) : readByte (writeByte m a v) a = some v := by
  induction m with
  | nil => simp [writeByte, readByte]
  | cons c m ih =>
    obtain ⟨k, b⟩ := c
    by_cases h1 : a < k
    · simp [writeByte, readByte, h1]
    · by_cases h2 : a = k
      · simp [writeByte, readByte, h2]
      · simp [writeByte, readByte, h1, h2, ih]

theorem readByte_writeByte_other (m : Memory) (a b : Nat) (v : Byte) (h : b ≠ a) :
    readByte (writeByte m a v) b = readByte m b := by
  induction m with
  | nil => simp [writeByte, readByte, h]
  | cons c m ih =>
    obtain ⟨k, w⟩ := c
    by_cases h1 : a < k
    · simp [writeByte, readByte, h1, h]
    · by_cases h2 : a = k
      · subst h2; simp [writeByte, readByte, h]
      · simp [writeByte, readByte, h1, h2, ih]

theorem mem_writeByte {m : Memory} {a : Nat} {v : Byte} {c : Host.Cell} (h : c ∈ writeByte m a v) :
    c = (a, v) ∨ c ∈ m := by
  induction m with
  | nil => simpa [writeByte] using h
  | cons d m ih =>
    obtain ⟨k, b⟩ := d
    by_cases h1 : a < k
    · simpa [writeByte, h1] using h
    · by_cases h2 : a = k
      · simp only [writeByte, h2, if_false, if_true, lt_irrefl, List.mem_cons] at h
        rcases h with h | h
        · exact Or.inl (by simp [h, h2])
        · exact Or.inr (List.mem_cons_of_mem _ h)
      · simp only [writeByte, h1, h2, if_false, List.mem_cons] at h
        rcases h with h | h
        · exact Or.inr (by simp [h])
        · rcases ih h with h | h
          · exact Or.inl h
          · exact Or.inr (List.mem_cons_of_mem _ h)

/-- A byte write keeps the canonical form. -/
theorem memoryWf_writeByte {m : Memory} {a : Nat} {v : Byte} (h : memoryWf m) (ha : a < 2 ^ 32) :
    memoryWf (writeByte m a v) := by
  refine ⟨?_, fun c hc => ?_⟩
  · obtain ⟨hp, -⟩ := h
    induction m with
    | nil => simp [writeByte]
    | cons d m ih =>
      obtain ⟨k, b⟩ := d
      rw [List.pairwise_cons] at hp
      by_cases h1 : a < k
      · simp only [writeByte, h1, if_true]
        refine List.pairwise_cons.mpr ⟨fun c hc => ?_, List.pairwise_cons.mpr hp⟩
        rcases List.mem_cons.mp hc with h | h
        · simp [h, h1]
        · exact lt_trans h1 (hp.1 c h)
      · by_cases h2 : a = k
        · simp only [writeByte, h2, lt_irrefl, if_false, if_true]
          exact List.pairwise_cons.mpr ⟨fun c hc => hp.1 c hc, hp.2⟩
        · simp only [writeByte, h1, h2, if_false]
          refine List.pairwise_cons.mpr ⟨fun c hc => ?_, ih hp.2⟩
          rcases mem_writeByte hc with h | h
          · simp only [h]; omega
          · exact hp.1 c h
  · rcases mem_writeByte hc with h1 | h1
    · rw [h1]; exact ha
    · exact h.2 c h1

/-- A run of byte writes inside the address space keeps the canonical form. -/
theorem memoryWf_writeBytes {m : Memory} {a : Nat} {bs : List Byte} (h : memoryWf m) (ha : a + bs.length ≤ 2 ^ 32) :
    memoryWf (writeBytes m a bs) := by
  induction bs generalizing m a with
  | nil => exact h
  | cons b bs ih =>
    simp only [List.length_cons] at ha
    exact ih (memoryWf_writeByte h (by omega)) (by omega)

/-- A run of byte writes leaves every other byte alone. -/
theorem readByte_writeBytes_outside (m : Memory) (a b : Nat) (bs : List Byte) (h : b < a ∨ a + bs.length ≤ b) :
    readByte (writeBytes m a bs) b = readByte m b := by
  induction bs generalizing m a with
  | nil => rfl
  | cons c bs ih =>
    simp only [List.length_cons] at h
    simp only [writeBytes]
    rw [ih _ _ (by omega), readByte_writeByte_other _ _ _ _ (by omega)]

/-- A run of byte writes is read back byte by byte. -/
theorem readByte_writeBytes_inside (m : Memory) (a k : Nat) (bs : List Byte) (h : k < bs.length) :
    readByte (writeBytes m a bs) (a + k) = bs[k]? := by
  induction bs generalizing m a k with
  | nil => simp at h
  | cons c bs ih =>
    simp only [writeBytes]
    cases k with
    | zero => rw [readByte_writeBytes_outside _ _ _ _ (by omega)]; simp
    | succ k =>
      have h1 : a + (k + 1) = a + 1 + k := by omega
      simp only [List.length_cons] at h
      rw [h1, ih _ _ _ (by omega)]
      simp

/-- What a run of byte reads answers depends on those bytes alone. -/
theorem readBytes_congr {m m' : Memory} {a n : Nat} (h : ∀ k, k < n → readByte m' (a + k) = readByte m (a + k)) :
    readBytes m' a n = readBytes m a n := by
  induction n generalizing a with
  | zero => rfl
  | succ n ih =>
    have h0 : readByte m' a = readByte m a := by simpa using h 0 (by omega)
    have h1 : readBytes m' (a + 1) n = readBytes m (a + 1) n := by
      refine ih fun k hk => ?_
      have := h (k + 1) (by omega)
      simpa [Nat.add_assoc, Nat.add_comm 1 k] using this
    simp [readBytes, h0, h1]

/-- Writing bytes and reading them at once. -/
theorem readBytes_writeBytes (m : Memory) (a : Nat) (bs : List Byte) :
    readBytes (writeBytes m a bs) a bs.length = .ok bs := by
  induction bs generalizing m a with
  | nil => rfl
  | cons b bs ih =>
    have h0 : readByte (writeBytes (writeByte m a b) (a + 1) bs) a = some b := by
      rw [readByte_writeBytes_outside _ _ _ _ (by omega)]; simp
    simp [writeBytes, readBytes, h0, ih]

@[simp] theorem disassemble_length (big : Bool) (n : Nat) (v : Word) : (disassemble big n v).length = n := by
  cases big <;> simp [disassemble]

theorem readByte_none_of_lt {m : Memory} {a : Nat} (h : ∀ c ∈ m, a < c.1) : readByte m a = none := by
  induction m with
  | nil => rfl
  | cons c m ih =>
    obtain ⟨k, b⟩ := c
    have h1 : a < k := h (k, b) (by simp)
    have h2 : ¬ a = k := by omega
    simp [readByte, h2, ih fun c hc => h c (List.mem_cons_of_mem _ hc)]

/-- Two memories in canonical form that read the same everywhere are the same list. -/
theorem memory_ext {m m' : Memory} (h : memoryWf m) (h' : memoryWf m') (hr : ∀ a, readByte m a = readByte m' a) :
    m = m' := by
  obtain ⟨hp, -⟩ := h
  obtain ⟨hp', -⟩ := h'
  induction m generalizing m' with
  | nil =>
    cases m' with
    | nil => rfl
    | cons c m' => have := hr c.1; simp [readByte] at this
  | cons c m ih =>
    obtain ⟨k, b⟩ := c
    cases m' with
    | nil => have := hr k; simp [readByte] at this
    | cons c' m' =>
      obtain ⟨k', b'⟩ := c'
      rw [List.pairwise_cons] at hp hp'
      have hk : k = k' := by
        rcases lt_trichotomy k k' with hlt | heq | hgt
        · have h1 : readByte ((k', b') :: m') k = none := readByte_none_of_lt fun c hc => by
            rcases List.mem_cons.mp hc with h | h
            · simp [h, hlt]
            · exact lt_trans hlt (hp'.1 c h)
          have h2 := hr k
          rw [h1] at h2; simp [readByte] at h2
        · exact heq
        · have h1 : readByte ((k, b) :: m) k' = none := readByte_none_of_lt fun c hc => by
            rcases List.mem_cons.mp hc with h | h
            · simp [h, hgt]
            · exact lt_trans hgt (hp.1 c h)
          have h2 := hr k'
          rw [h1] at h2; simp [readByte] at h2
      subst hk
      have hb : b = b' := by simpa [readByte] using hr k
      subst hb
      have htail : m = m' := by
        refine ih (fun a => ?_) hp.2 hp'.2
        by_cases ha : a = k
        · subst ha
          rw [readByte_none_of_lt fun c hc => hp.1 c hc, readByte_none_of_lt fun c hc => hp'.1 c hc]
        · simpa [readByte, ha] using hr a
      rw [htail]

end Sys2Proof.Machine
end

