-- ==== Sys2Proof/Laws/State.lean ====
section
/-! SUPPORT. One lemma per field for each update of the state, so that no later proof unfolds a record update. -/

namespace Sys2Proof.Machine

/-! ## Writing a physical register -/

@[simp] theorem setPhys_pc (s : State) (p : PhysReg) (v : Word) : (s.setPhys p v).pc = s.pc := rfl
@[simp] theorem setPhys_cpsr (s : State) (p : PhysReg) (v : Word) : (s.setPhys p v).cpsr = s.cpsr := rfl
@[simp] theorem setPhys_spsr (s : State) (p : PhysReg) (v : Word) : (s.setPhys p v).spsr = s.spsr := rfl
@[simp] theorem setPhys_ns (s : State) (p : PhysReg) (v : Word) : (s.setPhys p v).ns = s.ns := rfl
@[simp] theorem setPhys_reservation (s : State) (p : PhysReg) (v : Word) : (s.setPhys p v).reservation = s.reservation := rfl
@[simp] theorem setPhys_mem (s : State) (p : PhysReg) (v : Word) : (s.setPhys p v).mem = s.mem := rfl
@[simp] theorem setPhys_irqLine (s : State) (p : PhysReg) (v : Word) : (s.setPhys p v).irqLine = s.irqLine := rfl
@[simp] theorem setPhys_fiqLine (s : State) (p : PhysReg) (v : Word) : (s.setPhys p v).fiqLine = s.fiqLine := rfl
@[simp] theorem setPhys_abortPending (s : State) (p : PhysReg) (v : Word) : (s.setPhys p v).abortPending = s.abortPending := rfl
@[simp] theorem setPhys_env (s : State) (p : PhysReg) (v : Word) : (s.setPhys p v).env = s.env := rfl
@[simp] theorem setPhys_torn (s : State) (p : PhysReg) (v : Word) : (s.setPhys p v).torn = s.torn := rfl
@[simp] theorem setPhys_freeCount (s : State) (p : PhysReg) (v : Word) : (s.setPhys p v).freeCount = s.freeCount := rfl
@[simp] theorem setPhys_params (s : State) (p : PhysReg) (v : Word) : (s.setPhys p v).params = s.params := rfl

/-- The physical registers in the order of their places. -/
def physRegs : List PhysReg :=
  [.r0, .r1, .r2, .r3, .r4, .r5, .r6, .r7, .r8, .r9, .r10, .r11, .r12, .r13, .r14,
   .r8_fiq, .r9_fiq, .r10_fiq, .r11_fiq, .r12_fiq, .r13_fiq, .r14_fiq,
   .r13_svc, .r14_svc, .r13_abt, .r14_abt, .r13_irq, .r14_irq, .r13_und, .r14_und, .r13_mon, .r14_mon]

theorem physRegs_index (p : PhysReg) : physRegs[p.index.val]? = some p := by cases p <;> rfl

/-- Two physical registers with one place are one register. -/
theorem PhysReg.index_injective {p q : PhysReg} (h : p.index = q.index) : p = q := by
  have hp := physRegs_index p
  rw [h, physRegs_index q] at hp
  exact (Option.some.inj hp).symm

@[simp] theorem phys_setPhys_same (s : State) (p : PhysReg) (v : Word) : (s.setPhys p v).phys p = v := by
  simp [State.phys, State.setPhys]

theorem phys_setPhys_other (s : State) (p q : PhysReg) (v : Word) (h : q ≠ p) : (s.setPhys p v).phys q = s.phys q := by
  have h1 : p.index.val ≠ q.index.val := fun e => h (PhysReg.index_injective (Fin.ext e)).symm
  have h2 := Vector.getElem_set_ne (xs := s.regs) (x := v) p.index.isLt q.index.isLt h1
  simpa [State.phys, State.setPhys] using h2

theorem phys_setPhys (s : State) (p q : PhysReg) (v : Word) :
    (s.setPhys p v).phys q = if q = p then v else s.phys q := by
  by_cases h : q = p
  · simp [h]
  · simp [h, phys_setPhys_other s p q v h]

/-- A physical register depends on the register vector alone. -/
theorem phys_congr {s t : State} (h : t.regs = s.regs) (p : PhysReg) : t.phys p = s.phys p := by
  simp [State.phys, h]

/-! ## Writing the status register -/

@[simp] theorem setCpsr_regs (s : State) (w : Word) : (s.setCpsr w).regs = s.regs := rfl
@[simp] theorem setCpsr_pc (s : State) (w : Word) : (s.setCpsr w).pc = s.pc := rfl
@[simp] theorem setCpsr_cpsr (s : State) (w : Word) : (s.setCpsr w).cpsr = w := rfl
@[simp] theorem setCpsr_spsr (s : State) (w : Word) : (s.setCpsr w).spsr = s.spsr := rfl
@[simp] theorem setCpsr_ns (s : State) (w : Word) : (s.setCpsr w).ns = s.ns := rfl
@[simp] theorem setCpsr_reservation (s : State) (w : Word) : (s.setCpsr w).reservation = s.reservation := rfl
@[simp] theorem setCpsr_mem (s : State) (w : Word) : (s.setCpsr w).mem = s.mem := rfl
@[simp] theorem setCpsr_irqLine (s : State) (w : Word) : (s.setCpsr w).irqLine = s.irqLine := rfl
@[simp] theorem setCpsr_fiqLine (s : State) (w : Word) : (s.setCpsr w).fiqLine = s.fiqLine := rfl
@[simp] theorem setCpsr_abortPending (s : State) (w : Word) : (s.setCpsr w).abortPending = s.abortPending := rfl
@[simp] theorem setCpsr_env (s : State) (w : Word) : (s.setCpsr w).env = s.env := rfl
@[simp] theorem setCpsr_torn (s : State) (w : Word) : (s.setCpsr w).torn = s.torn := rfl
@[simp] theorem setCpsr_freeCount (s : State) (w : Word) : (s.setCpsr w).freeCount = s.freeCount := rfl
@[simp] theorem setCpsr_params (s : State) (w : Word) : (s.setCpsr w).params = s.params := rfl
@[simp] theorem phys_setCpsr (s : State) (w : Word) (p : PhysReg) : (s.setCpsr w).phys p = s.phys p := rfl

/-! ## Writing a numbered register -/

theorem bankedReg_isSome {m : Mode} {r : Reg} (h : r ≠ 15) : (bankedReg m r).isSome = true := by
  cases m <;> revert r <;> decide

@[simp] theorem bankedReg_fifteen (m : Mode) : bankedReg m 15 = none := rfl

/-- In one mode, two numbers name one physical register only if they are equal (R22). -/
theorem bankedReg_injective {m : Mode} {r r' : Reg} {p : PhysReg} (h : bankedReg m r = some p) (h' : bankedReg m r' = some p) :
    r = r' := by
  have hs : ∀ r r' : Reg, bankedReg m r = bankedReg m r' → (bankedReg m r).isSome = true → r = r' := by
    cases m <;> decide +kernel
  exact hs r r' (h.trans h'.symm) (by simp [h])

@[simp] theorem setReg_cpsr (s : State) (r : Reg) (v : Word) : (s.setReg r v).cpsr = s.cpsr := by
  unfold State.setReg; split <;> rfl
@[simp] theorem setReg_spsr (s : State) (r : Reg) (v : Word) : (s.setReg r v).spsr = s.spsr := by
  unfold State.setReg; split <;> rfl
@[simp] theorem setReg_ns (s : State) (r : Reg) (v : Word) : (s.setReg r v).ns = s.ns := by
  unfold State.setReg; split <;> rfl
@[simp] theorem setReg_reservation (s : State) (r : Reg) (v : Word) : (s.setReg r v).reservation = s.reservation := by
  unfold State.setReg; split <;> rfl
@[simp] theorem setReg_mem (s : State) (r : Reg) (v : Word) : (s.setReg r v).mem = s.mem := by
  unfold State.setReg; split <;> rfl
@[simp] theorem setReg_irqLine (s : State) (r : Reg) (v : Word) : (s.setReg r v).irqLine = s.irqLine := by
  unfold State.setReg; split <;> rfl
@[simp] theorem setReg_fiqLine (s : State) (r : Reg) (v : Word) : (s.setReg r v).fiqLine = s.fiqLine := by
  unfold State.setReg; split <;> rfl
@[simp] theorem setReg_abortPending (s : State) (r : Reg) (v : Word) : (s.setReg r v).abortPending = s.abortPending := by
  unfold State.setReg; split <;> rfl
@[simp] theorem setReg_env (s : State) (r : Reg) (v : Word) : (s.setReg r v).env = s.env := by
  unfold State.setReg; split <;> rfl
@[simp] theorem setReg_torn (s : State) (r : Reg) (v : Word) : (s.setReg r v).torn = s.torn := by
  unfold State.setReg; split <;> rfl
@[simp] theorem setReg_freeCount (s : State) (r : Reg) (v : Word) : (s.setReg r v).freeCount = s.freeCount := by
  unfold State.setReg; split <;> rfl
@[simp] theorem setReg_params (s : State) (r : Reg) (v : Word) : (s.setReg r v).params = s.params := by
  unfold State.setReg; split <;> rfl

theorem setReg_pc (s : State) (r : Reg) (v : Word) (h : r ≠ 15) : (s.setReg r v).pc = s.pc := by
  obtain ⟨p, hp⟩ := Option.isSome_iff_exists.mp (bankedReg_isSome (m := s.mode) h)
  simp [State.setReg, hp]

@[simp] theorem setReg_mode (s : State) (r : Reg) (v : Word) : (s.setReg r v).mode = s.mode := by
  simp [State.mode]

@[simp] theorem setReg_privileged (s : State) (r : Reg) (v : Word) : (s.setReg r v).privileged = s.privileged := by
  simp [State.privileged]

theorem reg_setReg_same (s : State) (r : Reg) (v : Word) (h : r ≠ 15) : (s.setReg r v).reg r = v := by
  obtain ⟨p, hp⟩ := Option.isSome_iff_exists.mp (bankedReg_isSome (m := s.mode) h)
  have h1 : s.setReg r v = s.setPhys p v := by simp [State.setReg, hp]
  have h2 : (s.setPhys p v).mode = s.mode := rfl
  simp [State.reg, h1, h2, hp]

theorem reg_setReg_other (s : State) (r q : Reg) (v : Word) (h : r ≠ 15) (hq : q ≠ r) :
    (s.setReg r v).reg q = s.reg q := by
  obtain ⟨p, hp⟩ := Option.isSome_iff_exists.mp (bankedReg_isSome (m := s.mode) h)
  have h1 : s.setReg r v = s.setPhys p v := by simp [State.setReg, hp]
  have h2 : (s.setPhys p v).mode = s.mode := rfl
  rw [h1]
  unfold State.reg
  rw [h2]
  cases hq' : bankedReg s.mode q with
  | none => simp
  | some p' =>
    have h3 : p' ≠ p := fun e => hq (bankedReg_injective hq' (e ▸ hp))
    simp [phys_setPhys_other s p p' v h3]

/-- What writing a numbered register does to a physical one. -/
theorem phys_setReg (s : State) (r : Reg) (v : Word) (q : PhysReg) :
    (s.setReg r v).phys q = if bankedReg s.mode r = some q then v else s.phys q := by
  unfold State.setReg
  cases hp : bankedReg s.mode r with
  | none => rfl
  | some p =>
    by_cases h : q = p
    · simp [h]
    · have h1 : ¬ p = q := fun e => h e.symm
      simp [phys_setPhys_other s p q v h, h1]

/-- A numbered register depends on the register vector, the pc and the mode alone. -/
theorem reg_congr {s t : State} (hr : t.regs = s.regs) (hp : t.pc = s.pc) (hm : t.mode = s.mode) (r : Reg) :
    t.reg r = s.reg r := by
  simp [State.reg, hm, hp, State.phys, hr]

/-- A numbered register other than the pc does not depend on the pc. -/
theorem reg_withPc (s : State) (v : Word) (r : Reg) (h : r ≠ 15) : ({ s with pc := v } : State).reg r = s.reg r := by
  obtain ⟨p, hp⟩ := Option.isSome_iff_exists.mp (bankedReg_isSome (m := s.mode) h)
  have hm : ({ s with pc := v } : State).mode = s.mode := rfl
  simp [State.reg, hm, hp, State.phys]

/-! ## Saved status registers -/

theorem spsrOf_setSpsrOf_same (f : SpsrFile) (m : Mode) (w : Word) (h : (spsrOf f m).isSome = true) :
    spsrOf (setSpsrOf f m w) m = some w := by
  cases m <;> first | rfl | simp [spsrOf] at h

theorem spsrOf_setSpsrOf_other (f : SpsrFile) (m m' : Mode) (w : Word) (h : m' ≠ m) :
    spsrOf (setSpsrOf f m w) m' = spsrOf f m' := by
  cases m <;> cases m' <;> first | rfl | exact absurd rfl h

/-! ## Taking an exception -/

@[simp] theorem takeException_pc (e : Exception) (s : State) : (takeException e s).pc = exceptionVector s.params e := rfl
@[simp] theorem takeException_cpsr (e : Exception) (s : State) :
    (takeException e s).cpsr = entryPsr e s.params s.cpsr := rfl
@[simp] theorem takeException_spsr (e : Exception) (s : State) :
    (takeException e s).spsr = setSpsrOf s.spsr (exceptionMode e) s.cpsr := rfl
@[simp] theorem takeException_phys (e : Exception) (s : State) (q : PhysReg) :
    (takeException e s).phys q
      = if q = linkReg (exceptionMode e) then s.pc + exceptionReturnOffset e else s.phys q :=
  phys_setPhys s _ q _
@[simp] theorem takeException_ns (e : Exception) (s : State) : (takeException e s).ns = s.ns := rfl
@[simp] theorem takeException_reservation (e : Exception) (s : State) : (takeException e s).reservation = s.reservation := rfl
@[simp] theorem takeException_mem (e : Exception) (s : State) : (takeException e s).mem = s.mem := rfl
@[simp] theorem takeException_irqLine (e : Exception) (s : State) : (takeException e s).irqLine = s.irqLine := rfl
@[simp] theorem takeException_fiqLine (e : Exception) (s : State) : (takeException e s).fiqLine = s.fiqLine := rfl
@[simp] theorem takeException_abortPending (e : Exception) (s : State) : (takeException e s).abortPending = s.abortPending := rfl
@[simp] theorem takeException_env (e : Exception) (s : State) : (takeException e s).env = s.env := rfl
@[simp] theorem takeException_torn (e : Exception) (s : State) : (takeException e s).torn = s.torn := rfl
@[simp] theorem takeException_freeCount (e : Exception) (s : State) : (takeException e s).freeCount = s.freeCount := rfl
@[simp] theorem takeException_params (e : Exception) (s : State) : (takeException e s).params = s.params := rfl

end Sys2Proof.Machine
end

