-- ==== Sys2Proof/Laws/Ops.lean ====
section
/-! SUPPORT. For each shared operation, once, everything it can do: if it answers, then one of these cases holds. -/

namespace Sys2Proof.Machine

/-! ## Going on -/

/-- What `advance` answers: the pc plus 4, or the refusal past the last address. -/
theorem advance_cases (s : State) :
    (s.pc.toNat + 4 < 2 ^ 32 ∧ s.advance = .next { s with pc := s.pc + 4#32 })
      ∨ (2 ^ 32 ≤ s.pc.toNat + 4 ∧ s.advance = .refused .sequentialWrap) := by
  unfold State.advance
  by_cases h : s.pc.toNat + 4 < 2 ^ 32
  · exact Or.inl ⟨h, if_pos h⟩
  · exact Or.inr ⟨by omega, if_neg h⟩

theorem advance_next {s t : State} (h : s.advance = .next t) :
    s.pc.toNat + 4 < 2 ^ 32 ∧ t = { s with pc := s.pc + 4#32 } := by
  rcases advance_cases s with ⟨h1, h2⟩ | ⟨-, h2⟩
  · rw [h2] at h; exact ⟨h1, (Host.Outcome.next.inj h).symm⟩
  · rw [h2] at h; exact nomatch h

theorem advance_of_lt {s : State} (h : s.pc.toNat + 4 < 2 ^ 32) : s.advance = .next { s with pc := s.pc + 4#32 } := by
  exact if_pos h

theorem psrT_of_armState {s : State} (h : s.armState = true) : psrT s.cpsr = false := by
  simp only [State.armState, Bool.and_eq_true, Bool.not_eq_true'] at h; exact h.1

/-- What `jump` answers with a next state: the target, aligned if it leaves T = 0. -/
theorem jump_next {s t : State} {a : Word} (h : s.jump a = .next t) :
    (psrT s.cpsr = false → wordAligned a = true) ∧ t = { s with pc := a } := by
  unfold State.jump at h
  split at h
  · exact nomatch h
  · rename_i hc
    refine ⟨fun ha => ?_, (Host.Outcome.next.inj h).symm⟩
    simpa [ha] using hc

theorem jump_of_aligned {s : State} {a : Word} (h : psrT s.cpsr = false → wordAligned a = true) :
    s.jump a = .next { s with pc := a } := by
  unfold State.jump
  cases ha : psrT s.cpsr
  · simp [h ha]
  · simp

/-! ## Guards -/

theorem atLevel_next {need : Arch} {s t : State} {body : Result} (h : atLevel need s body = .next t) :
    Arch.rank need ≤ Arch.rank s.params.arch ∧ body = .next t := by
  unfold atLevel at h
  split at h
  · exact ⟨‹_›, h⟩
  · exact nomatch h

theorem atLevel_of_le {need : Arch} {s : State} {body : Result} (h : Arch.rank need ≤ Arch.rank s.params.arch) :
    atLevel need s body = body := by simp [atLevel, h]

theorem conditional_next {c : Cond} {s t : State} {body : Result} (h : conditional c s body = .next t) :
    (conditionPassed c s.cpsr = true ∧ body = .next t) ∨ (conditionPassed c s.cpsr = false ∧ s.advance = .next t) := by
  unfold conditional at h
  split at h
  · exact Or.inl ⟨‹_›, h⟩
  · rename_i hc; exact Or.inr ⟨by simpa using hc, h⟩

theorem conditional_of_passed {c : Cond} {s : State} {body : Result} (h : conditionPassed c s.cpsr = true) :
    conditional c s body = body := by simp [conditional, h]

theorem conditional_of_failed {c : Cond} {s : State} {body : Result} (h : conditionPassed c s.cpsr = false) :
    conditional c s body = s.advance := by simp [conditional, h]

theorem withoutR15_next {rs : List Reg} {t : State} {body : Result} (h : withoutR15 rs body = .next t) :
    rs.contains 15 = false ∧ body = .next t := by
  unfold withoutR15 at h
  split at h
  · exact nomatch h
  · rename_i hc; exact ⟨by simpa using hc, h⟩

theorem withoutR15_of_not_contains {rs : List Reg} {body : Result} (h : rs.contains 15 = false) : withoutR15 rs body = body := by
  simp only [withoutR15, h]; rfl

theorem refuseIf_next {bad : Bool} {t : State} {body : Result} (h : refuseIf bad body = .next t) :
    bad = false ∧ body = .next t := by
  unfold refuseIf at h
  split at h
  · exact nomatch h
  · rename_i hc; exact ⟨by simpa using hc, h⟩

@[simp] theorem refuseIf_false (body : Result) : refuseIf false body = body := rfl

/-- What a register instruction answers with a next state: its update, or nothing but the next pc when its condition fails. -/
theorem registerStep_next {need : Arch} {c : Cond} {rs : List Reg} {s u t : State} (h : registerStep need c rs s u = .next t) :
    Arch.rank need ≤ Arch.rank s.params.arch
      ∧ ((conditionPassed c s.cpsr = true ∧ rs.contains 15 = false ∧ u.advance = .next t)
        ∨ (conditionPassed c s.cpsr = false ∧ s.advance = .next t)) := by
  obtain ⟨h1, h2⟩ := atLevel_next h
  refine ⟨h1, ?_⟩
  rcases conditional_next h2 with ⟨hc, h3⟩ | ⟨hc, h3⟩
  · obtain ⟨h4, h5⟩ := withoutR15_next h3
    exact Or.inl ⟨hc, h4, h5⟩
  · exact Or.inr ⟨hc, h3⟩

/-- A register instruction whose condition passes and that names no register 15 completes. -/
theorem registerStep_of_passed {need : Arch} {c : Cond} {rs : List Reg} {s u : State}
    (hl : Arch.rank need ≤ Arch.rank s.params.arch) (hc : conditionPassed c s.cpsr = true) (hr : rs.contains 15 = false)
    (hp : u.pc.toNat + 4 < 2 ^ 32) : registerStep need c rs s u = .next { u with pc := u.pc + 4#32 } := by
  rw [registerStep, atLevel_of_le hl, conditional_of_passed hc, withoutR15_of_not_contains hr, advance_of_lt hp]

/-! ## Memory accesses -/

theorem andThen_next {α : Type} {s t : State} {a : Access α} {k : α → Result} (h : a.andThen s k = .next t) :
    (∃ v, a = .ok v ∧ k v = .next t) ∨ (a = .abort ∧ t = takeException .dataAbort s) := by
  cases a with
  | ok v => exact Or.inl ⟨v, rfl, h⟩
  | abort => exact Or.inr ⟨rfl, (Host.Outcome.next.inj h).symm⟩
  | fault f => exact nomatch h
  | refused r => exact nomatch h

@[simp] theorem andThen_ok {α : Type} (s : State) (v : α) (k : α → Result) : (Access.ok v).andThen s k = k v := rfl

theorem memRead_ok {s : State} {a : Word} {n : Nat} {v : Word} (h : memRead s a n = .ok v) :
    a.toNat + n ≤ 2 ^ 32 ∧ s.secureViolation a.toNat n = false
      ∧ ∃ bs, readBytes s.mem a.toNat n = .ok bs ∧ v = assemble s.bigEndian bs := by
  unfold memRead at h
  split at h
  · exact nomatch h
  · rename_i h1
    split at h
    · exact nomatch h
    · rename_i h2
      refine ⟨by omega, by simpa using h2, ?_⟩
      cases hb : readBytes s.mem a.toNat n with
      | ok bs => rw [hb] at h; exact ⟨bs, rfl, (Access.ok.inj h).symm⟩
      | error k => rw [hb] at h; exact nomatch h

/-- The conditions under which a read completes. -/
theorem memRead_of_readable {s : State} {a : Word} {n : Nat} {bs : List Byte} (h1 : a.toNat + n ≤ 2 ^ 32)
    (h2 : s.secureViolation a.toNat n = false) (h3 : readBytes s.mem a.toNat n = .ok bs) :
    memRead s a n = .ok (assemble s.bigEndian bs) := by
  have h4 : ¬ 2 ^ 32 < a.toNat + n := by omega
  simp only [memRead, if_neg h4, h2, h3]; rfl

theorem memRead_abort {s : State} {a : Word} {n : Nat} (h : memRead s a n = .abort) :
    a.toNat + n ≤ 2 ^ 32 ∧ s.secureViolation a.toNat n = true := by
  unfold memRead at h
  split at h
  · exact nomatch h
  · rename_i h1
    split at h
    · exact ⟨by omega, ‹_›⟩
    · cases hb : readBytes s.mem a.toNat n <;> rw [hb] at h <;> exact nomatch h

theorem memWrite_ok {s t : State} {a : Word} {n : Nat} {v : Word} (h : memWrite s a n v = .ok t) :
    a.toNat + n ≤ 2 ^ 32 ∧ s.secureViolation a.toNat n = false ∧ rangeInRegions s.params.programText a.toNat n = false
      ∧ t = { s with mem := writeBytes s.mem a.toNat (disassemble s.bigEndian n v) } := by
  unfold memWrite at h
  split at h
  · exact nomatch h
  · rename_i h1
    split at h
    · exact nomatch h
    · rename_i h2
      split at h
      · exact nomatch h
      · rename_i h3
        exact ⟨by omega, by simpa using h2, by simpa using h3, (Access.ok.inj h).symm⟩

/-- The conditions under which a write completes. -/
theorem memWrite_of_writable {s : State} {a : Word} {n : Nat} (v : Word) (h1 : a.toNat + n ≤ 2 ^ 32)
    (h2 : s.secureViolation a.toNat n = false) (h3 : rangeInRegions s.params.programText a.toNat n = false) :
    memWrite s a n v = .ok { s with mem := writeBytes s.mem a.toNat (disassemble s.bigEndian n v) } := by
  have h4 : ¬ 2 ^ 32 < a.toNat + n := by omega
  simp only [memWrite, if_neg h4, h2, h3]; rfl

/-- A word-aligned address leaves room for a word below the top of the address space. -/
theorem wordAligned_room {a : Word} (h : wordAligned a = true) : a.toNat % 4 = 0 ∧ a.toNat + 4 ≤ 2 ^ 32 := by
  have h1 : getField a 0 2 = 0#2 := by simpa [wordAligned] using h
  have h2 : a.toNat % 4 = 0 := by simpa [getField] using congrArg BitVec.toNat h1
  have := a.isLt
  omega

theorem loadAligned_ok {s : State} {a v : Word} (h : loadAligned s a = .ok v) : wordAligned a = true ∧ memRead s a 4 = .ok v := by
  unfold loadAligned at h
  split at h
  · exact ⟨‹_›, h⟩
  · exact nomatch h

theorem storeAligned_ok {s t : State} {a v : Word} (h : storeAligned s a v = .ok t) :
    wordAligned a = true ∧ memWrite s a 4 v = .ok t := by
  unfold storeAligned at h
  split at h
  · exact ⟨‹_›, h⟩
  · exact nomatch h

/-- What an unaligned read answers: the bytes as they were when read, after one check of the whole access. -/
theorem unalignedRead_ok {s t : State} {a v : Word} (h : unalignedRead s a = .ok (v, t)) :
    a.toNat + 4 ≤ 2 ^ 32 ∧ s.secureViolation a.toNat 4 = false
      ∧ t = { afterAccess s (s.torn.headD []) with torn := s.torn.tail }
      ∧ ∃ bs, bytesDuring s a.toNat (s.torn.headD []) = .ok bs ∧ v = assemble s.bigEndian bs := by
  unfold unalignedRead at h
  split at h
  · exact nomatch h
  · rename_i h1
    split at h
    · exact nomatch h
    · rename_i h2
      dsimp only at h
      cases hb : bytesDuring s a.toNat (s.torn.headD []) with
      | ok bs =>
        rw [hb] at h
        obtain ⟨rfl, rfl⟩ := Prod.mk.inj (Access.ok.inj h)
        exact ⟨by omega, by simpa using h2, rfl, bs, rfl, rfl⟩
      | error k => rw [hb] at h; exact nomatch h

/-- What an ordinary load answers: at a multiple of 4 one read that changes nothing, elsewhere at v6 an unaligned read. -/
theorem loadWord_ok {s t : State} {a v : Word} (h : loadWord s a = .ok (v, t)) :
    (wordAligned a = true ∧ memRead s a 4 = .ok v ∧ t = s)
      ∨ (wordAligned a = false ∧ s.params.arch = .v6 ∧ unalignedRead s a = .ok (v, t)) := by
  unfold loadWord at h
  split at h
  · rename_i h1
    cases hm : memRead s a 4 with
    | ok w =>
      rw [hm] at h
      obtain ⟨rfl, rfl⟩ := Prod.mk.inj (Access.ok.inj h)
      exact Or.inl ⟨h1, rfl, rfl⟩
    | abort => rw [hm] at h; exact nomatch h
    | fault f => rw [hm] at h; exact nomatch h
    | refused r => rw [hm] at h; exact nomatch h
  · rename_i h1
    split at h
    · exact Or.inr ⟨by simpa using h1, ‹_›, h⟩
    · exact nomatch h

/-- With no event scheduled an unaligned read reads the four bytes at once. -/
theorem bytesDuring_nil {s : State} {a : Nat} {bs : List Byte} (h : readBytes s.mem a 4 = .ok bs) : bytesDuring s a [] = .ok bs := by
  revert h
  cases h0 : readByte s.mem a <;> cases h1 : readByte s.mem (a + 1) <;> cases h2 : readByte s.mem (a + 2) <;>
    cases h3 : readByte s.mem (a + 3) <;> simp [readBytes, bytesDuring, byteDuring, h0, h1, h2, h3, Nat.add_assoc]

/-- A write keeps the canonical form of memory. -/
theorem memWrite_wf {s t : State} {a : Word} {n : Nat} {v : Word} (h : memWrite s a n v = .ok t) (hw : memoryWf s.mem) :
    memoryWf t.mem := by
  obtain ⟨h1, -, -, rfl⟩ := memWrite_ok h
  exact memoryWf_writeBytes hw (by simpa using h1)

/-- A write leaves every byte outside it alone. -/
theorem memWrite_outside {s t : State} {a : Word} {n : Nat} {v : Word} (h : memWrite s a n v = .ok t) (b : Nat)
    (hb : b < a.toNat ∨ a.toNat + n ≤ b) : readByte t.mem b = readByte s.mem b := by
  obtain ⟨-, -, -, rfl⟩ := memWrite_ok h
  exact readByte_writeBytes_outside _ _ _ _ (by simpa using hb)

/-! ## The environment -/

/-- One action of the environment changes no register, pc, status or parameter, and keeps the canonical form of memory. -/
theorem envAct_frame (s : State) (e : EnvAction) :
    (envAct s e).regs = s.regs ∧ (envAct s e).pc = s.pc ∧ (envAct s e).cpsr = s.cpsr ∧ (envAct s e).spsr = s.spsr
      ∧ (envAct s e).ns = s.ns ∧ (envAct s e).params = s.params ∧ (envAct s e).freeCount = s.freeCount
      ∧ (memoryWf s.mem → memoryWf (envAct s e).mem)
      ∧ ((envAct s e).reservation = s.reservation ∨ (envAct s e).reservation = none) := by
  cases e with
  | writeByte a v =>
    refine ⟨rfl, rfl, rfl, rfl, rfl, rfl, rfl, fun h => memoryWf_writeByte h a.isLt, ?_⟩
    by_cases h : s.reserved a = true
    · exact Or.inr (if_pos h)
    · exact Or.inl (if_neg h)
  | clearReservation => exact ⟨rfl, rfl, rfl, rfl, rfl, rfl, rfl, id, Or.inr rfl⟩
  | setIrq on => exact ⟨rfl, rfl, rfl, rfl, rfl, rfl, rfl, id, Or.inl rfl⟩
  | setFiq on => exact ⟨rfl, rfl, rfl, rfl, rfl, rfl, rfl, id, Or.inl rfl⟩
  | impreciseAbort => exact ⟨rfl, rfl, rfl, rfl, rfl, rfl, rfl, id, Or.inl rfl⟩

theorem envActs_frame (s : State) (es : List EnvAction) :
    (es.foldl envAct s).regs = s.regs ∧ (es.foldl envAct s).pc = s.pc ∧ (es.foldl envAct s).cpsr = s.cpsr
      ∧ (es.foldl envAct s).spsr = s.spsr ∧ (es.foldl envAct s).ns = s.ns ∧ (es.foldl envAct s).params = s.params
      ∧ (es.foldl envAct s).freeCount = s.freeCount ∧ (memoryWf s.mem → memoryWf (es.foldl envAct s).mem)
      ∧ ((es.foldl envAct s).reservation = s.reservation ∨ (es.foldl envAct s).reservation = none) := by
  induction es generalizing s with
  | nil => exact ⟨rfl, rfl, rfl, rfl, rfl, rfl, rfl, id, Or.inl rfl⟩
  | cons e es ih =>
    obtain ⟨a1, a2, a3, a4, a5, a6, a7, a8, a9⟩ := envAct_frame s e
    obtain ⟨b1, b2, b3, b4, b5, b6, b7, b8, b9⟩ := ih (envAct s e)
    refine ⟨b1.trans a1, b2.trans a2, b3.trans a3, b4.trans a4, b5.trans a5, b6.trans a6, b7.trans a7,
      fun h => b8 (a8 h), ?_⟩
    rcases b9 with h | h
    · rcases a9 with h' | h'
      · exact Or.inl (h.trans h')
      · exact Or.inr (h.trans h')
    · exact Or.inr h

/-- The environment's turn changes memory, the reservation, the interrupt inputs and its own schedule, and nothing else. -/
theorem environmentTurn_frame (s : State) :
    (environmentTurn s).regs = s.regs ∧ (environmentTurn s).pc = s.pc ∧ (environmentTurn s).cpsr = s.cpsr
      ∧ (environmentTurn s).spsr = s.spsr ∧ (environmentTurn s).ns = s.ns ∧ (environmentTurn s).params = s.params
      ∧ (environmentTurn s).freeCount = s.freeCount ∧ (memoryWf s.mem → memoryWf (environmentTurn s).mem)
      ∧ ((environmentTurn s).reservation = s.reservation ∨ (environmentTurn s).reservation = none) := by
  unfold environmentTurn
  cases s.env with
  | nil => exact ⟨rfl, rfl, rfl, rfl, rfl, rfl, rfl, id, Or.inl rfl⟩
  | cons es rest => exact envActs_frame { s with env := rest } es

/-- What the environment does during an access is what it does between steps, without the reads. -/
theorem afterAccess_eq_foldl (s : State) (es : List AccessEvent) :
    ∃ acts : List EnvAction, afterAccess s es = acts.foldl envAct s := by
  induction es generalizing s with
  | nil => exact ⟨[], rfl⟩
  | cons e es ih =>
    cases e with
    | byte k => exact ih s
    | act e => obtain ⟨acts, h⟩ := ih (envAct s e); exact ⟨e :: acts, h⟩

/-- Neither the environment's turn nor what it does during an access touches the schedules. -/
theorem envActs_schedule (s : State) (es : List EnvAction) :
    (es.foldl envAct s).env = s.env ∧ (es.foldl envAct s).torn = s.torn := by
  induction es generalizing s with
  | nil => exact ⟨rfl, rfl⟩
  | cons e es ih => obtain ⟨h1, h2⟩ := ih (envAct s e); cases e <;> exact ⟨h1, h2⟩

/-- The state after an ordinary load differs from the one before in memory, the reservation, the interrupt inputs and the schedule of
unaligned accesses alone. -/
theorem loadWord_frame {s t : State} {a v : Word} (h : loadWord s a = .ok (v, t)) :
    t.regs = s.regs ∧ t.pc = s.pc ∧ t.cpsr = s.cpsr ∧ t.spsr = s.spsr ∧ t.ns = s.ns ∧ t.params = s.params
      ∧ t.freeCount = s.freeCount ∧ (memoryWf s.mem → memoryWf t.mem)
      ∧ (t.reservation = s.reservation ∨ t.reservation = none) := by
  rcases loadWord_ok h with ⟨-, -, rfl⟩ | ⟨-, -, h⟩
  · exact ⟨rfl, rfl, rfl, rfl, rfl, rfl, rfl, id, Or.inl rfl⟩
  · obtain ⟨-, -, rfl, -⟩ := unalignedRead_ok h
    obtain ⟨acts, ha⟩ := afterAccess_eq_foldl s (s.torn.headD [])
    rw [ha]
    exact envActs_frame s acts

/-! ## Modes -/

theorem psrMode_entryPsr (e : Exception) (p : Params) (w : Word) : psrMode (entryPsr e p w) = (exceptionMode e).bits := by
  unfold entryPsr psrMode psrSetE psrSetA psrSetF psrSetI psrSetJ psrSetT psrSetMode
  cases exceptionSetsF e <;> cases exceptionSetsA e <;> simp (disch := decide)

theorem armState_takeException (e : Exception) (s : State) : (takeException e s).armState = true := by
  unfold State.armState
  rw [takeException_cpsr]
  unfold entryPsr psrT psrJ psrSetE psrSetA psrSetF psrSetI psrSetJ psrSetT psrSetMode
  cases exceptionSetsF e <;> cases exceptionSetsA e <;> simp (disch := decide)

end Sys2Proof.Machine
end

