-- ==== Sys2Proof/Laws/Step.lean ====
section
/-! SUPPORT. What a step, a fetch, an exchange branch, an exception entry and a return can do, each said once. -/

namespace Sys2Proof.Machine

/-! ## Bits of the status register -/

theorem getLsbD_putBit (w : Word) (i : Nat) (v : Bool) (k : Nat) (h : i < 32) :
    (putBit w i v).getLsbD k = if k = i then v else w.getLsbD k := by
  unfold putBit
  rw [getLsbD_putField _ _ _ (by omega)]
  by_cases hk : k = i
  · subst hk; simp
  · have : ¬ (i ≤ k ∧ k < i + 1) := by omega
    simp only [hk, this, if_false]

theorem getLsbD_psrOrQ (w : Word) (q : Bool) (k : Nat) :
    (psrOrQ w q).getLsbD k = if k = 27 then (w.getLsbD 27 || q) else w.getLsbD k := by
  unfold psrOrQ psrSetQ
  cases q
  · split <;> simp_all
  · simp only [if_true]
    rw [getLsbD_putBit _ _ _ _ (by decide)]; simp

/-- Two status registers with equal mode bits have one mode number. -/
theorem psrMode_of_same {w w' : Word} (h : ∀ k, k < 5 → w'.getLsbD k = w.getLsbD k) : psrMode w' = psrMode w := by
  apply BitVec.eq_of_getLsbD_eq
  intro i hi
  simp only [psrMode, getField, BitVec.getLsbD_extractLsb', Nat.zero_add]
  simp [hi, h i hi]

@[simp] theorem psrMode_psrSetMode (w : Word) (b : BitVec 5) : psrMode (psrSetMode w b) = b := by simp [psrMode, psrSetMode]

@[simp] theorem ofBits_bits (m : Mode) : Mode.ofBits m.bits = some m := by cases m <;> rfl

theorem bits_of_ofBits {n : BitVec 5} {m : Mode} (h : Mode.ofBits n = some m) : m.bits = n := by
  cases m <;> revert h <;> revert n <;> decide

/-- Every bit of the status register after an exception entry (R303). -/
theorem getLsbD_entryPsr (e : Exception) (p : Params) (w : Word) (k : Nat) :
    (entryPsr e p w).getLsbD k =
      if k < 5 then (exceptionMode e).bits.getLsbD k
      else if k = 5 then false
      else if k = 6 then (exceptionSetsF e || w.getLsbD 6)
      else if k = 7 then true
      else if k = 8 then (exceptionSetsA e || w.getLsbD 8)
      else if k = 9 then p.resetE
      else if k = 24 then false
      else w.getLsbD k := by
  unfold entryPsr psrSetE psrSetA psrSetF psrSetI psrSetJ psrSetT psrSetMode
  cases exceptionSetsF e <;> cases exceptionSetsA e <;>
    simp (disch := decide) only [getLsbD_putBit, getLsbD_putField, if_true, if_false, Bool.false_eq_true, Bool.true_or,
      Bool.false_or] <;> split_ifs <;> first | omega | rfl | simp_all

/-! ## Addresses -/

theorem wordAligned_iff {a : Word} : wordAligned a = true ↔ a.toNat % 4 = 0 := by
  refine ⟨fun h => (wordAligned_room h).1, fun h => ?_⟩
  have : a.extractLsb' 0 2 = 0#2 := by apply BitVec.eq_of_toNat_eq; simp [BitVec.extractLsb'_toNat]; omega
  simp [wordAligned, getField, this]

theorem wordAligned_add_four {a : Word} (h : wordAligned a = true) : wordAligned (a + 4#32) = true := by
  rw [wordAligned_iff] at *; simp; omega

theorem branchOffset_aligned (imm24 : BitVec 24) {a : Word} (h : wordAligned a = true) :
    wordAligned (a + 8#32 + branchOffset imm24) = true := by
  rw [wordAligned_iff] at *
  have h1 : (branchOffset imm24).toNat % 4 = 0 := by
    simp only [branchOffset, BitVec.toNat_shiftLeft, Nat.shiftLeft_eq]; omega
  simp; omega

/-! ## Reading words -/

theorem readBytes_four {m : Memory} {a : Nat} {b0 b1 b2 b3 : Byte} (h0 : readByte m a = some b0)
    (h1 : readByte m (a + 1) = some b1) (h2 : readByte m (a + 2) = some b2) (h3 : readByte m (a + 3) = some b3) :
    readBytes m a 4 = .ok [b0, b1, b2, b3] := by
  simp [readBytes, h0, h1, h2, h3, Nat.add_assoc]

/-- Four bytes taken from a word and put together again. -/
theorem littleValue_word (v : Word) :
    BitVec.ofNat 32 (littleValue [v.extractLsb' 0 8, v.extractLsb' 8 8, v.extractLsb' 16 8, v.extractLsb' 24 8]) = v := by
  apply BitVec.eq_of_toNat_eq
  simp only [littleValue, BitVec.toNat_ofNat, BitVec.extractLsb'_toNat, Nat.shiftRight_eq_div_pow]
  have := v.isLt
  omega

/-- An access of `n` bytes stops at the first that holds nothing. -/
theorem readBytes_error {m : Memory} {a k n : Nat} (hk : k < n) (h : readByte m (a + k) = none)
    (hj : ∀ j, j < k → (readByte m (a + j)).isSome = true) : readBytes m a n = .error (a + k) := by
  induction n generalizing a k with
  | zero => omega
  | succ n ih =>
    cases k with
    | zero => simp at h; simp [readBytes, h]
    | succ k =>
      obtain ⟨b, hb⟩ := Option.isSome_iff_exists.mp (hj 0 (by omega))
      have h1 := ih (a := a + 1) (k := k) (by omega) (by rw [← h]; congr 1; omega) (fun j hj' => by
        have := hj (j + 1) (by omega); rw [← this]; congr 2; omega)
      simp at hb
      simp [readBytes, hb, h1]; omega

/-! ## Control transfers -/

/-- What an exchange branch answers with a next state (R121, R266). -/
theorem exchange_next {s t : State} {a : Word} (h : s.exchange a = .next t) :
    t = { s.setCpsr (psrSetT s.cpsr (getBit a 0)) with pc := putBit a 0 false }
      ∧ (psrT t.cpsr = false → wordAligned t.pc = true) := by
  obtain ⟨h1, rfl⟩ := jump_next h
  exact ⟨rfl, h1⟩

/-- What a return from an exception answers with a next state (R144, R304). -/
theorem returnFromException_next {s t : State} {newPc newCpsr : Word} (h : returnFromException s newPc newCpsr = .next t) :
    t = { s.setCpsr newCpsr with pc := newPc } ∧ (Mode.ofBits (psrMode newCpsr)).isSome = true
      ∧ (psrT t.cpsr = false → wordAligned t.pc = true) := by
  unfold returnFromException at h
  split at h
  · exact nomatch h
  · rename_i m hm
    obtain ⟨h1, rfl⟩ := jump_next h
    exact ⟨rfl, by rw [hm]; rfl, h1⟩

/-- A pending exception is taken by the entry of R303, an imprecise abort from the state in which it is no longer pending. -/
theorem takePending_cases (e : Exception) (s : State) :
    takePending e s = takeException e s ∨ takePending e s = takeException e { s with abortPending := false } := by
  cases e <;> first | exact Or.inl rfl | exact Or.inr rfl

/-! ## The step -/

/-- The coming step runs the instruction that `nextInstruction` names. -/
theorem step_of_nextInstruction {s : State} {i : Instr} (h : s.nextInstruction = some i) : step s = exec i (environmentTurn s) := by
  unfold State.nextInstruction at h
  dsimp only at h
  split at h
  · rename_i hc
    simp only [Bool.and_eq_true, Option.isNone_iff_eq_none] at hc
    obtain ⟨m, hm⟩ := Option.isSome_iff_exists.mp hc.1.1
    unfold step
    rw [hm]
    dsimp only
    rw [hc.1.2]
    dsimp only
    rw [if_pos hc.2]
    cases hf : fetchWord (environmentTurn s) with
    | ok w =>
      rw [hf] at h
      dsimp only at h
      cases hd : decodeWord w with
      | ok j => rw [hd] at h; cases h; simp only [hd]
      | error e => rw [hd] at h; exact nomatch h
    | abort => rw [hf] at h; exact nomatch h
    | fault f => rw [hf] at h; exact nomatch h
    | refused r => rw [hf] at h; exact nomatch h
  · exact nomatch h

/-- What a step answers with a next state: a pending exception taken, a fetch aborted, or a decoded instruction run. -/
theorem step_next {s t : State} (h : step s = .next t) :
    (∃ m, Mode.ofBits (psrMode s.cpsr) = some m)
      ∧ ((∃ e, (environmentTurn s).pendingException = some e ∧ t = takePending e (environmentTurn s))
        ∨ (fetchWord (environmentTurn s) = .abort ∧ t = takeException .prefetchAbort (environmentTurn s))
        ∨ ∃ w i, (environmentTurn s).armState = true ∧ fetchWord (environmentTurn s) = .ok w ∧ decodeWord w = .ok i
            ∧ exec i (environmentTurn s) = .next t) := by
  unfold step at h
  split at h
  · exact nomatch h
  · rename_i m hm
    refine ⟨⟨m, hm⟩, ?_⟩
    dsimp only at h
    split at h
    · rename_i e he; exact Or.inl ⟨e, he, (Host.Outcome.next.inj h).symm⟩
    · split at h
      · rename_i ha
        split at h
        · rename_i w hw
          split at h
          · rename_i i hi; exact Or.inr (Or.inr ⟨w, i, ha, hw, hi, h⟩)
          · exact nomatch h
        · rename_i hf; exact Or.inr (Or.inl ⟨hf, (Host.Outcome.next.inj h).symm⟩)
        · exact nomatch h
        · exact nomatch h
      · exact nomatch h

end Sys2Proof.Machine
end

