-- ==== Sys2Proof/Tests/Slice0.lean ====
section
/-! SUPPORT. Tests. Expected results are those of spec/95_test_vectors.md (V<n>, P<n>) or worked out by hand from the rule that a
comment names; the last part shows, for each statement with hypotheses, a state and operands that meet them. -/

-- One theorem after another: in parallel, the many small kernel checks would each hold a thread.
set_option Elab.async false

namespace Sys2Proof.Tests

open Sys2Proof Sys2Proof.Machine

/-! ## Helpers -/

/-- The start of the programs of 95_test_vectors.md: user mode, pc = 0x8000, nothing else set. -/
def user : State := { State.reset with pc := 0x8000#32, cpsr := 0x00000010#32 }

def svc : State := { user with cpsr := 0x00000013#32 }

/-- `s` with these general registers. -/
def set (s : State) (l : List (Reg × Word)) : State := l.foldl (fun s p => s.setReg p.1 p.2) s

/-- `s` with a word in memory, low byte first. -/
def put (s : State) (a : Nat) (w : Word) : State := { s with mem := writeBytes s.mem a (bytesOfWord w) }

def atLevel' (a : Arch) (s : State) : State := { s with params := { s.params with arch := a } }

/-- `s` on a non-secure processor, with secure memory from 0x3000 and program text from 0x8000. -/
def guarded (s : State) : State :=
  { s with ns := true, params := { s.params with secureRegions := [⟨0x3000, 0x1000⟩], programText := [⟨0x8000, 0x1000⟩] } }

def stateOf : Result → Option State
  | .next t => some t
  | _ => none

def goesOn (r : Result) : Bool := (stateOf r).isSome
def regOf (r : Result) (k : Reg) : Option Word := (stateOf r).map (·.reg k)
def regsOf (r : Result) (ks : List Reg) : Option (List Word) := (stateOf r).map fun t => ks.map t.reg
def pcOf (r : Result) : Option Word := (stateOf r).map (·.pc)
def cpsrOf (r : Result) : Option Word := (stateOf r).map (·.cpsr)
def qOf (r : Result) : Option Bool := (stateOf r).map fun t => psrQ t.cpsr
def geOf (r : Result) : Option (BitVec 4) := (stateOf r).map fun t => psrGE t.cpsr

/-- The word at an address, little-endian. -/
def wordAt (s : State) (a : Nat) : Option Word :=
  match readBytes s.mem a 4 with
  | .ok bs => some (assemble false bs)
  | .error _ => none

def refusalOf : Result → Option Refusal
  | .refused r => some r
  | _ => none

def faultOf : Result → Option Fault
  | .fault f => some f
  | _ => none

def dec (w : Word) : Option Instr := (decodeWord w).toOption

def decErr (w : Word) : Option DecodeError :=
  match decodeWord w with
  | .ok _ => none
  | .error e => some e

/-! ## Well-formedness: one ill-formed term for each check -/

theorem test_wf_refuses_pkhbt_lsl_32 : (Instr.pkhbt .al 0 1 2 32).wf = false := by decide
theorem test_wf_refuses_pkhtb_asr_0 : (Instr.pkhtb .al 0 1 2 0).wf = false := by decide
theorem test_wf_refuses_pkhtb_asr_33 : (Instr.pkhtb .al 0 1 2 33).wf = false := by decide
theorem test_wf_refuses_cps_of_nothing : (Instr.cps .keep none).wf = false := by decide
theorem test_wf_refuses_ssat_width_0 : (Instr.ssat .al 0 0 1 (.lsl 0)).wf = false := by decide
theorem test_wf_refuses_ssat_width_33 : (Instr.ssat .al 0 33 1 (.lsl 0)).wf = false := by decide
theorem test_wf_refuses_ssat_lsl_32 : (Instr.ssat .al 0 8 1 (.lsl 32)).wf = false := by decide
theorem test_wf_refuses_ssat_asr_0 : (Instr.ssat .al 0 8 1 (.asr 0)).wf = false := by decide
theorem test_wf_refuses_ssat_asr_33 : (Instr.ssat .al 0 8 1 (.asr 33)).wf = false := by decide
theorem test_wf_refuses_smlad_rn_15 : (Instr.smlad false .al 0 1 2 15).wf = false := by decide
theorem test_wf_refuses_smlsd_rn_15 : (Instr.smlsd true .al 0 1 2 15).wf = false := by decide

/-! ## Decoding: words written out from R93 to R98 and G3's rows, every constructor -/

/-- V1, V2, V4 to V6, V8, V9, V11, V12, V14 to V16, V18 to V20. -/
theorem test_decode_sourced :
    dec 0xE12FFF33#32 = some (.blxReg .al 3) ∧ dec 0x012FFF3E#32 = some (.blxReg .eq 14)
      ∧ dec 0xE12FFF22#32 = some (.bxj .al 2) ∧ dec 0xFA000001#32 = some (.blxLabel false 1#24)
      ∧ dec 0xFBFFFFFF#32 = some (.blxLabel true 0xFFFFFF#24) ∧ dec 0xE16F0F11#32 = some (.clz .al 0 1)
      ∧ dec 0xE16F2F10#32 = some (.clz .al 2 0) ∧ dec 0xE1200070#32 = some (.bkpt 0#16)
      ∧ dec 0xE12ABC7D#32 = some (.bkpt 0xABCD#16) ∧ dec 0xF5D1F004#32 = some (.pld false true 1 4#12)
      ∧ dec 0xF551F004#32 = some (.pld false false 1 4#12) ∧ dec 0xF7D1F002#32 = some (.pld true true 1 2#12)
      ∧ dec 0xE6830810#32 = some (.pkhbt .al 0 3 0 16) ∧ dec 0xE6810852#32 = some (.pkhtb .al 0 1 2 16)
      ∧ dec 0xE6810052#32 = some (.pkhtb .al 0 1 2 32) := by decide +kernel

/-- V3, V10, V13, V17, V22: near misses; V21 and a word of USADA8's; G3's MCR2, LDC2, a halving form; CPS words of no form. -/
theorem test_decode_refuses :
    decErr 0xE12FFF13#32 = some .encodingNotInSource ∧ decErr 0xE16F0E11#32 = some .encodingNotInSource
      ∧ decErr 0x01200070#32 = some .encodingNotInSource ∧ decErr 0xF5C1F004#32 = some .encodingNotInSource
      ∧ decErr 0xE6830830#32 = some .encodingNotInSource ∧ decErr 0xE7830810#32 = some .notNamedBySource
      ∧ decErr 0xFE461811#32 = some .coprocessorNotSpecified ∧ decErr 0xFD912801#32 = some .coprocessorNotSpecified
      ∧ decErr 0xE6321F13#32 = some .notNamedBySource ∧ decErr 0xF1040000#32 = some .reservedCpsForm
      ∧ decErr 0xF10C0013#32 = some .reservedCpsForm := by decide +kernel

/-- CDP2, MRC2, UMAAL (V23), CPS, SETEND, SRS (V51), RFE (V52), SWP, LDREX, STREX (P5), byte reversal (P6). -/
theorem test_decode_control :
    dec 0xFE567869#32 = some (.cdp2 5#4 6#4 7#4 8#4 3#3 9#4) ∧ dec 0xFE567879#32 = some (.mrc2 2#3 6#4 7 8#4 3#3 9#4)
      ∧ dec 0xE0432091#32 = some (.umaal .al 2 3 1 0) ∧ dec 0xF10C0080#32 = some (.cps (.disable false true false) none)
      ∧ dec 0xF10A0153#32 = some (.cps (.enable true false true) (some 0x13#5))
      ∧ dec 0xF102001F#32 = some (.cps .keep (some 0x1F#5)) ∧ dec 0xF1010200#32 = some (.setend true)
      ∧ dec 0xF1010000#32 = some (.setend false) ∧ dec 0xF96D0513#32 = some (.srs .db true 0x13#5)
      ∧ dec 0xF8BD0A00#32 = some (.rfe .ia true 13) ∧ dec 0xE1031092#32 = some (.swp .al 1 2 3)
      ∧ dec 0xE1910F9F#32 = some (.ldrex .al 0 1) ∧ dec 0xE1812F90#32 = some (.strex .al 2 0 1)
      ∧ dec 0xE6BF2F31#32 = some (.rev .al 2 1) ∧ dec 0xE6BF2FB1#32 = some (.rev16 .al 2 1)
      ∧ dec 0xE6FF2FB1#32 = some (.revsh .al 2 1) := by decide +kernel

/-- The v5TE rows; P1's and P5's words for SMULBB, SMULTT, QADD, QDADD. -/
theorem test_decode_dsp :
    dec 0xE12143C2#32 = some (.smlaw .al .top 1 2 3 4) ∧ dec 0xE12103A2#32 = some (.smulw .al .bottom 1 2 3)
      ∧ dec 0xE14543C2#32 = some (.smlal .al .bottom .top 4 5 2 3) ∧ dec 0xE1630281#32 = some (.smul .al .bottom .bottom 3 1 2)
      ∧ dec 0xE16302E1#32 = some (.smul .al .top .top 3 1 2) ∧ dec 0xE16302A1#32 = some (.smul .al .top .bottom 3 1 2)
      ∧ dec 0xE1040050#32 = some (.qadd .al 0 0 4) ∧ dec 0xE1231052#32 = some (.qsub .al 1 2 3)
      ∧ dec 0xE1435055#32 = some (.qdadd .al 5 5 3) ∧ dec 0xE1631052#32 = some (.qdsub .al 1 2 3) := by decide +kernel

/-- The SIMD row of G3, Rd = 1, Rn = 2, Rm = 3: byte forms. -/
theorem test_decode_simd_bytes :
    dec 0xE6621F93#32 = some (.uqadd8 .al 1 2 3) ∧ dec 0xE6221F93#32 = some (.qadd8 .al 1 2 3)
      ∧ dec 0xE6521F93#32 = some (.uadd8 .al 1 2 3) ∧ dec 0xE6121F93#32 = some (.sadd8 .al 1 2 3)
      ∧ dec 0xE6621FF3#32 = some (.uqsub8 .al 1 2 3) ∧ dec 0xE6221FF3#32 = some (.qsub8 .al 1 2 3)
      ∧ dec 0xE6521FF3#32 = some (.usub8 .al 1 2 3) ∧ dec 0xE6121FF3#32 = some (.ssub8 .al 1 2 3)
      ∧ dec 0xE6721FF3#32 = some (.uhsub8 .al 1 2 3) := by decide +kernel

/-- Halfword and exchange forms. -/
theorem test_decode_simd_halves :
    dec 0xE6621F13#32 = some (.uqadd16 .al 1 2 3) ∧ dec 0xE6221F13#32 = some (.qadd16 .al 1 2 3)
      ∧ dec 0xE6521F13#32 = some (.uadd16 .al 1 2 3) ∧ dec 0xE6121F13#32 = some (.sadd16 .al 1 2 3)
      ∧ dec 0xE6621F73#32 = some (.uqsub16 .al 1 2 3) ∧ dec 0xE6221F73#32 = some (.qsub16 .al 1 2 3)
      ∧ dec 0xE6521F73#32 = some (.usub16 .al 1 2 3) ∧ dec 0xE6121F73#32 = some (.ssub16 .al 1 2 3)
      ∧ dec 0xE6621F33#32 = some (.uqaddsubx .al 1 2 3) ∧ dec 0xE6221F33#32 = some (.qaddsubx .al 1 2 3)
      ∧ dec 0xE6521F33#32 = some (.uaddsubx .al 1 2 3) ∧ dec 0xE6121F33#32 = some (.saddsubx .al 1 2 3)
      ∧ dec 0xE6621F53#32 = some (.uqsubaddx .al 1 2 3) ∧ dec 0xE6221F53#32 = some (.qsubaddx .al 1 2 3)
      ∧ dec 0xE6521F53#32 = some (.usubaddx .al 1 2 3) ∧ dec 0xE6121F53#32 = some (.ssubaddx .al 1 2 3) := by decide +kernel

/-- The rows of 44_v6_dsp_support.md; P3's words for SMUSD and SMUADX. -/
theorem test_decode_support :
    dec 0xE701F312#32 = some (.smuad false .al 1 2 3) ∧ dec 0xE700F231#32 = some (.smuad true .al 0 1 2)
      ∧ dec 0xE703F251#32 = some (.smusd false .al 3 1 2) ∧ dec 0xE7014312#32 = some (.smlad false .al 1 2 3 4)
      ∧ dec 0xE7014372#32 = some (.smlsd true .al 1 2 3 4) ∧ dec 0xE7454312#32 = some (.smlald false .al 4 5 2 3)
      ∧ dec 0xE7454372#32 = some (.smlsld true .al 4 5 2 3) ∧ dec 0xE6EF1472#32 = some (.uxtb .al 1 2 .by8)
      ∧ dec 0xE68F1872#32 = some (.sxtb16 .al 1 2 .by16) ∧ dec 0xE6A71252#32 = some (.ssat .al 1 8 2 (.asr 4))
      ∧ dec 0xE6BF1052#32 = some (.ssat .al 1 32 2 (.asr 32)) ∧ dec 0xE6A01F92#32 = some (.ssat .al 1 1 2 (.lsl 31))
      ∧ dec 0xE6821FB3#32 = some (.sel .al 1 2 3) ∧ dec 0xE781F312#32 = some (.usad8 .al 1 2 3) := by decide +kernel

/-- SMI, LDR (P1, and U = 0), SUBS (P1, and a rotated immediate), B (P1), MSR. -/
theorem test_decode_base :
    dec 0xE1600071#32 = some (.smi .al 1#16) ∧ dec 0xE4961004#32 = some (.ldrPost .al true 1 6 4#12)
      ∧ dec 0xE4161004#32 = some (.ldrPost .al false 1 6 4#12) ∧ dec 0xE2544002#32 = some (.subsImm .al 4 4 0#4 2#8)
      ∧ dec 0xE25214FF#32 = some (.subsImm .al 1 2 4#4 0xFF#8) ∧ dec 0x1AFFFFF7#32 = some (.b .ne 0xFFFFF7#24)
      ∧ dec 0xE128F005#32 = some (.msrCpsrF .al 5) := by decide +kernel

/-- The interface's numbering: bits above `nbits` are 0. -/
theorem test_decode_table_word : decodeTableWord 32 0xE16F0F11 = some (.clz .al 0 1)
    ∧ decodeTableWord 32 0x1E16F0F11 = some (.clz .al 0 1) := by decide +kernel

/-! ## Reset and the step -/

/-- R50, V173: secure, supervisor, A = I = F = 1, ARM state; V174's read does not stop here (log 1). -/
theorem test_reset : State.reset.cpsr = 0x000001D3#32 ∧ State.reset.pc = 0#32 ∧ State.reset.ns = false
    ∧ memoryWf State.reset.mem := by decide +kernel

/-- The first step from reset faults: nothing has been written (log 31). -/
theorem test_reset_step_faults : faultOf (step State.reset) = some (.unwrittenMemory 0) := by decide +kernel

/-- A placed instruction runs as the first after reset. -/
theorem test_step_runs_placed_word : regOf (step (State.reset.withFetchWord 32 0xE16F0F11)) 0 = some 32#32
    ∧ pcOf (step (State.reset.withFetchWord 32 0xE16F0F11)) = some 4#32 := by decide +kernel

/-- V24: after BLX label the next step is refused. -/
theorem test_step_thumb : (stateOf (exec (.blxLabel false 1#24) user)).map (fun t => refusalOf (step t))
    = some (some .thumbOrJazelleState) := by decide +kernel

/-! ## The v5 extensions -/

/-- V24 to V29. -/
theorem test_blx_label : pcOf (exec (.blxLabel false 1#24) user) = some 0x800C#32
    ∧ pcOf (exec (.blxLabel true 1#24) user) = some 0x800E#32 ∧ pcOf (exec (.blxLabel false 0xFFFFFE#24) user) = some 0x8000#32
    ∧ pcOf (exec (.blxLabel false 0x800000#24) user) = some 0xFE008008#32
    ∧ pcOf (exec (.blxLabel true 0x7FFFFF#24) user) = some 0x02008006#32
    ∧ pcOf (exec (.blxLabel true 0xFFFFFF#24) user) = some 0x00008006#32
    ∧ regOf (exec (.blxLabel false 1#24) user) 14 = some 0x8004#32
    ∧ cpsrOf (exec (.blxLabel false 1#24) user) = some 0x00000030#32 := by decide +kernel

/-- V34 to V38. -/
theorem test_blx_reg : pcOf (exec (.blxReg .al 3) (set user [(3, 0x9000#32)])) = some 0x9000#32
    ∧ cpsrOf (exec (.blxReg .al 3) (set user [(3, 0x9001#32)])) = some 0x00000030#32
    ∧ pcOf (exec (.blxReg .al 3) (set user [(3, 0x9001#32)])) = some 0x9000#32
    ∧ refusalOf (exec (.blxReg .al 3) (set user [(3, 0x9002#32)])) = some .misalignedArmTarget
    ∧ regOf (exec (.blxReg .al 14) (set user [(14, 0x9008#32)])) 14 = some 0x8004#32
    ∧ pcOf (exec (.blxReg .al 14) (set user [(14, 0x9008#32)])) = some 0x9008#32
    ∧ exec (.blxReg .eq 14) user = .next { user with pc := 0x8004#32 } := ⟨by decide +kernel, by decide +kernel,
  by decide +kernel, by decide +kernel, by decide +kernel, by decide +kernel, rfl⟩

/-- V39. -/
theorem test_clz : [0#32, 1#32, 0xFFFF#32, 0x10000#32, 0x7FFFFFFF#32, 0x80000000#32, 0xFFFFFFFF#32].map
      (fun v => regOf (exec (.clz .al 0 1) (set user [(1, v)])) 0)
    = [some 32#32, some 31#32, some 16#32, some 15#32, some 1#32, some 0#32, some 0#32] := by decide +kernel

/-- V120, V172. -/
theorem test_bkpt : cpsrOf (exec (.bkpt 0#16) user) = some 0x00000197#32
    ∧ regOf (exec (.bkpt 0#16) user) 14 = some 0x8004#32 ∧ pcOf (exec (.bkpt 0#16) user) = some 0xC#32
    ∧ (stateOf (exec (.bkpt 0#16) { user with cpsr := 0x080A0010#32 })).map (fun t => (t.spsr.abt, t.cpsr))
      = some (0x080A0010#32, 0x080A0197#32) := by decide +kernel

/-- V41, V161. -/
theorem test_pld : pcOf (exec (.pld false true 1 4#12) user) = some 0x8004#32
    ∧ pcOf (exec (.pld false true 1 0#12) (guarded (set user [(1, 0x3000#32)]))) = some 0x8004#32 := by decide +kernel

theorem test_coprocessor : refusalOf (exec (.cdp2 0#4 0#4 0#4 0#4 0#3 0#4) svc) = some .coprocessorNotSpecified
    ∧ refusalOf (exec (.mrc2 0#3 0#4 0 0#4 0#3 0#4) svc) = some .coprocessorNotSpecified := by decide +kernel

/-! ## v6 long multiply, control, semaphores, byte reversal, packing -/

/-- V30 to V33 (R3, R2). -/
theorem test_umaal :
    [(0xFFFFFFFF#32, 0xFFFFFFFF#32, 0xFFFFFFFF#32, 0xFFFFFFFF#32), (4#32, 3#32, 5#32, 7#32), (0#32, 0#32, 0xFFFFFFFF#32, 1#32),
      (0x10000#32, 0x10000#32, 0#32, 0#32)].map
      (fun p => regsOf (exec (.umaal .al 2 3 1 0) (set user [(0, p.1), (1, p.2.1), (2, p.2.2.1), (3, p.2.2.2)])) [3, 2])
    = [some [0xFFFFFFFF#32, 0xFFFFFFFF#32], some [0#32, 0x18#32], some [1#32, 0#32], some [1#32, 0#32]] := by decide +kernel

/-- V50; the mode form and its refusals (R141). -/
theorem test_cps : cpsrOf (exec (.cps (.disable false true false) none) svc) = some 0x00000093#32
    ∧ cpsrOf (exec (.cps (.disable false true false) none) user) = some 0x00000010#32
    ∧ cpsrOf (exec (.cps (.enable true true true) (some 0b11111#5)) { svc with cpsr := 0x000001D3#32 }) = some 0x0000001F#32
    ∧ refusalOf (exec (.cps .keep (some 0b10110#5)) svc) = some .cpsToMonitor
    ∧ refusalOf (exec (.cps .keep (some 0b00000#5)) svc) = some .illegalMode := by decide +kernel

/-- V49. -/
theorem test_setend : cpsrOf (exec (.setend true) user) = some 0x00000210#32
    ∧ cpsrOf (exec (.setend false) { user with cpsr := 0x00000210#32 }) = some 0x00000010#32 := by decide +kernel

/-- V51's start: irq mode, r13_svc = 0x1000, x[14] = 0x8010, SPSR_irq = 0x10. -/
def irqStart : State := set { (user.setPhys .r13_svc 0x1000#32) with
  cpsr := 0x00000012#32, spsr := { user.spsr with irq := 0x00000010#32 } } [(14, 0x8010#32)]

/-- V51. -/
theorem test_srs : (stateOf (exec (.srs .db true 0x13#5) irqStart)).map
      (fun t => (wordAt t 0xFF8, wordAt t 0xFFC, t.phys .r13_svc, t.phys .r13_irq))
    = some (some 0x8010#32, some 0x10#32, 0xFF8#32, 0#32)
    ∧ refusalOf (exec (.srs .db true 0x13#5) user) = some .noSpsr := by decide +kernel

/-- V52. -/
theorem test_rfe : (stateOf (exec (.rfe .ia true 13) (put (put (set svc [(13, 0xFF8#32)]) 0xFF8 0x8010#32) 0xFFC 0x10#32))).map
      (fun t => (t.pc, t.cpsr, t.phys .r13_svc)) = some (0x8010#32, 0x10#32, 0x1000#32)
    ∧ refusalOf (exec (.rfe .ia true 13) user) = some .rfeInUserMode := by decide +kernel

/-- R144 with R75: a loaded T = 0 needs an aligned pc, whatever the loaded J is. -/
theorem test_rfe_unaligned_with_j : refusalOf (exec (.rfe .ia true 13)
    (put (put (set svc [(13, 0xFF8#32)]) 0xFF8 0x8012#32) 0xFFC 0x01000010#32)) = some .misalignedArmTarget := by decide +kernel

/-- V154, V155. -/
theorem test_swp : (stateOf (exec (.swp .al 1 2 3) (put (set user [(3, 0x2000#32), (2, 1#32)]) 0x2000 0#32))).map
      (fun t => (t.reg 1, wordAt t 0x2000)) = some (0#32, some 1#32)
    ∧ refusalOf (exec (.swp .al 1 2 3) (set user [(3, 0x2002#32)])) = some .unalignedSemaphore := by decide +kernel

/-- V156. -/
theorem test_ldrex : (stateOf (exec (.ldrex .al 0 1) (put (set user [(1, 0x2000#32)]) 0x2000 5#32))).map
      (fun t => (t.reg 0, t.reservation)) = some (5#32, some 0x2000#32) := by decide +kernel

/-- V157, V158. -/
theorem test_strex :
    (stateOf (exec (.strex .al 2 0 1)
        { put (set user [(0, 6#32), (1, 0x2000#32)]) 0x2000 5#32 with reservation := some 0x2000#32 })).map
      (fun t => (t.reg 2, wordAt t 0x2000, t.reservation)) = some (0#32, some 6#32, none)
    ∧ (stateOf (exec (.strex .al 2 0 1) (put (set user [(0, 6#32), (1, 0x2000#32)]) 0x2000 5#32))).map
      (fun t => (t.reg 2, wordAt t 0x2000, t.reservation)) = some (1#32, some 5#32, none) := by decide +kernel

/-- R147: another agent's write to the reserved word makes the STREX fail. -/
theorem test_strex_after_write :
    (stateOf (exec (.strex .al 2 0 1) (envAct
        { put (set user [(0, 6#32), (1, 0x2000#32)]) 0x2000 5#32 with reservation := some 0x2000#32 }
        (.writeByte 0x2003#32 1#8)))).map
      (fun t => (t.reg 2, wordAt t 0x2000, t.reservation)) = some (1#32, some 0x01000005#32, none) := by decide +kernel

/-- V42 to V44. -/
theorem test_byte_reversal : regOf (exec (.rev .al 0 1) (set user [(1, 0x11223344#32)])) 0 = some 0x44332211#32
    ∧ regOf (exec (.rev16 .al 0 1) (set user [(1, 0x11223344#32)])) 0 = some 0x22114433#32
    ∧ regOf (exec (.revsh .al 0 1) (set user [(1, 0x11223380#32)])) 0 = some 0xFFFF8033#32
    ∧ regOf (exec (.revsh .al 0 1) (set user [(1, 0x11228033#32)])) 0 = some 0x00003380#32 := by decide +kernel

/-- V45, V46. -/
theorem test_pkhbt : regOf (exec (.pkhbt .al 0 3 0 16) (set user [(3, 0xFFFFFFF7#32), (0, 0x26#32)])) 0 = some 0x0026FFF7#32
    ∧ [0, 20, 31].map (fun k => regOf (exec (.pkhbt .al 0 1 2 k) (set user [(1, 0x11112222#32), (2, 0x33334444#32)])) 0)
      = [some 0x33332222#32, some 0x44402222#32, some 0x00002222#32] := by decide +kernel

/-- V47, V48. -/
theorem test_pkhtb :
    [16, 32, 1].map (fun k => regOf (exec (.pkhtb .al 0 1 2 k) (set user [(1, 0xAAAA1111#32), (2, 0x8000BBBB#32)])) 0)
      = [some 0xAAAA8000#32, some 0xAAAAFFFF#32, some 0xAAAA5DDD#32]
    ∧ regOf (exec (.pkhtb .al 0 1 2 32) (set user [(1, 0xAAAA1111#32), (2, 0x7000BBBB#32)])) 0 = some 0xAAAA0000#32 := by
  decide +kernel

/-! ## v5TE signal processing -/

/-- Result and Q of a three-register instruction, Rd = 0, first source register 1, second register 2. -/
def run2 (i : Instr) (v w : Word) : Option (Word × Bool) :=
  (stateOf (exec i (set user [(1, v), (2, w)]))).map fun t => (t.reg 0, psrQ t.cpsr)

/-- V60, V61, V63. -/
theorem test_qadd : run2 (.qadd .al 0 1 2) 0x7FFFFFFF#32 1#32 = some (0x7FFFFFFF#32, true)
    ∧ run2 (.qadd .al 0 1 2) 0x80000000#32 0xFFFFFFFF#32 = some (0x80000000#32, true)
    ∧ run2 (.qadd .al 0 1 2) 5#32 0xFFFFFFFB#32 = some (0#32, false) := by decide +kernel

/-- V64 to V66. -/
theorem test_qsub : run2 (.qsub .al 0 1 2) 0x80000000#32 1#32 = some (0x80000000#32, true)
    ∧ run2 (.qsub .al 0 1 2) 0#32 0x80000000#32 = some (0x7FFFFFFF#32, true)
    ∧ run2 (.qsub .al 0 1 2) 5#32 7#32 = some (0xFFFFFFFE#32, false) := by decide +kernel

/-- V67 to V72. -/
theorem test_qdadd : run2 (.qdadd .al 0 1 2) 0xA#32 8#32 = some (0x1A#32, false)
    ∧ run2 (.qdadd .al 0 1 2) 0x80000000#32 0x40000000#32 = some (0xFFFFFFFF#32, true)
    ∧ run2 (.qdadd .al 0 1 2) 0#32 0xC0000000#32 = some (0x80000000#32, false)
    ∧ run2 (.qdadd .al 0 1 2) 0xFFFFFFFF#32 0xC0000000#32 = some (0x80000000#32, true) := by decide +kernel

/-- V73 to V76. -/
theorem test_qdsub : run2 (.qdsub .al 0 1 2) 0xA#32 3#32 = some (4#32, false)
    ∧ run2 (.qdsub .al 0 1 2) 0#32 0x40000000#32 = some (0x80000001#32, true)
    ∧ run2 (.qdsub .al 0 1 2) 0#32 0xC0000000#32 = some (0x7FFFFFFF#32, true)
    ∧ run2 (.qdsub .al 0 1 2) 0x80000000#32 1#32 = some (0x80000000#32, true) := by decide +kernel

/-- V80 to V82. -/
theorem test_smul : run2 (.smul .al .bottom .bottom 0 1 2) 0x00030002#32 0x00050004#32 = some (8#32, false)
    ∧ run2 (.smul .al .bottom .top 0 1 2) 0x00030002#32 0x00050004#32 = some (10#32, false)
    ∧ run2 (.smul .al .top .bottom 0 1 2) 0x00030002#32 0x00050004#32 = some (12#32, false)
    ∧ run2 (.smul .al .top .top 0 1 2) 0x80008000#32 0x80008000#32 = some (0x40000000#32, false)
    ∧ run2 (.smul .al .bottom .top 0 1 2) 0xFFFF0002#32 0xFFFD0000#32 = some (0xFFFFFFFA#32, false) := by decide +kernel

/-- V83 to V85. -/
theorem test_smlaw : [(0x10000#32, 2#32, 5#32), (0x7FFFFFFF#32, 0x7FFF#32, 0x7FFFFFFF#32), (0xFFFFFFFF#32, 1#32, 0#32)].map
      (fun p => (stateOf (exec (.smlaw .al .bottom 0 1 2 3) (set user [(1, p.1), (2, p.2.1), (3, p.2.2)]))).map
        fun t => (t.reg 0, psrQ t.cpsr))
    = [some (7#32, false), some (0xBFFF7FFE#32, true), some (0xFFFFFFFF#32, false)] := by decide +kernel

/-- V86, V87. -/
theorem test_smulw : run2 (.smulw .al .top 0 1 2) 0x7FFFFFFF#32 0x7FFF0000#32 = some (0x3FFF7FFF#32, false)
    ∧ run2 (.smulw .al .bottom 0 1 2) 0x80000000#32 0x00008000#32 = some (0x40000000#32, false) := by decide +kernel

/-- V88 to V90 (hi, lo). -/
theorem test_smlal :
    [(0xFFFFFFFF#32, 0#32, 1#32), (0#32, 0#32, 0xFFFF#32), (0xFFFFFFFF#32, 0x7FFFFFFF#32, 1#32)].map
      (fun p => regsOf (exec (.smlal .al .bottom .bottom 3 4 1 2) (set user [(3, p.1), (4, p.2.1), (1, p.2.2), (2, 1#32)])) [4, 3])
    = [some [1#32, 0#32], some [0xFFFFFFFF#32, 0xFFFFFFFF#32], some [0x80000000#32, 0#32]] := by decide +kernel

/-! ## v6 SIMD: V100 to V128 -/

/-- Result, Q and GE, from Rn and Rm, GE = 0101 before. -/
def simd (i : Instr) (v w : Word) : Option (Word × Bool × BitVec 4) :=
  (stateOf (exec i (set { user with cpsr := 0x00050010#32 } [(1, v), (2, w)]))).map fun t => (t.reg 0, psrQ t.cpsr, psrGE t.cpsr)

theorem test_simd_bytes_saturate :
    simd (.uqadd8 .al 0 1 2) 0x7F80FF01#32 0x01FF0102#32 = some (0x80FFFF03#32, true, 5#4)
      ∧ simd (.qadd8 .al 0 1 2) 0x7F80FF01#32 0x01FF0102#32 = some (0x7F800003#32, true, 5#4)
      ∧ simd (.uqsub8 .al 0 1 2) 0x7F80FF01#32 0x01FF0102#32 = some (0x7E00FE00#32, true, 5#4)
      ∧ simd (.qsub8 .al 0 1 2) 0x7F80FF01#32 0x01FF0102#32 = some (0x7E81FEFF#32, false, 5#4)
      ∧ simd (.uhsub8 .al 0 1 2) 0x7F80FF01#32 0x01FF0102#32 = some (0x3FC07FFF#32, false, 5#4)
      ∧ simd (.uhsub8 .al 0 1 2) 0x10203040#32 0x01050A50#32 = some (0x070D13F8#32, false, 5#4) := by decide +kernel

theorem test_simd_bytes_wrap :
    simd (.uadd8 .al 0 1 2) 0x7F80FF01#32 0x01FF0102#32 = some (0x807F0003#32, false, 0b0110#4)
      ∧ simd (.sadd8 .al 0 1 2) 0x7F80FF01#32 0x01FF0102#32 = some (0x807F0003#32, false, 0b1011#4)
      ∧ simd (.usub8 .al 0 1 2) 0x7F80FF01#32 0x01FF0102#32 = some (0x7E81FEFF#32, false, 0b1010#4)
      ∧ simd (.ssub8 .al 0 1 2) 0x7F80FF01#32 0x01FF0102#32 = some (0x7E81FEFF#32, false, 0b1000#4)
      ∧ simd (.sadd8 .al 0 1 2) 0x05FB10F0#32 0xFD03F010#32 = some (0x02FE0000#32, false, 0b1011#4) := by decide +kernel

theorem test_simd_halves_saturate :
    simd (.uqadd16 .al 0 1 2) 0x7FFF8000#32 0x0001FFFF#32 = some (0x8000FFFF#32, true, 5#4)
      ∧ simd (.qadd16 .al 0 1 2) 0x7FFF8000#32 0x0001FFFF#32 = some (0x7FFF8000#32, true, 5#4)
      ∧ simd (.uqsub16 .al 0 1 2) 0x7FFF8000#32 0x0001FFFF#32 = some (0x7FFE0000#32, true, 5#4)
      ∧ simd (.qsub16 .al 0 1 2) 0x7FFF8000#32 0x0001FFFF#32 = some (0x7FFE8001#32, false, 5#4)
      ∧ simd (.uqaddsubx .al 0 1 2) 0x7FFF8000#32 0x0001FFFF#32 = some (0xFFFF7FFF#32, true, 5#4)
      ∧ simd (.qaddsubx .al 0 1 2) 0x7FFF8000#32 0x0001FFFF#32 = some (0x7FFE8000#32, true, 5#4)
      ∧ simd (.uqsubaddx .al 0 1 2) 0x7FFF8000#32 0x0001FFFF#32 = some (0x00008001#32, true, 5#4)
      ∧ simd (.qsubaddx .al 0 1 2) 0x7FFF8000#32 0x0001FFFF#32 = some (0x7FFF8001#32, true, 5#4) := by decide +kernel

theorem test_simd_halves_wrap :
    simd (.uadd16 .al 0 1 2) 0x7FFF8000#32 0x0001FFFF#32 = some (0x80007FFF#32, false, 0b0011#4)
      ∧ simd (.sadd16 .al 0 1 2) 0x7FFF8000#32 0x0001FFFF#32 = some (0x80007FFF#32, false, 0b1100#4)
      ∧ simd (.usub16 .al 0 1 2) 0x7FFF8000#32 0x0001FFFF#32 = some (0x7FFE8001#32, false, 0b1100#4)
      ∧ simd (.ssub16 .al 0 1 2) 0x7FFF8000#32 0x0001FFFF#32 = some (0x7FFE8001#32, false, 0b1100#4)
      ∧ simd (.uaddsubx .al 0 1 2) 0x7FFF8000#32 0x0001FFFF#32 = some (0x7FFE7FFF#32, false, 0b1111#4)
      ∧ simd (.saddsubx .al 0 1 2) 0x7FFF8000#32 0x0001FFFF#32 = some (0x7FFE7FFF#32, false, 0b1100#4)
      ∧ simd (.usubaddx .al 0 1 2) 0x7FFF8000#32 0x0001FFFF#32 = some (0x80008001#32, false, 0b0000#4)
      ∧ simd (.ssubaddx .al 0 1 2) 0x7FFF8000#32 0x0001FFFF#32 = some (0x80008001#32, false, 0b1100#4) := by decide +kernel

/-! ## v6 dual multiplies, extend, saturate, select, sum of differences: V130 to V149 -/

theorem test_smuad_smusd : run2 (.smuad false .al 0 1 2) 0x00040003#32 0x00060005#32 = some (39#32, false)
    ∧ run2 (.smuad true .al 0 1 2) 0x00040003#32 0x00060005#32 = some (38#32, false)
    ∧ run2 (.smusd false .al 0 1 2) 0x00040003#32 0x00060005#32 = some (0xFFFFFFF7#32, false)
    ∧ run2 (.smusd true .al 0 1 2) 0x00040003#32 0x00060005#32 = some (0xFFFFFFFE#32, false)
    ∧ run2 (.smuad false .al 0 1 2) 0x80008000#32 0x80008000#32 = some (0x80000000#32, true)
    ∧ run2 (.smusd false .al 0 1 2) 0x80007FFF#32 0x80007FFF#32 = some (0xFFFF0001#32, false) := by decide +kernel

theorem test_smlad_smlsd :
    [(.smlad false .al 0 1 2 3, 0x00040003#32, 0x00060005#32, 100#32), (.smlsd false .al 0 1 2 3, 0x00040003#32, 0x00060005#32, 100#32),
      (.smlad false .al 0 1 2 3, 0x7FFF7FFF#32, 0x7FFF7FFF#32, 0x7FFFFFFF#32),
      (.smlsd false .al 0 1 2 3, 0x80008000#32, 0x80008000#32, 0x7FFFFFFF#32)].map
      (fun p : Instr × Word × Word × Word => (stateOf (exec p.1 (set user [(1, p.2.1), (2, p.2.2.1), (3, p.2.2.2)]))).map
        fun t => (t.reg 0, psrQ t.cpsr))
    = [some (139#32, false), some (91#32, false), some (0xFFFE0001#32, true), some (0x7FFFFFFF#32, false)] := by decide +kernel

theorem test_smlald_smlsld :
    regsOf (exec (.smlald false .al 3 4 1 2) (set user [(1, 0x00040003#32), (2, 0x00060005#32), (3, 0xFFFFFFFF#32)])) [4, 3]
      = some [1#32, 0x26#32]
    ∧ regsOf (exec (.smlsld false .al 3 4 1 2) (set user [(1, 0x00040003#32), (2, 0x00060005#32)])) [4, 3]
      = some [0xFFFFFFFF#32, 0xFFFFFFF7#32] := by decide +kernel

theorem test_extend :
    [.none, .by8, .by16, .by24].map (fun r => regOf (exec (.uxtb .al 0 1 r) (set user [(1, 0x12345678#32)])) 0)
      = [some 0x78#32, some 0x56#32, some 0x34#32, some 0x12#32]
    ∧ [.none, .by8, .by16, .by24].map (fun r => regOf (exec (.sxtb16 .al 0 1 r) (set user [(1, 0x12F45680#32)])) 0)
      = [some 0xFFF4FF80#32, some 0x00120056#32, some 0xFF80FFF4#32, some 0x00560012#32] := by decide +kernel

theorem test_ssat : run2 (.ssat .al 0 8 1 (.lsl 0)) 0x80#32 0#32 = some (0x7F#32, true)
    ∧ run2 (.ssat .al 0 8 1 (.lsl 0)) 0x7F#32 0#32 = some (0x7F#32, false)
    ∧ run2 (.ssat .al 0 8 1 (.lsl 0)) 0xFFFFFF7F#32 0#32 = some (0xFFFFFF80#32, true)
    ∧ run2 (.ssat .al 0 1 1 (.lsl 0)) 5#32 0#32 = some (0#32, true)
    ∧ run2 (.ssat .al 0 32 1 (.lsl 0)) 0x80000000#32 0#32 = some (0x80000000#32, false)
    ∧ run2 (.ssat .al 0 16 1 (.asr 4)) 0x12345#32 0#32 = some (0x1234#32, false)
    ∧ run2 (.ssat .al 0 16 1 (.lsl 2)) 0x40000001#32 0#32 = some (4#32, false) := by decide +kernel

theorem test_sel :
    [0x000A0010#32, 0x000C0010#32, 0x00000010#32, 0x000F0010#32].map
      (fun w => regOf (exec (.sel .al 0 1 2) (set { user with cpsr := w } [(1, 0x11223344#32), (2, 0xAABBCCDD#32)])) 0)
    = [some 0x11BB33DD#32, some 0x1122CCDD#32, some 0xAABBCCDD#32, some 0x11223344#32] := by decide +kernel

theorem test_usad8 : run2 (.usad8 .al 0 1 2) 0x01FF1080#32 0x02017F10#32 = some (478#32, false)
    ∧ run2 (.usad8 .al 0 1 2) 0xFFFFFFFF#32 0#32 = some (1020#32, false) := by decide +kernel

/-! ## TrustZone, Jazelle, the base forms -/

/-- V170, V171. -/
theorem test_smi : (stateOf (exec (.smi .al 0#16) user)).map (fun t => (t.phys .r14_und, t.spsr.und, t.cpsr, t.pc))
      = some (0x8004#32, 0x10#32, 0x0000009B#32, 4#32)
    ∧ (stateOf (exec (.smi .al 0#16) svc)).map (fun t => (t.phys .r14_mon, t.spsr.mon, t.cpsr, t.pc))
      = some (0x8004#32, 0x13#32, 0x000001D6#32, 8#32) := by decide +kernel

/-- SMI is an instruction of v6 (R261, log 38). -/
theorem test_smi_below_v6 : refusalOf (exec (.smi .al 0#16) (atLevel' .v5TE svc)) = some .belowLevel := by decide +kernel

/-- R266: without Jazelle BXJ is an exchange branch; with it J is set. -/
theorem test_bxj : (stateOf (exec (.bxj .al 1) (set user [(1, 0x9001#32)]))).map (fun t => (t.pc, t.cpsr, t.reg 14))
      = some (0x9000#32, 0x30#32, 0#32)
    ∧ cpsrOf (exec (.bxj .al 1) { user with params := { user.params with jazelleEnabled := true } }) = some 0x01000010#32 := by
  decide +kernel

/-- The bytes of V150 to V153. -/
def samples : State := put (put (set user [(6, 0x1000#32)]) 0x1000 0x00030002#32) 0x1004 0x0005FFFC#32

/-- V150 to V153. -/
theorem test_ldr : regsOf (exec (.ldrPost .al true 1 6 4#12) samples) [1, 6] = some [0x00030002#32, 0x1004#32]
    ∧ regsOf (exec (.ldrPost .al true 1 6 4#12) { samples with cpsr := 0x210#32 }) [1, 6] = some [0x02000300#32, 0x1004#32]
    ∧ regsOf (exec (.ldrPost .al true 1 6 4#12) (set samples [(6, 0x1002#32)])) [1, 6] = some [0xFFFC0003#32, 0x1006#32]
    ∧ refusalOf (exec (.ldrPost .al true 1 6 4#12) (atLevel' .v5TE (set samples [(6, 0x1002#32)]))) = some .unalignedBeforeV6 := by
  decide +kernel

/-- Byte 0 is read, then another agent writes bytes 1 and 0; the word mixes old and new (R68, D10). -/
def tornLoad : State :=
  { set samples [(6, 0x1001#32)] with
    torn := [[.byte 0, .act (.writeByte 0x1002#32 0xAA#8), .act (.writeByte 0x1001#32 0xBB#8)]] }

theorem test_ldr_torn : regsOf (exec (.ldrPost .al true 1 6 4#12) tornLoad) [1, 6] = some [0xFC00AA00#32, 0x1005#32]
    ∧ regsOf (exec (.ldrPost .al true 1 6 4#12) { tornLoad with torn := [] }) [1, 6] = some [0xFC000300#32, 0x1005#32] := by
  decide +kernel

/-- P1's SUBS at its two passes (4 - 2, 2 - 2), a borrow, and a signed overflow (R281). -/
theorem test_subs : [4#32, 2#32, 1#32, 0x80000000#32].map (fun v => (stateOf (exec (.subsImm .al 4 4 0#4 2#8) (set user [(4, v)]))).map
      fun t => (t.reg 4, t.cpsr))
    = [some (2#32, 0x20000010#32), some (0#32, 0x60000010#32), some (0xFFFFFFFF#32, 0x80000010#32),
      some (0x7FFFFFFE#32, 0x30000010#32)] := by decide +kernel

/-- P1's BNE at 0x801C goes to 0x8000; with Z = 1 it falls through (R282). -/
theorem test_b : pcOf (exec (.b .ne 0xFFFFF7#24) { user with pc := 0x801C#32 }) = some 0x8000#32
    ∧ pcOf (exec (.b .ne 0xFFFFF7#24) { user with pc := 0x801C#32, cpsr := 0x40000010#32 }) = some 0x8020#32 := by decide +kernel

/-- R283: the flags byte but J; in user mode the flags alone (log 21). -/
theorem test_msr : cpsrOf (exec (.msrCpsrF .al 1) (set svc [(1, 0xFFFFFFFF#32)])) = some 0xFE000013#32
    ∧ cpsrOf (exec (.msrCpsrF .al 1) (set user [(1, 0xFFFFFFFF#32)])) = some 0xF8000010#32 := by decide +kernel

/-- V162. -/
theorem test_store_to_code : refusalOf (exec (.swp .al 1 2 3) (guarded (put (set user [(3, 0x8000#32)]) 0x8000 0#32)))
    = some .storeToCode := by decide +kernel

/-- V160: a Data Abort, r14_abt = pc + 8. -/
theorem test_data_abort : (stateOf (exec (.ldrPost .al true 1 6 4#12) (guarded (set user [(6, 0x3000#32)])))).map
      (fun t => (t.phys .r14_abt, t.cpsr, t.pc, t.reg 6, t.reg 1))
    = some (0x8008#32, 0x197#32, 0x10#32, 0x3000#32, 0#32) := by decide +kernel


/-- R346: a run ends before a BKPT's entry; a BKPT word under T = 1 is a refusal, and a pending IRQ is taken first. -/
theorem test_run_to_breakpoint :
    (runToBreakpoint 1 (put (put user 0x8000 0xE16F0F11#32) 0x8004 0xE1200070#32)).map (fun r => (pcOf r, cpsrOf r))
      = some (some 0x8004#32, some 0x10#32)
    ∧ (runToBreakpoint 1 (put { user with cpsr := 0x30#32 } 0x8000 0xE1200070#32)).map refusalOf = some (some .thumbOrJazelleState)
    ∧ (put { user with irqLine := true } 0x8000 0xE1200070#32).atBreakpoint = false := by decide +kernel

/-! ## Witnesses: a state and operands that meet the hypotheses of each statement that has any, clause by clause -/

/-- A user state at the last address from which the pc can go on. -/
def last : State := { user with pc := 0xFFFFFFF8#32 }

/-- A non-secure user state with r3 = 0x2000 and the word there, r4 in secure memory, r5 in program text, all readable. -/
def mixed : State :=
  put (put (put (set (guarded user) [(3, 0x2000#32), (4, 0x3000#32), (5, 0x8FFC#32)]) 0x2000 5#32) 0x3000 6#32) 0x8FFC 7#32

theorem test_witness_DecodeOfEncodeIsTheInstruction : (Instr.ssat .al 1 32 2 (.asr 32)).wf = true
    ∧ (Instr.pkhbt .al 0 1 2 31).wf = true := by decide

theorem test_witness_EncodeOfDecodeIsTheWord : decodeWord 0xE12FFF33#32 = .ok (.blxReg .al 3) := rfl

theorem test_witness_WordsWithoutARuleAreRefused :
    (Cond.ofBits (getField 0xE12FFF13#32 28 4) = some .al ∧ ∀ r ∈ conditionalRows, r.fits 0xE12FFF13#32 = false)
      ∧ (Cond.ofBits (getField 0xF5C1F004#32 28 4) = none ∧ ∀ r ∈ unconditionalRows, r.fits 0xF5C1F004#32 = false)
      ∧ 0xFC000000#32 &&& 0xFE000000#32 = 0xFC000000#32
      ∧ 0xFEEFFFFF#32 &&& 0xFF100010#32 = 0xFE000010#32
      ∧ (Cond.ofBits (getField 0xE7830810#32 28 4) = some .al ∧ 0xE7830810#32 &&& 0x0FF000F0#32 = 0x07800010#32
        ∧ getField 0xE7830810#32 12 4 ≠ 0b1111#4)
      ∧ [0xF108001F#32, 0xF1060000#32, 0xF1000000#32, 0xF10201C0#32].all (· &&& 0xFFF1FE20#32 == 0xF1000000#32) = true
      ∧ (getBit 0xF108001F#32 17 = false ∧ getField 0xF108001F#32 0 5 ≠ 0#5) ∧ getField 0xF1060000#32 18 2 = 0b01#2
      ∧ (getField 0xF1000000#32 18 2 = 0b00#2 ∧ getBit 0xF1000000#32 17 = false)
      ∧ (getField 0xF10201C0#32 18 2 = 0b00#2 ∧ getField 0xF10201C0#32 6 3 ≠ 0#3) := by decide +kernel

/-- CLZ r0, r1 at 0xFFFFFFFC, the last word of the address space. -/
def clzLast : State := put { user with pc := 0xFFFFFFFC#32 } 0xFFFFFFFC 0xE16F0F11#32

theorem test_witness_StepRunsTheDecodedInstruction : (Mode.ofBits (psrMode clzLast.cpsr)).isSome = true
    ∧ (environmentTurn clzLast).pendingException = none ∧ clzLast.armState = true ∧ wordAligned clzLast.pc = true
    ∧ clzLast.secureViolation clzLast.pc.toNat 4 = false
    ∧ Claims.holdsWord false (environmentTurn clzLast).mem clzLast.pc 0xE16F0F11#32
    ∧ dec 0xE16F0F11#32 = some (.clz .al 0 1) ∧ clzLast.env = [] := by simp only [Claims.holdsWord]; decide +kernel

theorem test_witness_ThumbAndJazelleStatesAreRefused :
    [0x00000030#32, 0x01000010#32].all (fun w => (Mode.ofBits (psrMode w)).isSome && (w.getLsbD 5 || w.getLsbD 24)
      && (environmentTurn { user with cpsr := w }).pendingException == none) = true := by decide +kernel

/-- A non-secure processor about to fetch from secure memory. -/
def fetchSecure : State := { guarded user with pc := 0x3000#32 }

theorem test_witness_FetchStopsAndAborts :
    (∀ s ∈ [fetchSecure, { user with pc := 0x8002#32 }, user, put user 0x8000 0xE12FFF13#32, { user with cpsr := 0#32 }],
      (environmentTurn s).pendingException = none ∧ s.armState = true)
    ∧ ((Mode.ofBits (psrMode fetchSecure.cpsr)).isSome = true ∧ wordAligned fetchSecure.pc = true
      ∧ fetchSecure.secureViolation 0x3000 4 = true)
    ∧ wordAligned 0x8002#32 = false
    ∧ readByte (environmentTurn user).mem 0x8000 = none
    ∧ (readByte (environmentTurn { user with mem := writeBytes [] 0x8000 [0#8, 0#8, 0#8] }).mem 0x8003 = none
      ∧ ∀ j, j < 3 → (readByte (environmentTurn { user with mem := writeBytes [] 0x8000 [0#8, 0#8, 0#8] }).mem (0x8000 + j)).isSome = true)
    ∧ Claims.holdsWord false (environmentTurn (put user 0x8000 0xE12FFF13#32)).mem 0x8000#32 0xE12FFF13#32
    ∧ decErr 0xE12FFF13#32 = some .encodingNotInSource
    ∧ Mode.ofBits (psrMode 0#32) = none := by simp only [Claims.holdsWord]; decide +kernel

/-- Both lines asserted and an imprecise abort pending, by the environment's turn. -/
def assailed (w : Word) : State := { user with cpsr := w, env := [[.setFiq true, .setIrq true, .impreciseAbort]] }

theorem test_witness_InterruptsAreTakenBetweenInstructions :
    [0x10#32, 0x50#32, 0xD0#32].all (fun w => (Mode.ofBits (psrMode w)).isSome && (environmentTurn (assailed w)).fiqLine
      && (environmentTurn (assailed w)).irqLine && (environmentTurn (assailed w)).abortPending) = true
    ∧ (0x10#32).getLsbD 6 = false
    ∧ ((0x50#32).getLsbD 6 = true ∧ (0x50#32).getLsbD 7 = false)
    ∧ ((0xD0#32).getLsbD 6 = true ∧ (0xD0#32).getLsbD 7 = true ∧ (0xD0#32).getLsbD 8 = false)
    ∧ ((environmentTurn (assailed 0x1D0#32)).pendingException = none ∧ (0x1D0#32).getLsbD 8 = true
      ∧ (environmentTurn (assailed 0x1D0#32)).abortPending = true ∧ (assailed 0x1D0#32).params.arch = .v6)
    ∧ (stateOf (step (put (assailed 0x1D0#32) 0x8000 0xE16F0F11#32))).map (·.abortPending) = some true := by decide +kernel

theorem test_witness_StepKeepsTheInvariant : (State.reset.withFetchWord 32 0xE16F0F11).Inv
    ∧ goesOn (step (State.reset.withFetchWord 32 0xE16F0F11)) = true := by decide +kernel

theorem test_witness_ResetMeetsTheInvariant : resetParams.wf = true
    ∧ ({ resetParams with resetVector := 0xFFFFFFFC#32 } : Params).wf = true := by decide +kernel

theorem test_witness_ResetStartsSecureInSupervisorMode : resetParams.wf = true ∧ decodeWord 0xE1200070#32 = .ok (.bkpt 0#16) :=
  ⟨rfl, rfl⟩

theorem test_witness_StepKeepsNsAndParameters : goesOn (step (put last 0xFFFFFFF8 0xE16F0F11#32)) = true
    ∧ goesOn (step (put user 0x8000 0xE1200070#32)) = true := by decide +kernel

theorem test_witness_UserModeIsLeftOnlyByAnException : user.cpsr.extractLsb' 0 5 = 0b10000#5
    ∧ goesOn (step (put user 0x8000 0xE16F0F11#32)) = true ∧ goesOn (step (put user 0x8000 0xE1200070#32)) = true := by
  decide +kernel

theorem test_witness_StatusBitsChangeOnlyByTheirWriters : goesOn (exec (.setend true) user) = true
    ∧ goesOn (exec (.bkpt 0#16) user) = true := by decide +kernel

theorem test_witness_QIsSticky :
    (goesOn (exec (.clz .al 0 1) { user with cpsr := 0x08000010#32 }) = true ∧ (0x08000010#32).getLsbD 27 = true)
    ∧ (qOf (exec (.qadd .al 0 1 1) (set user [(1, 0x40000000#32)])) = some true ∧ user.cpsr.getLsbD 27 = false) := by
  decide +kernel

theorem test_witness_NonSecureStepsIgnoreSecureMemory : mixed.nonSecure = true ∧ mixed.env = []
    ∧ mixed.torn = [] ∧ Claims.agreeOutsideSecure mixed { mixed with mem := writeByte mixed.mem 0x3000 9#8 }
    ∧ goesOn (step { mixed with pc := 0x3000#32 }) = true ∧ inRegions mixed.params.secureRegions 0x3FFF = true := by
  refine ⟨by decide +kernel, by decide +kernel, by decide +kernel, ⟨_, rfl, fun a h => readByte_writeByte_other _ _ _ _ ?_⟩, by decide +kernel,
    by decide +kernel⟩
  rintro rfl
  revert h
  decide +kernel

theorem test_witness_FailedConditionOnlyAdvances :
    Claims.condition (.clz .eq 0 1) = some .eq ∧ Claims.condition (.smi .eq 0#16) = some .eq ∧ last.params.hasTrustZone = true
    ∧ Arch.rank (Claims.level (.clz .eq 0 1)) ≤ Arch.rank last.params.arch
    ∧ conditionPassed .eq last.cpsr = false ∧ Claims.hasRoom last := by simp only [Claims.hasRoom]; decide +kernel

theorem test_witness_LevelAndRegisterFifteenAreChecked :
    Arch.rank (atLevel' .v5TE user).params.arch < Arch.rank (Claims.level (.rev .al 0 1))
    ∧ Arch.rank (atLevel' .v5 user).params.arch < Arch.rank (Claims.level (.qadd .al 0 1 2))
    ∧ Arch.rank (Claims.level (.sel .al 0 1 15)) ≤ Arch.rank user.params.arch ∧ Claims.condition (.sel .al 0 1 15) = some .al
    ∧ conditionPassed .al user.cpsr = true ∧ (15 : Reg) ∈ Claims.registers (.sel .al 0 1 15)
    ∧ Claims.condition (.rfe .ia true 15) = none ∧ (15 : Reg) ∈ Claims.registers (.rfe .ia true 15) := by decide +kernel

theorem test_witness_ConditionTable : (0x50000000#32).getLsbD 31 = false ∧ (0x50000000#32).getLsbD 30 = true
    ∧ (0x50000000#32).getLsbD 29 = false ∧ (0x50000000#32).getLsbD 28 = true := by decide

theorem test_witness_BankedRegistersAreSeparate : Mode.ofBits (psrMode 0x11#32) = some .fiq
    ∧ Mode.ofBits (psrMode 0x13#32) = some .supervisor ∧ Claims.sharedBetween .fiq .supervisor 7
    ∧ ¬ Claims.sharedBetween .fiq .supervisor 8 ∧ ¬ Claims.sharedBetween .fiq .supervisor 14
    ∧ Claims.sharedBetween .user .system 14 := by simp only [Claims.sharedBetween]; decide +kernel

theorem test_witness_SmiEntersTheMonitorOrTraps : (svc.params.arch = .v6 ∧ user.params.arch = .v6) ∧ svc.params.hasTrustZone = true ∧ conditionPassed .al svc.cpsr = true
    ∧ svc.cpsr.extractLsb' 0 5 ≠ 0b10000#5 ∧ user.params.hasTrustZone = true ∧ conditionPassed .al user.cpsr = true
    ∧ user.cpsr.extractLsb' 0 5 = 0b10000#5
    ∧ ({ user with params := { user.params with hasTrustZone := false } } : State).params.hasTrustZone = false := by
  decide +kernel

/-- A non-secure supervisor whose stack pointer is `w`, the word there `v`. -/
def stacked (w : Word) : State := put (set (guarded svc) [(13, w), (14, 0x8010#32)]) w.toNat 0x10#32

theorem test_witness_NonSecureAccessAborts :
    (conditionPassed .al mixed.cpsr = true ∧ mixed.params.arch = .v6 ∧ (mixed.reg 4).toNat + 4 ≤ 2 ^ 32
      ∧ mixed.secureViolation (mixed.reg 4).toNat 4 = true ∧ wordAligned (mixed.reg 4) = true)
    ∧ Claims.selected .v6 .al mixed
    ∧ ({ mixed with reservation := some 0x3000#32 } : State).reserved (mixed.reg 4) = true
    ∧ (spsrOf (stacked 0x3000#32).spsr (stacked 0x3000#32).mode = some 0#32
      ∧ wordAligned (pairAddress .ia ((stacked 0x3000#32).phys (stackReg .supervisor))) = true
      ∧ (stacked 0x3000#32).secureViolation (pairAddress .ia ((stacked 0x3000#32).phys (stackReg .supervisor))).toNat 4 = true)
    ∧ (Claims.permitted (stacked 0x2FFC#32) (pairAddress .ia ((stacked 0x2FFC#32).reg 13))
      ∧ Claims.notText (stacked 0x2FFC#32) (pairAddress .ia ((stacked 0x2FFC#32).reg 13))
      ∧ Claims.holdsWord (stacked 0x2FFC#32).bigEndian (stacked 0x2FFC#32).mem (pairAddress .ia ((stacked 0x2FFC#32).reg 13)) 0x10#32
      ∧ (stacked 0x2FFC#32).secureViolation (pairAddress .ia ((stacked 0x2FFC#32).reg 13) + 4#32).toNat 4 = true
      ∧ (stacked 0x2FFC#32).privileged = true)
    ∧ ((Mode.ofBits (psrMode fetchSecure.cpsr)).isSome = true ∧ (environmentTurn fetchSecure).pendingException = none
      ∧ fetchSecure.armState = true ∧ wordAligned fetchSecure.pc = true
      ∧ fetchSecure.secureViolation fetchSecure.pc.toNat 4 = true) := by
  simp only [Claims.selected, Claims.permitted, Claims.notText, Claims.holdsWord]; decide +kernel

theorem test_witness_SaveThenReturn : irqStart.params.arch = .v6 ∧ Mode.ofBits (psrMode irqStart.cpsr) = some .irq
    ∧ spsrOf irqStart.spsr .irq = some 0x10#32 ∧ (Mode.ofBits (psrMode 0x10#32)).isSome = true
    ∧ wordAligned (irqStart.reg 14) = true ∧ wordAligned (irqStart.reg 13) = true
    ∧ Claims.permitted irqStart (irqStart.reg 13 - 8#32) ∧ Claims.permitted irqStart (irqStart.reg 13 - 8#32 + 4#32)
    ∧ Claims.notText irqStart (irqStart.reg 13 - 8#32) ∧ Claims.notText irqStart (irqStart.reg 13 - 8#32 + 4#32)
    ∧ Claims.hasRoom irqStart := by simp only [Claims.permitted, Claims.notText, Claims.hasRoom]; decide +kernel

/-- Bytes at the top of the address space. -/
def topped : State := put (guarded user) 0xFFFFFFFC 0x11223344#32

/-- The byte at 0xFFFFFFFA and the word at 0xFFFFFFFC, with nothing written between. -/
def holed : State := { topped with mem := writeByte topped.mem 0xFFFFFFFA 1#8 }

theorem test_witness_MemoryAccessesFollowTheByteOrder :
    (match memRead topped 0xFFFFFFFC#32 4 with | .ok v => v == 0x11223344#32 | _ => false) = true
    ∧ ((0xFFFFFFFC#32).toNat + 4 ≤ 2 ^ 32 ∧ topped.secureViolation 0xFFFFFFFC 4 = false
      ∧ (∀ k, k < 4 → (readByte topped.mem (0xFFFFFFFC + k)).isSome = true)
      ∧ rangeInRegions topped.params.programText 0xFFFFFFFC 4 = false ∧ memoryWf topped.mem)
    ∧ 2 ^ 32 < (0xFFFFFFFD#32).toNat + 4
    ∧ ((0x3FFF#32).toNat + 1 ≤ 2 ^ 32 ∧ topped.secureViolation 0x3FFF 1 = true)
    ∧ ((0x2FFC#32).toNat + 4 ≤ 2 ^ 32 ∧ topped.secureViolation 0x2FFC 4 = false ∧ readByte topped.mem 0x2FFC = none)
    ∧ ((0xFFFFFFFA#32).toNat + 4 ≤ 2 ^ 32 ∧ readByte holed.mem (0xFFFFFFFA + 1) = none
      ∧ (∀ j, j < 1 → (readByte holed.mem (0xFFFFFFFA + j)).isSome = true) ∧ holed.secureViolation 0xFFFFFFFA 4 = false) := by
  decide +kernel

theorem test_witness_StoreToProgramTextIsRefused :
    (conditionPassed .al mixed.cpsr = true ∧ wordAligned (mixed.reg 5) = true ∧ Claims.permitted mixed (mixed.reg 5)
      ∧ Claims.holdsWord mixed.bigEndian mixed.mem (mixed.reg 5) 7#32 ∧ ¬ Claims.notText mixed (mixed.reg 5))
    ∧ Claims.selected .v6 .al mixed ∧ ({ mixed with reservation := some 0x8FFC#32 } : State).reserved (mixed.reg 5) = true
    ∧ (spsrOf (stacked 0x7FFC#32).spsr (stacked 0x7FFC#32).mode = some 0#32
      ∧ wordAligned (pairAddress .ia ((stacked 0x7FFC#32).phys (stackReg .supervisor))) = true
      ∧ Claims.permitted (stacked 0x7FFC#32) (pairAddress .ia ((stacked 0x7FFC#32).phys (stackReg .supervisor)))
      ∧ Claims.permitted (stacked 0x7FFC#32) (pairAddress .ia ((stacked 0x7FFC#32).phys (stackReg .supervisor)) + 4#32)
      ∧ ¬ (Claims.notText (stacked 0x7FFC#32) (pairAddress .ia ((stacked 0x7FFC#32).phys (stackReg .supervisor)))
        ∧ Claims.notText (stacked 0x7FFC#32) (pairAddress .ia ((stacked 0x7FFC#32).phys (stackReg .supervisor)) + 4#32))) := by
  simp only [Claims.selected, Claims.permitted, Claims.notText, Claims.holdsWord]; decide +kernel

theorem test_witness_UnalignedSemaphoreAccessIsRefused :
    Claims.selected .v6 .al (set user [(3, 0x2001#32)]) ∧ ((set user [(3, 0x2001#32)]).reg 3).toNat % 4 ≠ 0
    ∧ (spsrOf (stacked 0x2003#32).spsr (stacked 0x2003#32).mode = some 0#32
      ∧ ((stacked 0x2003#32).phys (stackReg .supervisor)).toNat % 4 ≠ 0)
    ∧ (stacked 0x2003#32).privileged = true ∧ ((stacked 0x2003#32).reg 13).toNat % 4 ≠ 0 := by
  simp only [Claims.selected]; decide +kernel

theorem test_witness_WrappingPastTheTopIsRefused :
    (2 ^ 32 ≤ clzLast.pc.toNat + 4 ∧ goesOn (exec (.b .al 0#24) clzLast) = true ∧ goesOn (exec (.bkpt 0#16) clzLast) = true)
    ∧ Claims.condition (.clz .eq 0 1) = some .eq
    ∧ Arch.rank (Claims.level (.clz .eq 0 1)) ≤ Arch.rank clzLast.params.arch ∧ conditionPassed .eq clzLast.cpsr = false
    ∧ (conditionPassed .al user.cpsr = true ∧ user.params.arch = .v6
      ∧ 2 ^ 32 < ((set user [(6, 0xFFFFFFFD#32)]).reg 6).toNat + 4) := by decide +kernel

theorem test_witness_RelativeBranches : conditionPassed .al clzLast.cpsr = true ∧ clzLast.pc.toNat % 4 = 0
    ∧ conditionPassed .eq last.cpsr = false ∧ Claims.hasRoom last := by simp only [Claims.hasRoom]; decide +kernel

theorem test_witness_BlxRegister : conditionPassed .al user.cpsr = true
    ∧ ((set user [(3, 3#32)]).reg 3).getLsbD 0 = true ∧ ((set user [(3, 0#32)]).reg 3).getLsbD 1 = false
    ∧ ((set user [(3, 2#32)]).reg 3).getLsbD 0 = false ∧ ((set user [(3, 2#32)]).reg 3).getLsbD 1 = true := by decide +kernel

theorem test_witness_ClzCountsLeadingZeros : Claims.runs .v5 .al [14, 14] (atLevel' .v5 last)
    ∧ Claims.selected .v5 .al last ∧ (15 : Reg) ∈ ([15, 1] : List Reg) := by
  simp only [Claims.runs, Claims.selected, Claims.hasRoom]; decide +kernel

theorem test_witness_PldHasNoEffect : Claims.hasRoom last := by simp only [Claims.hasRoom]; decide +kernel

theorem test_witness_UmaalIsExact : Claims.runs .v6 .al [2, 3, 1, 0] last ∧ (2 : Reg) ≠ 3
    ∧ Claims.selected .v6 .al last ∧ (15 : Reg) ∉ ([2, 2, 1, 0] : List Reg) ∧ (15 : Reg) ∈ ([2, 3, 1, 15] : List Reg) := by
  simp only [Claims.runs, Claims.selected, Claims.hasRoom]; decide +kernel

theorem test_witness_CpsChangesMasksAndMode : svc.params.arch = .v6 ∧ svc.cpsr.extractLsb' 0 5 ≠ 0b10000#5 ∧ Claims.hasRoom svc
    ∧ ((Mode.ofBits 0b11111#5).isSome = true ∧ 0b11111#5 ≠ 0b10110#5) ∧ user.cpsr.extractLsb' 0 5 = 0b10000#5
    ∧ Claims.hasRoom last ∧ Mode.ofBits 0b00000#5 = none := by simp only [Claims.hasRoom]; decide +kernel

theorem test_witness_SetendWritesE : last.params.arch = .v6 ∧ Claims.hasRoom last := by
  simp only [Claims.hasRoom]; decide +kernel

theorem test_witness_SrsSavesTheReturnState : irqStart.params.arch = .v6 ∧ spsrOf irqStart.spsr irqStart.mode = some 0x10#32
    ∧ pairAddress .db (irqStart.phys (stackReg .supervisor)) = 0xFF8#32 ∧ wordAligned 0xFF8#32 = true
    ∧ Claims.permitted irqStart 0xFF8#32 ∧ Claims.permitted irqStart (0xFF8#32 + 4#32) ∧ Claims.notText irqStart 0xFF8#32
    ∧ Claims.notText irqStart (0xFF8#32 + 4#32) ∧ Claims.hasRoom irqStart ∧ user.mode = .user
    ∧ ({ user with cpsr := 0x1F#32 } : State).mode = .system ∧ Mode.ofBits 0b00000#5 = none
    ∧ (pairAddress .ia ((stacked 0x2003#32).phys (stackReg .supervisor))).toNat % 4 ≠ 0
    ∧ (stacked 0x3000#32).secureViolation (pairAddress .ia ((stacked 0x3000#32).phys (stackReg .supervisor))).toNat 4 = true
    ∧ (stacked 0x2FFC#32).secureViolation (pairAddress .ia ((stacked 0x2FFC#32).phys (stackReg .supervisor)) + 4#32).toNat 4 = true := by
  simp only [Claims.permitted, Claims.notText, Claims.hasRoom]; decide +kernel

/-- V52's start with the words `p`, `w` on the stack. -/
def returning (p w : Word) : State := put (put (set svc [(13, 0xFF8#32)]) 0xFF8 p) 0xFFC w

theorem test_witness_RfeReturns :
    ([(0x8010#32, 0x10#32), (0x8010#32, 0#32), (0x8012#32, 0x10#32), (0x8012#32, 0x01000010#32), (0x8013#32, 0x30#32)].all fun c =>
      let s := returning c.1 c.2
      s.params.arch == .v6 && s.cpsr.extractLsb' 0 5 != 0b10000#5 && wordAligned 0xFF8#32 && !s.secureViolation 0xFF8 4
        && !s.secureViolation 0xFFC 4 && wordAt s 0xFF8 == some c.1 && wordAt s 0xFFC == some c.2) = true
    ∧ Claims.holdsWord (returning 0x8010#32 0x10#32).bigEndian (returning 0x8010#32 0x10#32).mem 0xFF8#32 0x8010#32
    ∧ (Mode.ofBits ((0x10#32).extractLsb' 0 5)).isSome = true ∧ (0x8010#32).toNat % 4 = 0
    ∧ Mode.ofBits ((0#32).extractLsb' 0 5) = none
    ∧ ((0x10#32).getLsbD 5 = false ∧ (0x01000010#32).getLsbD 5 = false ∧ (0x8012#32).toNat % 4 ≠ 0) ∧ (0x30#32).getLsbD 5 = true
    ∧ user.params.arch = .v6 ∧ user.cpsr.extractLsb' 0 5 = 0b10000#5
    ∧ (stacked 0x2003#32).cpsr.extractLsb' 0 5 ≠ 0b10000#5 ∧ (pairAddress .ia ((stacked 0x2003#32).reg 13)).toNat % 4 ≠ 0
    ∧ (stacked 0x2FFC#32).secureViolation (pairAddress .ia ((stacked 0x2FFC#32).reg 13)).toNat 4 = false
    ∧ (stacked 0x2FFC#32).secureViolation (pairAddress .ia ((stacked 0x2FFC#32).reg 13) + 4#32).toNat 4 = true := by
  simp only [Claims.holdsWord]; decide +kernel

theorem test_witness_SwpExchanges : Claims.runs .v5 .al [1, 1, 3] mixed ∧ wordAligned (mixed.reg 3) = true
    ∧ Claims.permitted mixed (mixed.reg 3) ∧ Claims.notText mixed (mixed.reg 3)
    ∧ Claims.holdsWord mixed.bigEndian mixed.mem (mixed.reg 3) 5#32
    ∧ (15 : Reg) ∉ ([3, 1, 3] : List Reg) ∧ (15 : Reg) ∈ ([1, 15, 3] : List Reg)
    ∧ ((set user [(3, 0x2001#32)]).reg 3).toNat % 4 ≠ 0 ∧ Claims.selected .v5 .al user
    ∧ (wordAligned (mixed.reg 4) = true ∧ mixed.secureViolation (mixed.reg 4).toNat 4 = true) := by
  simp only [Claims.runs, Claims.selected, Claims.hasRoom, Claims.permitted, Claims.notText, Claims.holdsWord]; decide +kernel

theorem test_witness_LdrexReserves : Claims.runs .v6 .al [3, 3] mixed ∧ wordAligned (mixed.reg 3) = true
    ∧ Claims.permitted mixed (mixed.reg 3) ∧ Claims.holdsWord mixed.bigEndian mixed.mem (mixed.reg 3) 5#32
    ∧ (15 : Reg) ∈ ([15, 3] : List Reg) ∧ ((set user [(3, 0x2001#32)]).reg 3).toNat % 4 ≠ 0 ∧ Claims.selected .v6 .al user
    ∧ (wordAligned (mixed.reg 4) = true ∧ mixed.secureViolation (mixed.reg 4).toNat 4 = true) := by
  simp only [Claims.runs, Claims.selected, Claims.hasRoom, Claims.permitted, Claims.holdsWord]; decide +kernel

theorem test_witness_StrexStoresOrFails : Claims.runs .v6 .al [2, 0, 3] mixed ∧ wordAligned (mixed.reg 3) = true
    ∧ ({ mixed with reservation := some 0x2000#32 } : State).reservation = some 0x2000#32
    ∧ (0x2000#32).toNat / 2 ^ mixed.params.ergLog2 = (mixed.reg 3).toNat / 2 ^ mixed.params.ergLog2
    ∧ (0x2004#32).toNat / 2 ^ mixed.params.ergLog2 ≠ (mixed.reg 3).toNat / 2 ^ mixed.params.ergLog2 ∧ mixed.reservation = none
    ∧ Claims.permitted mixed (mixed.reg 3) ∧ Claims.notText mixed (mixed.reg 3)
    ∧ (15 : Reg) ∉ ([2, 2, 3] : List Reg) ∧ (15 : Reg) ∈ ([2, 0, 15] : List Reg)
    ∧ ((set user [(3, 0x2001#32)]).reg 3).toNat % 4 ≠ 0 ∧ Claims.selected .v6 .al user
    ∧ ((0x3000#32).toNat / 2 ^ mixed.params.ergLog2 = (mixed.reg 4).toNat / 2 ^ mixed.params.ergLog2
      ∧ wordAligned (mixed.reg 4) = true ∧ mixed.secureViolation (mixed.reg 4).toNat 4 = true)
    ∧ (mixed.params.wf = true ∧ (mixed.reg 3).toNat ≤ (0x2003#32).toNat ∧ (0x2003#32).toNat < (mixed.reg 3).toNat + 4) := by
  simp only [Claims.runs, Claims.selected, Claims.hasRoom, Claims.permitted, Claims.notText]; decide +kernel

theorem test_witness_ByteReversal :
    Claims.runs .v6 .al [1, 1] last
    ∧ (stateOf (exec (.rev .al 1 1) user)).map (fun t => decide (t.pc.toNat + 4 < 2 ^ 32)) = some true
    ∧ (Claims.selected .v6 .al last ∧ (15 : Reg) ∈ ([1, 15] : List Reg)) := by
  simp only [Claims.runs, Claims.selected, Claims.hasRoom]; decide +kernel

theorem test_witness_PackHalfwords :
    Claims.runs .v6 .al [0, 1, 2] last
    ∧ (0 < 32 ∧ 31 < 32 ∧ 1 ≤ 1 ∧ 1 ≤ 32)
    ∧ (Claims.selected .v6 .al last ∧ (15 : Reg) ∈ ([0, 1, 15] : List Reg)) := by
  simp only [Claims.runs, Claims.selected, Claims.hasRoom]; decide +kernel

theorem test_witness_WordByHalfwordMultiplies :
    Claims.runs .v5TE .al [0, 1, 2, 3] (atLevel' .v5TE last)
    ∧ Claims.runs .v5TE .al [0, 1, 2] (atLevel' .v5TE last)
    ∧ (Claims.selected .v5TE .al last ∧ (15 : Reg) ∈ ([0, 1, 2, 15] : List Reg))
    ∧ (15 : Reg) ∈ ([0, 15, 2] : List Reg) := by
  simp only [Claims.runs, Claims.selected, Claims.hasRoom]; decide +kernel

theorem test_witness_HalfwordMultiplies :
    Claims.runs .v5TE .al [0, 1, 2] (atLevel' .v5TE last)
    ∧ Claims.runs .v5TE .al [4, 5, 1, 2] (atLevel' .v5TE last)
    ∧ (4 : Reg) ≠ 5
    ∧ (15 : Reg) ∉ ([4, 4, 1, 2] : List Reg)
    ∧ (Claims.selected .v5TE .al last ∧ (15 : Reg) ∈ ([4, 5, 1, 15] : List Reg)) := by
  simp only [Claims.runs, Claims.selected, Claims.hasRoom]; decide +kernel

theorem test_witness_SaturatingAddSubtract :
    Claims.runs .v5TE .al [0, 1, 2] (atLevel' .v5TE last)
    ∧ (Claims.selected .v5TE .al last ∧ (15 : Reg) ∈ ([0, 1, 15] : List Reg)) := by
  simp only [Claims.runs, Claims.selected, Claims.hasRoom]; decide +kernel

theorem test_witness_SaturatingDoubleAddSubtract :
    Claims.runs .v5TE .al [0, 1, 2] (atLevel' .v5TE last)
    ∧ (Claims.selected .v5TE .al last ∧ (15 : Reg) ∈ ([0, 1, 15] : List Reg)) := by
  simp only [Claims.runs, Claims.selected, Claims.hasRoom]; decide +kernel

theorem test_witness_ByteLanesWrap :
    Claims.runs .v6 .al [0, 1, 2] last := by
  simp only [Claims.runs, Claims.selected, Claims.hasRoom]; decide +kernel

theorem test_witness_HalfwordLanesWrap :
    Claims.runs .v6 .al [0, 1, 2] last := by
  simp only [Claims.runs, Claims.selected, Claims.hasRoom]; decide +kernel

theorem test_witness_ByteLanesSaturate :
    Claims.runs .v6 .al [0, 1, 2] last := by
  simp only [Claims.runs, Claims.selected, Claims.hasRoom]; decide +kernel

theorem test_witness_HalfwordLanesSaturate :
    Claims.runs .v6 .al [0, 1, 2] last := by
  simp only [Claims.runs, Claims.selected, Claims.hasRoom]; decide +kernel

theorem test_witness_DualMultiplies :
    Claims.runs .v6 .al [0, 1, 2] last
    ∧ Claims.runs .v6 .al [0, 1, 2, 3] last
    ∧ Claims.runs .v6 .al [4, 5, 1, 2] last
    ∧ (4 : Reg) ≠ 5
    ∧ (Claims.selected .v6 .al last ∧ (15 : Reg) ∉ ([4, 4, 1, 2] : List Reg)) := by
  simp only [Claims.runs, Claims.selected, Claims.hasRoom]; decide +kernel

theorem test_witness_ExtendBytes :
    Claims.runs .v6 .al [0, 1] last := by
  simp only [Claims.runs, Claims.selected, Claims.hasRoom]; decide +kernel

theorem test_witness_SsatSaturates :
    Claims.runs .v6 .al [0, 1] last
    ∧ (1 ≤ 1 ∧ 1 ≤ 32 ∧ 32 ≤ 32)
    ∧ ((SatShift.lsl 31).wf = true ∧ (SatShift.asr 32).wf = true ∧ (SatShift.asr 1).wf = true) := by
  simp only [Claims.runs, Claims.selected, Claims.hasRoom]; decide +kernel

theorem test_witness_HalveSelectAndDifference :
    Claims.runs .v6 .al [0, 1, 2] last := by
  simp only [Claims.runs, Claims.selected, Claims.hasRoom]; decide +kernel

theorem test_witness_BxjEntersJazelleOrBranches :
    conditionPassed .al user.cpsr = true
    ∧ (user.params.hasJazelle = true ∧ user.params.jazelleEnabled = false)
    ∧ ({ user.params with jazelleEnabled := true } : Params).jazelleEnabled = true
    ∧ ((set user [(3, 3#32)]).reg 3).getLsbD 0 = true
    ∧ ((set user [(3, 0#32)]).reg 3).getLsbD 1 = false
    ∧ (((set user [(3, 2#32)]).reg 3).getLsbD 0 = false ∧ ((set user [(3, 2#32)]).reg 3).getLsbD 1 = true) := by
  decide +kernel

theorem test_witness_LdrPostIndexed : Claims.runs .v5 .al [1, 3] mixed ∧ mixed.params.arch = .v6 ∧ mixed.torn = [] ∧ (mixed.reg 3).toNat + 4 ≤ 2 ^ 32
    ∧ Claims.permitted mixed (mixed.reg 3) ∧ Claims.holdsWord mixed.bigEndian mixed.mem (mixed.reg 3) 5#32
    ∧ (Claims.selected .v5 .al (atLevel' .v5TE (set user [(3, 0x2002#32)])) ∧ (atLevel' .v5TE user).params.arch ≠ .v6
      ∧ ((atLevel' .v5TE (set user [(3, 0x2002#32)])).reg 3).toNat % 4 ≠ 0)
    ∧ (topped.params.arch = .v6 ∧ topped.torn = [] ∧ (0xFFFFFFFC#32).toNat + 4 = 2 ^ 32
      ∧ Claims.permitted topped 0xFFFFFFFB#32 ∧ Claims.permitted topped 0xFFFFFFFC#32)
    ∧ (15 : Reg) ∉ ([3, 3] : List Reg) ∧ (15 : Reg) ∈ ([1, 15] : List Reg)
    ∧ ((mixed.reg 4).toNat + 4 ≤ 2 ^ 32 ∧ mixed.secureViolation (mixed.reg 4).toNat 4 = true) := by
  simp only [Claims.runs, Claims.selected, Claims.hasRoom, Claims.permitted, Claims.holdsWord]; decide +kernel

/-- The word at 0x1001 while byte 0 alone is read before another agent's writes, byte by byte. -/
theorem test_witness_LdrPostIndexed_torn : Claims.runs .v5 .al [1, 6] tornLoad ∧ tornLoad.params.arch = .v6
    ∧ (tornLoad.reg 6).toNat % 4 ≠ 0 ∧ (tornLoad.reg 6).toNat + 4 ≤ 2 ^ 32 ∧ Claims.permitted tornLoad (tornLoad.reg 6)
    ∧ ∃ es, tornLoad.torn = es :: [] ∧ ∀ k : Fin 4, Claims.readDuring tornLoad (tornLoad.reg 6) es k
      ((0xFC00AA00#32).extractLsb' (8 * (if tornLoad.bigEndian then 3 - k.val else k.val)) 8) := by
  refine ⟨?_, by decide +kernel, by decide +kernel, by decide +kernel, ?_, _, rfl, ?_⟩
  · simp only [Claims.runs, Claims.selected, Claims.hasRoom]; decide +kernel
  · simp only [Claims.permitted]; decide +kernel
  · have unread : ∀ k : Fin 4, k ≠ 0 → .byte k ∉ tornLoad.torn.headD [] := by decide +kernel
    have whole (k : Fin 4) (h : k ≠ 0) (v : Byte) (hv : readByte (Claims.after tornLoad (tornLoad.torn.headD [])).mem
        ((tornLoad.reg 6).toNat + k.val) = some v) :
        Claims.readDuring tornLoad (tornLoad.reg 6) (tornLoad.torn.headD []) k v :=
      ⟨_, [], (List.append_nil _).symm, unread k h, Or.inl rfl, hv⟩
    intro k
    match k with
    | 0 => exact ⟨[], _, rfl, by decide, Or.inr rfl, by decide +kernel⟩
    | 1 => exact whole 1 (by decide) _ (by decide +kernel)
    | 2 => exact whole 2 (by decide) _ (by decide +kernel)
    | 3 => exact whole 3 (by decide) _ (by decide +kernel)

theorem test_witness_SubsSetsTheFlags :
    Claims.runs .v5 .al [4, 4] last
    ∧ 0x80000000#32 = ((2#8).setWidth 32).rotateRight (2 * (1#4).toNat)
    ∧ (Claims.selected .v5 .al last ∧ (15 : Reg) ∈ ([15, 4] : List Reg)) := by
  simp only [Claims.runs, Claims.selected, Claims.hasRoom]; decide +kernel

theorem test_witness_MsrWritesTheFlags :
    Claims.runs .v5 .al [5] last
    ∧ (Claims.selected .v5 .al last ∧ (15 : Reg) ∈ ([15] : List Reg)) := by
  simp only [Claims.runs, Claims.selected, Claims.hasRoom]; decide +kernel

end Sys2Proof.Tests
end

section
/-! PROOFS. Stores to program text and unaligned semaphore accesses (spec/20_memory.md R66, R77): what an aligned access answers,
what SWP, LDREX, STREX, SRS and RFE are once their earlier checks have passed, and the two refusals. -/

namespace Sys2Proof.Machine

/-! ## Aligned accesses -/

@[simp] theorem andThen_refused {α : Type} (s : State) (r : Refusal) (k : α → Result) :
    (Access.refused r).andThen s k = .refused r := rfl

theorem wordAligned_eq_false_iff {a : Word} : wordAligned a = false ↔ a.toNat % 4 ≠ 0 := by
  rw [ne_eq, ← wordAligned_iff, Bool.not_eq_true]

theorem loadAligned_of_unaligned {s : State} {a : Word} (h : wordAligned a = false) :
    loadAligned s a = .refused .unalignedSemaphore := by simp [loadAligned, h]

theorem storeAligned_of_unaligned {s : State} {a v : Word} (h : wordAligned a = false) :
    storeAligned s a v = .refused .unalignedSemaphore := by simp [storeAligned, h]

/-- Four bytes that hold a word in some byte order are put together to that word in that order (R63). -/
theorem readBytes_of_holdsWord {big : Bool} {m : Memory} {a v : Word} (h : Claims.holdsWord big m a v) :
    ∃ bs, readBytes m a.toNat 4 = .ok bs ∧ assemble big bs = v := by
  refine ⟨_, readBytes_four (h 0 (by decide)) (h 1 (by decide)) (h 2 (by decide)) (h 3 (by decide)), ?_⟩
  cases big <;> exact littleValue_word v

theorem loadAligned_of_holdsWord {s : State} {a v : Word} (ha : wordAligned a = true) (hp : Claims.permitted s a)
    (hv : Claims.holdsWord s.bigEndian s.mem a v) : loadAligned s a = .ok v := by
  obtain ⟨bs, hbs, hval⟩ := readBytes_of_holdsWord hv
  rw [loadAligned, if_pos ha, memRead_of_readable (wordAligned_room ha).2 hp hbs, hval]

theorem storeAligned_of_writable {s : State} {a : Word} (v : Word) (ha : wordAligned a = true) (hp : Claims.permitted s a)
    (ht : Claims.notText s a) :
    storeAligned s a v = .ok { s with mem := writeBytes s.mem a.toNat (disassemble s.bigEndian 4 v) } := by
  rw [storeAligned, if_pos ha, memWrite_of_writable v (wordAligned_room ha).2 hp ht]

/-- A permitted store of a word one of whose bytes is program text (R77). -/
theorem storeAligned_of_text {s : State} {a : Word} (v : Word) (ha : wordAligned a = true) (hp : Claims.permitted s a)
    (ht : ¬ Claims.notText s a) : storeAligned s a v = .refused .storeToCode := by
  have hroom : ¬ 2 ^ 32 < a.toNat + 4 := Nat.not_lt.mpr (wordAligned_room ha).2
  have hsecure : ¬ s.secureViolation a.toNat 4 = true := by rw [hp]; decide
  have htext : rangeInRegions s.params.programText a.toNat 4 = true := by simpa [Claims.notText] using ht
  rw [storeAligned, if_pos ha, memWrite, if_neg hroom, if_neg hsecure, if_pos htext]

/-- The four address forms keep the base's alignment: they differ from it by 0, 4 or 8 (R143, R144). -/
theorem wordAligned_pairAddress (am : AddrMode) (base : Word) : wordAligned (pairAddress am base) = wordAligned base := by
  rw [Bool.eq_iff_iff, wordAligned_iff, wordAligned_iff]
  cases am <;> simp only [pairAddress] <;> bv_omega

/-! ## The five instructions once their earlier checks have passed -/

theorem atLevel_of_v6 {need : Arch} {s : State} {body : Result} (h : s.params.arch = .v6) : atLevel need s body = body :=
  atLevel_of_le (by rw [h]; cases need <;> decide)

theorem exec_swp_of_passed {c : Cond} {rd rm rn : Reg} {s : State} (hc : conditionPassed c s.cpsr = true)
    (hd : rd ≠ 15) (hm : rm ≠ 15) (hn : rn ≠ 15) (hnd : rn ≠ rd) (hnm : rn ≠ rm) :
    exec (.swp c rd rm rn) s = (loadAligned s (s.reg rn)).andThen s fun old =>
      (storeAligned s (s.reg rn) (s.reg rm)).andThen s fun s1 => (s1.setReg rd old).advance := by
  have hr15 : [rd, rm, rn].contains 15 = false := by simp [hd.symm, hm.symm, hn.symm]
  have hregs : (rn == rd || rn == rm) = false := by simp [hnd, hnm]
  simp only [exec, execSwp, conditional_of_passed hc, withoutR15_of_not_contains hr15, hregs, refuseIf_false]

theorem exec_ldrex_of_selected {c : Cond} {rd rn : Reg} {s : State} (hsel : Claims.selected .v6 c s) (hd : rd ≠ 15)
    (hn : rn ≠ 15) :
    exec (.ldrex c rd rn) s = (loadAligned s (s.reg rn)).andThen s fun v =>
      State.advance { s.setReg rd v with reservation := some (s.reg rn) } := by
  obtain ⟨hlevel, hc⟩ := hsel
  have hr15 : [rd, rn].contains 15 = false := by simp [hd.symm, hn.symm]
  simp only [exec, execLdrex, atLevel_of_le hlevel, conditional_of_passed hc, withoutR15_of_not_contains hr15]

theorem exec_strex_of_selected {c : Cond} {rd rm rn : Reg} {s : State} (hsel : Claims.selected .v6 c s) (hd : rd ≠ 15)
    (hm : rm ≠ 15) (hn : rn ≠ 15) (hdm : rd ≠ rm) (hdn : rd ≠ rn) :
    exec (.strex c rd rm rn) s =
      if !wordAligned (s.reg rn) then .refused .unalignedSemaphore
      else if s.reserved (s.reg rn) then
        (storeAligned s (s.reg rn) (s.reg rm)).andThen s fun s1 =>
          State.advance { s1.setReg rd 0#32 with reservation := none }
      else State.advance { s.setReg rd 1#32 with reservation := none } := by
  obtain ⟨hlevel, hc⟩ := hsel
  have hr15 : [rd, rm, rn].contains 15 = false := by simp [hd.symm, hm.symm, hn.symm]
  have hregs : (rd == rm || rd == rn) = false := by simp [hdm, hdn]
  simp only [exec, execStrex, atLevel_of_le hlevel, conditional_of_passed hc, withoutR15_of_not_contains hr15, hregs,
    refuseIf_false]

theorem exec_srs_of_spsr {am : AddrMode} {wb : Bool} {m : Mode} {s : State} {saved : Word} (hv6 : s.params.arch = .v6)
    (hsaved : spsrOf s.spsr s.mode = some saved) :
    exec (.srs am wb m.bits) s =
      (storeAligned s (pairAddress am (s.phys (stackReg m))) (s.reg 14)).andThen s fun s1 =>
        (storeAligned s1 (pairAddress am (s.phys (stackReg m)) + 4#32) saved).andThen s fun s2 =>
          (if wb then s2.setPhys (stackReg m) (pairBase am (s.phys (stackReg m))) else s2).advance := by
  simp only [exec, execSrs, atLevel_of_v6 hv6, hsaved, ofBits_bits]

theorem exec_rfe_of_privileged {am : AddrMode} {wb : Bool} {rn : Reg} {s : State} (hv6 : s.params.arch = .v6)
    (hpriv : s.privileged = true) (hn : rn ≠ 15) :
    exec (.rfe am wb rn) s =
      (loadAligned s (pairAddress am (s.reg rn))).andThen s fun newPc =>
        (loadAligned s (pairAddress am (s.reg rn) + 4#32)).andThen s fun newCpsr =>
          returnFromException (if wb then s.setReg rn (pairBase am (s.reg rn)) else s) newPc newCpsr := by
  have hr15 : [rn].contains 15 = false := by simp [hn.symm]
  simp only [exec, execRfe, atLevel_of_v6 hv6, withoutR15_of_not_contains hr15, if_pos hpriv]

/-! ## Stores to program text -/

/-- The first word of SRS to reach program text stops it: the store of the link register, or after it the store of the saved
status, which sees the parameters and the security state that the first store has left as they were (R77, R143). -/
theorem exec_srs_of_text {am : AddrMode} {wb : Bool} {m : Mode} {s : State} {saved a : Word} (hv6 : s.params.arch = .v6)
    (hsaved : spsrOf s.spsr s.mode = some saved) (hpair : pairAddress am (s.phys (stackReg m)) = a)
    (ha : wordAligned a = true) (hp : Claims.permitted s a) (hp4 : Claims.permitted s (a + 4#32))
    (ht : ¬ (Claims.notText s a ∧ Claims.notText s (a + 4#32))) :
    exec (.srs am wb m.bits) s = .refused .storeToCode := by
  rw [exec_srs_of_spsr hv6 hsaved, hpair]
  by_cases hfirst : Claims.notText s a
  · have hsecond : ¬ Claims.notText s (a + 4#32) := fun h => ht ⟨hfirst, h⟩
    have hstop (mem : Memory) : storeAligned { s with mem := mem } (a + 4#32) saved = .refused .storeToCode :=
      storeAligned_of_text saved (wordAligned_add_four ha) hp4 hsecond
    rw [storeAligned_of_writable _ ha hp hfirst, andThen_ok, hstop, andThen_refused]
  · rw [storeAligned_of_text _ ha hp hfirst, andThen_refused]

/-- Settles O27: each instruction comes to its store, and that store is refused. -/
theorem storeToProgramTextIsRefused : Obligations.StoreToProgramTextIsRefused := by
  intro s c rd rn rm am wb
  refine ⟨?swp, ?strex, ?srs⟩
  case swp =>
    intro old hc hd hm hn hnd hnm ha hp hold ht
    rw [exec_swp_of_passed hc hd hm hn hnd hnm, loadAligned_of_holdsWord ha hp hold, andThen_ok,
      storeAligned_of_text _ ha hp ht, andThen_refused]
  case strex =>
    intro hsel hd hm hn hdm hdn ha hres hp ht
    rw [exec_strex_of_selected hsel hd hm hn hdm hdn, if_neg (by simp [ha]), if_pos hres, storeAligned_of_text _ ha hp ht,
      andThen_refused]
  case srs =>
    intro saved m hv6 hsaved ha hp hp4 ht
    exact exec_srs_of_text hv6 hsaved rfl ha hp hp4 ht

/-! ## Unaligned semaphore accesses -/

/-- Settles O28: the first access of each instruction is at its unaligned address, and STREX checks the address before the
reservation. -/
theorem unalignedSemaphoreAccessIsRefused : Obligations.UnalignedSemaphoreAccessIsRefused := by
  intro s c rd rn rm am wb
  simp only [← wordAligned_eq_false_iff]
  refine ⟨?swp, ?ldrex, ?strex, ?srs, ?rfe⟩
  case swp =>
    intro hc hd hm hn hnd hnm ha
    rw [exec_swp_of_passed hc hd hm hn hnd hnm, loadAligned_of_unaligned ha, andThen_refused]
  case ldrex =>
    intro hsel hd hn ha
    rw [exec_ldrex_of_selected hsel hd hn, loadAligned_of_unaligned ha, andThen_refused]
  case strex =>
    intro hsel hd hm hn hdm hdn ha
    rw [exec_strex_of_selected hsel hd hm hn hdm hdn, if_pos (by simp [ha])]
  case srs =>
    intro saved m hv6 hsaved ha
    rw [← wordAligned_pairAddress am] at ha
    rw [exec_srs_of_spsr hv6 hsaved, storeAligned_of_unaligned ha, andThen_refused]
  case rfe =>
    intro hv6 hpriv hn ha
    rw [← wordAligned_pairAddress am] at ha
    rw [exec_rfe_of_privileged hv6 hpriv hn, loadAligned_of_unaligned ha, andThen_refused]

end Sys2Proof.Machine
end

section
/-! PROOFS. Decoding, conditions, the instruction-set state and relative branches (spec/30_encoding.md R91, R92, R100, R103, R106;
spec/40_v5_extensions.md R120; spec/46_base_instructions_in_examples.md R282). -/

namespace Sys2Proof.Laws

/-! ## Words of the spec -/

/-- The tables being unambiguous, a row that fits the word of an instruction and reads it back is the row the decoder uses. -/
theorem decodeWord_encode {i : Instr} (hrow : EncodedRow.Statement i) (hwf : i.wf = true) : decodeWord (encode i) = .ok i := by
  obtain ⟨k, r, hk, hfits, hread⟩ := hrow hwf
  rw [decodeWord_eq_lookup, lookup_of_fits (rowsFor_differ _) hk hfits, hread]

/-- A word that no row of its table fits is refused as not in the source (R103). -/
theorem decodeWord_of_no_row {w : Word} (h : ∀ r ∈ (rowsFor w).2, r.fits w = false) :
    decodeWord w = .error .encodingNotInSource := by
  have hfind : (rowsFor w).2.find? (·.fits w) = none :=
    List.find?_eq_none.mpr fun r hr => by rw [h r hr]; decide
  rw [decodeWord_eq_lookup, lookup, hfind]

/-- Settles O3: each word is the encoding of its instruction, and the near miss fits no row of the conditional table. -/
theorem wordsOfTheSpecDecode : Obligations.WordsOfTheSpecDecode :=
  ⟨decodeWord_encode (EncodedRow.blxReg .al 3) rfl, decodeWord_encode (EncodedRow.blxLabel true 0xFFFFFF#24) rfl,
    decodeWord_encode (EncodedRow.clz .al 2 0) rfl, decodeWord_encode (EncodedRow.bkpt 0xABCD#16) rfl,
    decodeWord_encode (EncodedRow.pld false false 1 0x004#12) rfl, decodeWord_encode (EncodedRow.pkhtb .al 0 1 2 32) rfl,
    decodeWord_encode (EncodedRow.bxj .al 2) rfl, decodeWord_of_no_row (by decide),
    decodeWord_encode (EncodedRow.umaal .al 2 3 1 0) rfl, decodeWord_encode (EncodedRow.qdadd .al 5 5 3) rfl,
    decodeWord_encode (EncodedRow.smuad true .al 0 1 2) rfl, decodeWord_encode (EncodedRow.ldrPost .al true 1 6 4#12) rfl,
    decodeWord_encode (EncodedRow.b .ne 0xFFFFF7#24) rfl, decodeWord_encode (EncodedRow.strex .al 2 0 1) rfl⟩

end Sys2Proof.Laws

namespace Sys2Proof.Machine

/-! ## The table of conditions -/

/-- Settles O19: row by row, each condition is a Boolean combination of the four flags; the codes are those that `Cond.bits` gives,
and 1111 is left over. -/
theorem conditionTable : Obligations.ConditionTable := by
  intro psr n z c v hn hz hc hv
  subst hn hz hc hv
  refine ⟨?eq, ?ne, ?cs, ?cc, ?mi, ?pl, ?vs, ?vc, ?hi, ?ls, ?ge, ?lt, ?gt, ?le, ?al, ?codes⟩
  case eq | cs | mi | vs => exact Iff.rfl
  case ne | cc | pl | vc => exact iff_of_eq (Bool.not_eq_true' _)
  case hi | ls | ge | lt | gt | le => simp [conditionPassed, psrN, psrZ, psrC, psrV, getBit]
  case al => rfl
  case codes =>
    exact ⟨Cond.ofBits_bits .eq, Cond.ofBits_bits .ne, Cond.ofBits_bits .cs, Cond.ofBits_bits .cc, Cond.ofBits_bits .mi,
      Cond.ofBits_bits .pl, Cond.ofBits_bits .vs, Cond.ofBits_bits .vc, Cond.ofBits_bits .hi, Cond.ofBits_bits .ls,
      Cond.ofBits_bits .ge, Cond.ofBits_bits .lt, Cond.ofBits_bits .gt, Cond.ofBits_bits .le, Cond.ofBits_bits .al, rfl⟩

/-! ## Thumb and Jazelle state -/

/-- The processor is out of ARM state exactly when T = 1 or J = 1. -/
theorem armState_eq_false_iff {s : State} :
    s.armState = false ↔ s.cpsr.getLsbD 5 = true ∨ s.cpsr.getLsbD 24 = true := by
  rw [State.armState, Bool.and_eq_false_iff, Bool.not_eq_false', Bool.not_eq_false']
  exact Iff.rfl

/-- ARM state depends on the status register alone. -/
theorem armState_congr {s t : State} (h : t.cpsr = s.cpsr) : t.armState = s.armState := by
  simp only [State.armState, h]

/-- In a legal mode with nothing to take, a step out of ARM state is refused before it fetches. -/
theorem step_of_not_armState {s : State} (hmode : (Mode.ofBits (psrMode s.cpsr)).isSome = true)
    (hquiet : (environmentTurn s).pendingException = none) (harm : (environmentTurn s).armState = false) :
    step s = .refused .thumbOrJazelleState := by
  obtain ⟨m, hm⟩ := Option.isSome_iff_exists.mp hmode
  simp [step, hm, hquiet, harm]

/-- Settles O6: the environment's turn leaves T and J as they are, so the step's check of them sees the bits of `s`. -/
theorem thumbAndJazelleStatesAreRefused : Obligations.ThumbAndJazelleStatesAreRefused := by
  intro s hmode hquiet hbits
  obtain ⟨-, -, hcpsr, -⟩ := environmentTurn_frame s
  have harm : (environmentTurn s).armState = false := by rw [armState_congr hcpsr, armState_eq_false_iff]; exact hbits
  exact step_of_not_armState hmode hquiet harm

/-! ## Failed conditions -/

/-- At its level, and for SMI with TrustZone present, an instruction with a condition field does nothing before it tests its
condition: it is some effect behind `conditional`. -/
theorem exec_eq_conditional {i : Instr} {c : Cond} {s : State} (hi : Claims.condition i = some c)
    (hlevel : Arch.rank (Claims.level i) ≤ Arch.rank s.params.arch)
    (hsmi : ∀ c' imm, i = .smi c' imm → s.params.hasTrustZone = true) :
    ∃ body, exec i s = conditional c s body := by
  cases i with
  | blxLabel | bkpt | pld | cdp2 | mrc2 | cps | setend | srs | rfe => exact nomatch hi
  | blxReg | bxj | swp | ldrPost | b =>
    cases hi
    exact ⟨_, rfl⟩
  | smi c' imm =>
    cases hi
    have htz : s.params.hasTrustZone = true := hsmi c imm rfl
    exact ⟨_, (atLevel_of_le hlevel).trans (if_pos htz)⟩
  | clz | pkhbt | pkhtb | umaal | ldrex | strex | rev | rev16 | revsh | smlaw | smulw | smlal | smul | qadd | qsub | qdadd | qdsub
  | uqadd8 | qadd8 | uadd8 | sadd8 | uqsub8 | qsub8 | usub8 | ssub8 | uqadd16 | qadd16 | uadd16 | sadd16 | uqsub16 | qsub16
  | usub16 | ssub16 | uqaddsubx | qaddsubx | uaddsubx | saddsubx | uqsubaddx | qsubaddx | usubaddx | ssubaddx | uhsub8
  | smuad | smusd | smlad | smlsd | smlald | smlsld | uxtb | sxtb16 | ssat | sel | usad8 | subsImm | msrCpsrF =>
    cases hi
    exact ⟨_, atLevel_of_le hlevel⟩

/-- An instruction whose condition fails goes on to the next address, or is refused where there is none (R91, D29). -/
theorem exec_of_failed {i : Instr} {c : Cond} {s : State} (hi : Claims.condition i = some c)
    (hlevel : Arch.rank (Claims.level i) ≤ Arch.rank s.params.arch)
    (hsmi : ∀ c' imm, i = .smi c' imm → s.params.hasTrustZone = true) (hc : conditionPassed c s.cpsr = false) :
    exec i s = s.advance := by
  obtain ⟨body, hexec⟩ := exec_eq_conditional hi hlevel hsmi
  rw [hexec, conditional_of_failed hc]

/-- Settles O17: a failed condition leaves `advance`, which with a next address is the pc plus 4. -/
theorem failedConditionOnlyAdvances : Obligations.FailedConditionOnlyAdvances := by
  intro i c s hi hlevel hsmi hc hroom
  rw [exec_of_failed hi hlevel hsmi hc, advance_of_lt hroom]

/-! ## Relative branches -/

/-- A sign-extended word offset shifted left by 2 is four times the signed number (R100). -/
theorem branchOffset_eq_ofInt (imm24 : BitVec 24) : branchOffset imm24 = BitVec.ofInt 32 (4 * imm24.toInt) := by
  rw [branchOffset, BitVec.shiftLeft_eq_mul_twoPow, BitVec.mul_comm, BitVec.ofInt_mul]
  rfl

/-- The target of a relative branch, computed on numbers and reduced modulo 2^32. -/
theorem branchTarget_eq_ofInt (pc : Word) (imm24 : BitVec 24) :
    pc + 8#32 + branchOffset imm24 = BitVec.ofInt 32 (pc.toNat + 8 + 4 * imm24.toInt) := by
  have hpc : BitVec.ofInt 32 pc.toNat = pc := by simp
  rw [BitVec.ofInt_add, BitVec.ofInt_add, hpc, branchOffset_eq_ofInt]
  rfl

theorem hOffset_eq_ofInt (h : Bool) : hOffset h = BitVec.ofInt 32 (if h then 2 else 0) := by cases h <;> rfl

/-- A branch that changes nothing but the pc. -/
theorem frame_withPc (s : State) (target : Word) : Claims.frame s { s with pc := target } [] [] :=
  ⟨fun _ _ => rfl, fun _ _ => rfl, fun _ => rfl, rfl, ⟨rfl, rfl, rfl, rfl, rfl, rfl, rfl, rfl⟩, rfl⟩

@[simp] theorem psrMode_psrSetT (w : Word) (thumb : Bool) : psrMode (psrSetT w thumb) = psrMode w := by
  simp (disch := decide) [psrMode, psrSetT]

theorem getLsbD_psrSetT (w : Word) (thumb : Bool) (k : Nat) :
    (psrSetT w thumb).getLsbD k = if k = 5 then thumb else w.getLsbD k := getLsbD_putBit w 5 thumb k (by decide)

/-- The state after a branch with link: r14 of the current mode, the T bit and the pc are written (R120, R121). -/
def linkedTo (s : State) (link : Word) (thumb : Bool) (target : Word) : State :=
  { (s.setReg 14 link).setCpsr (psrSetT s.cpsr thumb) with pc := target }

@[simp] theorem linkedTo_pc (s : State) (link : Word) (thumb : Bool) (target : Word) :
    (linkedTo s link thumb target).pc = target := rfl

theorem linkedTo_cpsr (s : State) (link : Word) (thumb : Bool) (target : Word) :
    (linkedTo s link thumb target).cpsr = psrSetT s.cpsr thumb := rfl

theorem linkedTo_reg_link (s : State) (link : Word) (thumb : Bool) (target : Word) :
    (linkedTo s link thumb target).reg 14 = link := by
  have hmode : ((s.setReg 14 link).setCpsr (psrSetT s.cpsr thumb)).mode = (s.setReg 14 link).mode := by simp [State.mode]
  calc (linkedTo s link thumb target).reg 14
      = ((s.setReg 14 link).setCpsr (psrSetT s.cpsr thumb)).reg 14 := reg_withPc _ target 14 (by decide)
    _ = (s.setReg 14 link).reg 14 := reg_congr (setCpsr_regs ..) (setCpsr_pc ..) hmode 14
    _ = link := reg_setReg_same s 14 link (by decide)

theorem frame_linkedTo (s : State) (link : Word) (thumb : Bool) (target : Word) :
    Claims.frame s (linkedTo s link thumb target) [14] [5] := by
  refine ⟨?regs, ?status, ?memory, ?reservation, ?system, ?freeCount⟩
  case regs =>
    intro p hp
    have hlink : bankedReg s.mode 14 ≠ some p := hp 14 (List.mem_singleton_self 14)
    exact (phys_setReg s 14 link p).trans (if_neg hlink)
  case status =>
    intro k hk
    rw [linkedTo_cpsr, getLsbD_psrSetT, if_neg (by simpa using hk)]
  case memory => intro a; simp [linkedTo]
  case reservation => simp [linkedTo]
  case system => simp [Claims.sameSystem, linkedTo]
  case freeCount => simp [linkedTo]

/-- BLX label leaves T = 1, so its target need not be a multiple of 4. -/
theorem exec_blxLabel (h : Bool) (imm24 : BitVec 24) (s : State) :
    exec (.blxLabel h imm24) s
      = .next (linkedTo s (s.pc + 4#32) true (s.pc + 8#32 + branchOffset imm24 + hOffset h)) := by
  have hthumb : psrT ((s.setReg 14 (s.pc + 4#32)).setCpsr (psrSetT s.cpsr true)).cpsr = true :=
    getBit_putBit_same s.cpsr 5 true (by decide)
  exact jump_of_aligned fun harm => nomatch hthumb.symm.trans harm

theorem exec_b_of_passed {c : Cond} {imm24 : BitVec 24} {s : State} (hc : conditionPassed c s.cpsr = true) :
    exec (.b c imm24) s = .next { s with pc := s.pc + 8#32 + branchOffset imm24 } := conditional_of_passed hc

/-- Settles O30: the targets by `branchTarget_eq_ofInt`; what else each branch writes by its frame. -/
theorem relativeBranches : Obligations.RelativeBranches := by
  refine ⟨?blx, ?b⟩
  case blx =>
    intro s hBit imm24
    refine ⟨_, exec_blxLabel hBit imm24 s, ?_, linkedTo_reg_link .., ?_, frame_linkedTo ..⟩
    · rw [linkedTo_pc, branchTarget_eq_ofInt, hOffset_eq_ofInt, ← BitVec.ofInt_add]
    · rw [linkedTo_cpsr, getLsbD_psrSetT, if_pos rfl]
  case b =>
    intro s c imm24
    refine ⟨fun hc => ?passed, fun hc hroom => ?failed⟩
    case passed =>
      refine ⟨_, exec_b_of_passed hc, branchTarget_eq_ofInt .., ?_, frame_withPc ..⟩
      simp only [← wordAligned_iff]
      exact branchOffset_aligned imm24
    case failed =>
      exact ⟨_, (conditional_of_failed hc).trans (advance_of_lt hroom), rfl, frame_withPc ..⟩

end Sys2Proof.Machine
end

section
/-! PROOFS. The v5 extensions (spec/40_v5_extensions.md R121, R122, R123, R125, R126): what an exchange branch answers, what a register
instruction with one result answers, the leading zeros of a word, and what an exception entry writes. -/

namespace Sys2Proof.Machine

/-! ## Exchange branches -/

/-- An address is aligned exactly when both its low bits are 0. -/
theorem wordAligned_iff_getLsbD {a : Word} : wordAligned a = true ↔ a.getLsbD 0 = false ∧ a.getLsbD 1 = false := by
  simp only [wordAligned_iff, BitVec.getLsbD, Nat.testBit_eq_decide_div_mod_eq, decide_eq_false_iff_not]
  omega

/-- Clearing bit 0 of a word is masking it (R121). -/
theorem putBit_zero_false (v : Word) : putBit v 0 false = v &&& 0xFFFFFFFE#32 := by
  have hmask : (0xFFFFFFFE#32 : Word) = ~~~1#32 := rfl
  apply BitVec.eq_of_getLsbD_eq
  intro k hk
  rw [getLsbD_putBit v 0 false k (by decide), hmask]
  simp only [BitVec.getLsbD_and, BitVec.getLsbD_not, BitVec.getLsbD_one]
  by_cases h0 : k = 0
  · simp [h0]
  · simp [h0, hk, -BitVec.getLsbD_eq_getElem]

/-- Bit 0 of an exchange branch's target is cleared, so bit 1 alone decides whether the address is aligned. -/
theorem wordAligned_putBit_zero (v : Word) : wordAligned (putBit v 0 false) = !v.getLsbD 1 := by
  rw [Bool.eq_iff_iff, wordAligned_iff_getLsbD, getLsbD_putBit v 0 false 0 (by decide), getLsbD_putBit v 0 false 1 (by decide)]
  simp

/-- Leaving T = 0, a jump to an address that is not a multiple of 4 is refused (R75). -/
theorem jump_of_misaligned {s : State} {a : Word} (hT : psrT s.cpsr = false) (ha : wordAligned a = false) :
    s.jump a = .refused .misalignedArmTarget := by
  simp [State.jump, hT, ha]

theorem psrT_psrSetT (w : Word) (thumb : Bool) : psrT (psrSetT w thumb) = thumb :=
  getBit_putBit_same w 5 thumb (by decide)

/-- An exchange branch completes to Thumb state, bit 0 being set, and with bits 1:0 clear to ARM state (R121, R75). -/
theorem exchange_of_aligned {s : State} {v : Word} (h : v.getLsbD 0 = true ∨ v.getLsbD 1 = false) :
    s.exchange v = .next { s.setCpsr (psrSetT s.cpsr (v.getLsbD 0)) with pc := v &&& 0xFFFFFFFE#32 } := by
  rw [State.exchange, jump_of_aligned, putBit_zero_false]
  · rfl
  · intro hT
    have hbit0 : v.getLsbD 0 = false := (psrT_psrSetT ..).symm.trans hT
    have hbit1 : v.getLsbD 1 = false := h.resolve_left (by rw [hbit0]; exact Bool.false_ne_true)
    rw [wordAligned_putBit_zero, hbit1, Bool.not_false]

/-- Bits 1:0 = 10 name an ARM target between two instructions (R75). -/
theorem exchange_of_misaligned {s : State} {v : Word} (h0 : v.getLsbD 0 = false) (h1 : v.getLsbD 1 = true) :
    s.exchange v = .refused .misalignedArmTarget :=
  jump_of_misaligned ((psrT_psrSetT ..).trans h0) (by rw [wordAligned_putBit_zero, h1, Bool.not_true])

/-! ## BLX Rm -/

theorem withoutR15_of_mem {rs : List Reg} {body : Result} (h : (15 : Reg) ∈ rs) :
    withoutR15 rs body = .refused .registerFifteen := if_pos (List.contains_iff_mem.mpr h)

theorem withoutR15_of_not_mem {rs : List Reg} {body : Result} (h : (15 : Reg) ∉ rs) : withoutR15 rs body = body :=
  withoutR15_of_not_contains (by simpa using h)

theorem exec_blxReg_of_passed {c : Cond} {rm : Reg} {s : State} (hc : conditionPassed c s.cpsr = true) :
    exec (.blxReg c rm) s = withoutR15 [rm] ((s.setReg 14 (s.pc + 4#32)).exchange (s.reg rm)) :=
  conditional_of_passed hc

/-- Settles O31: past its checks BLX Rm is the exchange branch to Rm's old value after the link is written, and bits 1:0 of that value
decide whether the branch completes. -/
theorem blxRegister : Obligations.BlxRegister := by
  intro s c rm hc
  rw [exec_blxReg_of_passed hc]
  refine ⟨fun hrm htarget => ?completes, fun hrm h0 h1 => ?misaligned, fun hrm => ?fifteen⟩
  case completes =>
    refine ⟨linkedTo s (s.pc + 4#32) ((s.reg rm).getLsbD 0) (s.reg rm &&& 0xFFFFFFFE#32), ?_, linkedTo_pc ..,
      linkedTo_reg_link .., ?_, frame_linkedTo ..⟩
    · rw [withoutR15_of_not_mem (by simpa using hrm.symm), exchange_of_aligned htarget, setReg_cpsr, linkedTo]
    · rw [linkedTo_cpsr, getLsbD_psrSetT, if_pos rfl]
  case misaligned => rw [withoutR15_of_not_mem (by simpa using hrm.symm), exchange_of_misaligned h0 h1]
  case fifteen => exact withoutR15_of_mem (by simp [hrm])

/-! ## Register instructions with one result -/

/-- Writing one register and going on changes nothing else. -/
theorem onlyWrites_setReg (s : State) {rd : Reg} (v : Word) (hrd : rd ≠ 15) :
    Claims.onlyWrites s { s.setReg rd v with pc := (s.setReg rd v).pc + 4#32 } [rd] [] := by
  refine ⟨by rw [setReg_pc s rd v hrd], ?regs, ?status, ?memory, ?reservation, ?system, ?freeCount⟩
  case regs =>
    intro p hp
    have hother : bankedReg s.mode rd ≠ some p := hp rd (List.mem_singleton_self rd)
    exact (phys_setReg s rd v p).trans (if_neg hother)
  case status => intro k _; rw [setReg_cpsr]
  case memory => intro a; rw [setReg_mem]
  case reservation => exact setReg_reservation s rd v
  case system => simp [Claims.sameSystem]
  case freeCount => exact setReg_freeCount s rd v

/-- A register instruction that executes normally, and whose update is one register, writes that register alone. -/
theorem registerStep_setReg_of_runs {need : Arch} {c : Cond} {rd : Reg} {rs : List Reg} {s : State} (v : Word)
    (hruns : Claims.runs need c (rd :: rs) s) :
    ∃ t, registerStep need c (rd :: rs) s (s.setReg rd v) = .next t ∧ Claims.onlyWrites s t [rd] [] ∧ t.reg rd = v := by
  obtain ⟨⟨hlevel, hc⟩, hr15, hroom⟩ := hruns
  have hrd : rd ≠ 15 := fun h => hr15 (h ▸ List.mem_cons_self)
  have hroom' : (s.setReg rd v).pc.toNat + 4 < 2 ^ 32 := by rw [setReg_pc s rd v hrd]; exact hroom
  exact ⟨_, registerStep_of_passed hlevel hc (by simpa using hr15) hroom', onlyWrites_setReg s v hrd,
    (reg_withPc _ _ rd hrd).trans (reg_setReg_same s rd v hrd)⟩

/-- A selected register instruction that names register 15 is refused (R21). -/
theorem registerStep_of_fifteen {need : Arch} {c : Cond} {rs : List Reg} {s u : State} (hsel : Claims.selected need c s)
    (hr15 : (15 : Reg) ∈ rs) : registerStep need c rs s u = .refused .registerFifteen := by
  obtain ⟨hlevel, hc⟩ := hsel
  rw [registerStep, atLevel_of_le hlevel, conditional_of_passed hc, withoutR15_of_mem hr15]

/-! ## Leading zeros -/

theorem leadingZeros_zero : leadingZeros 0#32 = 32 := if_pos rfl

/-- Below a nonzero word's leading zeros stands its highest set bit: the two together are the 31 places under bit 31. -/
theorem leadingZeros_add_log2 {v : Word} (hv : v ≠ 0#32) : leadingZeros v + v.toNat.log2 = 31 := by
  have hlog : v.toNat.log2 < 32 := (Nat.log2_lt (BitVec.toNat_ne.mp hv)).mpr v.isLt
  rw [leadingZeros, if_neg hv]
  omega

theorem leadingZeros_le (v : Word) : leadingZeros v ≤ 32 := by
  by_cases hv : v = 0#32
  · rw [hv, leadingZeros_zero]
  · have := leadingZeros_add_log2 hv
    omega

theorem getLsbD_of_lt_leadingZeros {v : Word} {k : Nat} (hk : k < leadingZeros v) : v.getLsbD (31 - k) = false := by
  by_cases hv : v = 0#32
  · rw [hv, BitVec.getLsbD_zero]
  · have hsum := leadingZeros_add_log2 hv
    have habove : v.toNat < 2 ^ (31 - k) := Nat.log2_lt (BitVec.toNat_ne.mp hv) |>.mp (by omega)
    exact Nat.testBit_eq_false_of_lt habove

theorem getLsbD_leadingZeros {v : Word} (h : leadingZeros v < 32) : v.getLsbD (31 - leadingZeros v) = true := by
  have hv : v ≠ 0#32 := fun hv => by rw [hv, leadingZeros_zero] at h; omega
  have hplace : 31 - leadingZeros v = v.toNat.log2 := by have := leadingZeros_add_log2 hv; omega
  rw [hplace]
  exact Nat.testBit_log2 (BitVec.toNat_ne.mp hv)

/-- Settles O32: CLZ writes the number of leading zeros, and the word's bits pin that number. -/
theorem clzCountsLeadingZeros : Obligations.ClzCountsLeadingZeros := by
  intro c rd rm
  refine ⟨fun s hruns => ?completes, fun s hsel hr15 => registerStep_of_fifteen hsel hr15⟩
  obtain ⟨t, hexec, hwrites, hrd⟩ := registerStep_setReg_of_runs (BitVec.ofNat 32 (leadingZeros (s.reg rm))) hruns
  have hle := leadingZeros_le (s.reg rm)
  have hvalue : (t.reg rd).toNat = leadingZeros (s.reg rm) := by
    rw [hrd, BitVec.toNat_ofNat, Nat.mod_eq_of_lt (by omega)]
  exact ⟨t, _, hexec, hwrites, hle, hvalue, fun _ => getLsbD_of_lt_leadingZeros, getLsbD_leadingZeros⟩

/-! ## Exception entry -/

/-- The model's tables of an exception are the columns of R302's row. -/
theorem exceptionRow_columns (e : Exception) :
    Claims.exceptionRow e = ⟨(Claims.exceptionRow e).offset, (exceptionMode e).bits, linkReg (exceptionMode e), exceptionMode e,
      exceptionReturnOffset e, exceptionSetsF e, exceptionSetsA e⟩ := by cases e <;> rfl

theorem exceptionVector_eq_offset (e : Exception) (p : Params) :
    exceptionVector p e = (if e = .monitor then p.monitorVectorBase else p.vectorBase) + (Claims.exceptionRow e).offset := by
  cases e <;> rfl

/-- No exception enters user or system mode, so the mode entered has an SPSR (R36, R302). -/
theorem spsrOf_exceptionMode_isSome (e : Exception) (f : SpsrFile) : (spsrOf f (exceptionMode e)).isSome = true := by
  cases e <;> rfl

/-- Taking an exception is the entry of R303 with the row of R302. -/
theorem entered_takeException (e : Exception) (s : State) : Claims.entered e s (takeException e s) := by
  unfold Claims.entered
  rw [takeException_pc, exceptionVector_eq_offset, exceptionRow_columns e]
  refine ⟨?link, ?regs, ?saved, ?spsrs, ?mode, ?thumb, ?jazelle, ?irq, ?fiq, ?abort, ?order, ?status, rfl, fun _ => rfl,
    rfl, rfl, rfl, rfl, rfl, rfl, rfl, rfl, rfl⟩
  case link => exact (takeException_phys ..).trans (if_pos rfl)
  case regs => intro p hp; exact (takeException_phys ..).trans (if_neg hp)
  case saved => exact spsrOf_setSpsrOf_same s.spsr _ s.cpsr (spsrOf_exceptionMode_isSome e s.spsr)
  case spsrs => intro m hm; exact spsrOf_setSpsrOf_other s.spsr _ m s.cpsr hm
  case mode => exact psrMode_entryPsr e s.params s.cpsr
  case thumb | jazelle | irq | fiq | abort | order => rw [takeException_cpsr, getLsbD_entryPsr]; rfl
  case status =>
    intro k hk
    simp only [List.mem_cons, List.not_mem_nil, or_false, not_or] at hk
    have hmode : ¬ k < 5 := by omega
    rw [takeException_cpsr, getLsbD_entryPsr]
    simp only [hmode, hk, if_false]

/-- Settles O22: BKPT is the Prefetch Abort entry whatever its immediate and the state. -/
theorem bkptTakesAPrefetchAbort : Obligations.BkptTakesAPrefetchAbort :=
  fun s _ => ⟨takeException .prefetchAbort s, rfl, entered_takeException .prefetchAbort s⟩

/-! ## Coprocessor instructions -/

/-- Settles O34: the meanings of CDP2 and MRC2 look at neither their operands nor the state. -/
theorem coprocessorInstructionsAreRefused : Obligations.CoprocessorInstructionsAreRefused :=
  fun _ _ _ _ _ _ _ _ _ => ⟨rfl, rfl⟩

end Sys2Proof.Machine
end

section
/-! PROOFS. v6 long multiply, SETEND and byte reversal (spec/41_v6_control_sync_packing.md R140, R142, R148 to R150): frames that
follow one another, what a long multiply answers, what a fetch sees of the status register, and the bytes of a word. -/

namespace Sys2Proof.Machine

/-! ## The checks before an instruction's effect -/

theorem guards_of_selected {need : Arch} {c : Cond} {s : State} (body : Result) (hsel : Claims.selected need c s) :
    atLevel need s (conditional c s body) = body := by
  obtain ⟨hlevel, hc⟩ := hsel
  rw [atLevel_of_le hlevel, conditional_of_passed hc]

@[simp] theorem refuseIf_true (body : Result) : refuseIf true body = .refused .registerCombination := rfl

/-! ## Frames -/

theorem cpsr_eq_of_sameStatus {s t : State} (h : Claims.sameStatusBut s t []) : t.cpsr = s.cpsr :=
  BitVec.eq_of_getLsbD_eq fun k _ => h k List.not_mem_nil

/-- Two updates one after the other, in one mode, change no more than both together. -/
theorem frame_trans {s t u : State} {rs rs' : List Reg} {bits bits' : List Nat} (hmode : t.mode = s.mode)
    (h : Claims.frame s t rs bits) (h' : Claims.frame t u rs' bits') : Claims.frame s u (rs ++ rs') (bits ++ bits') := by
  obtain ⟨hregs, hstatus, hmem, hres, ⟨hspsr, hns, hparams, hirq, hfiq, habort, henv, htorn⟩, hfree⟩ := h
  obtain ⟨hregs', hstatus', hmem', hres', ⟨hspsr', hns', hparams', hirq', hfiq', habort', henv', htorn'⟩, hfree'⟩ := h'
  refine ⟨?regs, ?status, fun a => (hmem' a).trans (hmem a), hres'.trans hres, ?system, hfree'.trans hfree⟩
  case regs =>
    intro p hp
    have hsecond : ∀ r ∈ rs', bankedReg t.mode r ≠ some p := fun r hr => hmode ▸ hp r (List.mem_append_right rs hr)
    exact (hregs' p hsecond).trans (hregs p fun r hr => hp r (List.mem_append_left rs' hr))
  case status =>
    intro k hk
    rw [List.mem_append, not_or] at hk
    exact (hstatus' k hk.2).trans (hstatus k hk.1)
  case system =>
    exact ⟨hspsr'.trans hspsr, hns'.trans hns, hparams'.trans hparams, hirq'.trans hirq, hfiq'.trans hfiq,
      habort'.trans habort, henv'.trans henv, htorn'.trans htorn⟩

/-- Writing one register, the pc staying where it is. -/
theorem frame_setReg (s : State) {rd : Reg} (v : Word) (hrd : rd ≠ 15) : Claims.frame s (s.setReg rd v) [rd] [] := by
  obtain ⟨-, hframe⟩ := onlyWrites_setReg s v hrd
  exact frame_trans (setReg_mode s rd v) hframe (frame_withPc _ (s.setReg rd v).pc)

/-! ## Long multiplies -/

/-- A long multiply that executes normally writes RdLo and RdHi and nothing else. -/
theorem longStep_of_runs {need : Arch} {c : Cond} {rdLo rdHi rm rs : Reg} {s : State} (lo hi : Word)
    (hruns : Claims.runs need c [rdLo, rdHi, rm, rs] s) (hne : rdLo ≠ rdHi) :
    ∃ t, longStep need c rdLo rdHi rm rs s ((s.setReg rdLo lo).setReg rdHi hi) = .next t
      ∧ Claims.onlyWrites s t [rdLo, rdHi] [] ∧ t.reg rdLo = lo ∧ t.reg rdHi = hi := by
  obtain ⟨hsel, hr15, hroom⟩ := hruns
  have hlo : rdLo ≠ 15 := fun h => hr15 (by simp [h])
  have hhi : rdHi ≠ 15 := fun h => hr15 (by simp [h])
  have hpc : ((s.setReg rdLo lo).setReg rdHi hi).pc = s.pc := (setReg_pc _ _ _ hhi).trans (setReg_pc _ _ _ hlo)
  obtain ⟨hpc', hframe⟩ := onlyWrites_setReg (s.setReg rdLo lo) hi hhi
  refine ⟨_, ?exec, ⟨?pc, frame_trans (setReg_mode ..) (frame_setReg s lo hlo) hframe⟩, ?lo, ?hi⟩
  case exec =>
    rw [longStep, guards_of_selected _ hsel, withoutR15_of_not_mem hr15, beq_false_of_ne hne, refuseIf_false,
      advance_of_lt (by rw [hpc]; exact hroom)]
  case pc => rw [hpc', setReg_pc _ _ _ hlo]
  case lo => rw [reg_withPc _ _ _ hlo, reg_setReg_other _ _ _ _ hhi hne, reg_setReg_same _ _ _ hlo]
  case hi => rw [reg_withPc _ _ _ hhi, reg_setReg_same _ _ _ hhi]

theorem longStep_of_equal {need : Arch} {c : Cond} {rd rm rs : Reg} {s u : State} (hsel : Claims.selected need c s)
    (hr15 : (15 : Reg) ∉ [rd, rd, rm, rs]) : longStep need c rd rd rm rs s u = .refused .registerCombination := by
  rw [longStep, guards_of_selected _ hsel, withoutR15_of_not_mem hr15, beq_self_eq_true, refuseIf_true]

theorem longStep_of_fifteen {need : Arch} {c : Cond} {rdLo rdHi rm rs : Reg} {s u : State} (hsel : Claims.selected need c s)
    (hr15 : (15 : Reg) ∈ [rdLo, rdHi, rm, rs]) : longStep need c rdLo rdHi rm rs s u = .refused .registerFifteen := by
  rw [longStep, guards_of_selected _ hsel, withoutR15_of_mem hr15]

/-- The product of two words plus two words fits 64 bits: it is at most `(2^32 - 1)^2 + 2 * (2^32 - 1)`. -/
theorem mul_add_add_lt (x y z w : Word) : x.toNat * y.toNat + z.toNat + w.toNat < 2 ^ 64 := by
  have hprod : x.toNat * y.toNat ≤ (2 ^ 32 - 1) * (2 ^ 32 - 1) :=
    Nat.mul_le_mul (Nat.le_pred_of_lt x.isLt) (Nat.le_pred_of_lt y.isLt)
  have hz := z.isLt
  have hw := w.isLt
  omega

/-- A number of 64 bits is its upper word times 2^32 plus its lower word. -/
theorem toNat_words {r : Nat} (h : r < 2 ^ 64) :
    (BitVec.ofNat 32 (r >>> 32)).toNat * 2 ^ 32 + (BitVec.ofNat 32 r).toNat = r := by
  rw [BitVec.toNat_ofNat, BitVec.toNat_ofNat, Nat.shiftRight_eq_div_pow]
  omega

/-- Settles O35: the two words written are those of the exact sum, which fits 64 bits. -/
theorem umaalIsExact : Obligations.UmaalIsExact := by
  intro c rdLo rdHi rm rs
  refine ⟨fun s hruns hne => ?completes, fun s hsel hr15 heq => ?combination, fun s hsel hr15 => longStep_of_fifteen hsel hr15⟩
  case completes =>
    obtain ⟨t, hexec, hwrites, hlo, hhi⟩ := longStep_of_runs _ _ hruns hne
    refine ⟨t, hexec, hwrites, ?_⟩
    rw [hlo, hhi, toNat_words (mul_add_add_lt ..)]
  case combination =>
    subst heq
    exact longStep_of_equal hsel hr15

/-! ## SETEND -/

theorem getLsbD_psrSetE (w : Word) (big : Bool) (k : Nat) :
    (psrSetE w big).getLsbD k = if k = 9 then big else w.getLsbD k := getLsbD_putBit w 9 big k (by decide)

@[simp] theorem psrMode_psrSetE (w : Word) (big : Bool) : psrMode (psrSetE w big) = psrMode w := by
  simp (disch := decide) [psrMode, psrSetE]

/-- A fetch sees the status register through its mode alone, which decides whether the processor is non-secure (R62, R70). -/
theorem fetchWord_setCpsr {s : State} {w : Word} (hmode : psrMode w = psrMode s.cpsr) :
    fetchWord (s.setCpsr w) = fetchWord s := by
  have hsecure (a n : Nat) : (s.setCpsr w).secureViolation a n = s.secureViolation a n := by
    simp only [State.secureViolation, State.nonSecure, setCpsr_cpsr, setCpsr_ns, setCpsr_params, hmode]
  rw [fetchWord, hsecure]
  rfl

theorem exec_setend {s : State} (big : Bool) (hv6 : s.params.arch = .v6) (hroom : Claims.hasRoom s) :
    exec (.setend big) s = .next { s.setCpsr (psrSetE s.cpsr big) with pc := s.pc + 4#32 } :=
  (atLevel_of_v6 hv6).trans (advance_of_lt hroom)

/-- Settles O37: E alone of the status register is written; it is the byte order of data at v6, and the fetch does not see it. -/
theorem setendWritesE : Obligations.SetendWritesE := by
  intro s big hv6 hroom
  have hE : (psrSetE s.cpsr big).getLsbD 9 = big := (getLsbD_psrSetE ..).trans (if_pos rfl)
  refine ⟨_, exec_setend big hv6 hroom, ⟨rfl, ?frame⟩, hE, (if_pos hv6).trans hE, fun a => ?fetch⟩
  case frame =>
    refine ⟨fun _ _ => rfl, ?status, fun _ => rfl, rfl, ⟨rfl, rfl, rfl, rfl, rfl, rfl, rfl, rfl⟩, rfl⟩
    intro k hk
    exact (getLsbD_psrSetE ..).trans (if_neg (by simpa using hk))
  case fetch => exact fetchWord_setCpsr (s := { s with pc := a }) (psrMode_psrSetE ..)

/-! ## The bytes of a word -/

/-- Byte lane `k` of four packed bytes is the `k`-th of them. -/
theorem byteLane_packBytes (f : Nat → Byte) {k : Nat} (hk : k < 4) : byteLane (packBytes f) k = f k := by
  interval_cases k <;>
    simp (disch := decide) only [byteLane, getField, packBytes, BitVec.extractLsb'_append_eq_of_le,
      BitVec.extractLsb'_append_eq_of_add_le, BitVec.extractLsb'_eq_self, Nat.reduceMul, Nat.reduceSub]

/-- A word is determined by its four bytes. -/
theorem word_ext_bytes {v w : Word} (h : ∀ k, k < 4 → byteLane v k = byteLane w k) : v = w := by
  apply BitVec.eq_of_getLsbD_eq
  intro i hi
  have hlane := congrArg (·.getLsbD (i % 8)) (h (i / 8) (by omega))
  have hplace : 8 * (i / 8) + i % 8 = i := Nat.div_add_mod i 8
  have hmod : i % 8 < 8 := Nat.mod_lt i (by decide)
  simpa [byteLane, getField, hplace, hmod] using hlane

theorem byteReverse_eq_packBytes (v : Word) : byteReverse v = packBytes fun k => byteLane v (3 - k) := rfl

/-- REV16 exchanges each byte with its neighbour in the half: lanes 0 and 1, 2 and 3. -/
theorem byteReverseHalves_eq_packBytes (v : Word) : byteReverseHalves v = packBytes fun k => byteLane v (k ^^^ 1) := rfl

theorem byteLane_byteReverse (v : Word) {k : Nat} (hk : k < 4) : byteLane (byteReverse v) k = byteLane v (3 - k) := by
  rw [byteReverse_eq_packBytes, byteLane_packBytes _ hk]

theorem byteReverse_byteReverse (v : Word) : byteReverse (byteReverse v) = v := by
  refine word_ext_bytes fun k hk => ?_
  rw [byteLane_byteReverse _ hk, byteLane_byteReverse _ (by omega), Nat.sub_sub_self (by omega)]

theorem byteLane_byteReverseHalves (v : Word) {k : Nat} (hk : k < 4) :
    byteLane (byteReverseHalves v) k = byteLane v (k ^^^ 1) := by
  rw [byteReverseHalves_eq_packBytes, byteLane_packBytes _ hk]

theorem toInt_byteReverseSigned (v : Word) :
    (byteReverseSigned v).toInt = (Claims.b v 0 ++ Claims.b v 1 : BitVec 16).toInt :=
  BitVec.toInt_signExtend_of_le (by decide)

/-- After an instruction that writes Rd and no status bit, another of the same condition and level, on Rd alone, executes normally
wherever it has a next address. -/
theorem runs_of_onlyWrites {need : Arch} {c : Cond} {rd rm : Reg} {s t : State} (hruns : Claims.runs need c [rd, rm] s)
    (hwrites : Claims.onlyWrites s t [rd] []) (hroom : Claims.hasRoom t) : Claims.runs need c [rd, rd] t := by
  obtain ⟨⟨hlevel, hc⟩, hr15, -⟩ := hruns
  obtain ⟨-, -, hstatus, -, -, ⟨-, -, hparams, -⟩, -⟩ := hwrites
  have hrd : (15 : Reg) ≠ rd := fun h => hr15 (h ▸ List.mem_cons_self)
  exact ⟨⟨by rw [hparams]; exact hlevel, by rw [cpsr_eq_of_sameStatus hstatus]; exact hc⟩, by simp [hrd], hroom⟩

/-- Settles O43: each of the three writes one value to Rd; the value's bytes are those of `packBytes`. -/
theorem byteReversal : Obligations.ByteReversal := by
  intro c rd rm
  refine ⟨fun s hruns => ⟨?rev, ?rev16, ?revsh⟩, fun s hsel hr15 => registerStep_of_fifteen hsel hr15,
    fun s hsel hr15 => registerStep_of_fifteen hsel hr15, fun s hsel hr15 => registerStep_of_fifteen hsel hr15⟩
  case rev =>
    obtain ⟨t, hexec, hwrites, hrd⟩ := registerStep_setReg_of_runs (byteReverse (s.reg rm)) hruns
    refine ⟨t, hexec, hwrites, fun k hk => ?bytes, fun hroom => ?twice⟩
    case bytes => rw [hrd]; exact byteLane_byteReverse _ hk
    case twice =>
      obtain ⟨u, hexec', -, hrd'⟩ :=
        registerStep_setReg_of_runs (byteReverse (t.reg rd)) (runs_of_onlyWrites hruns hwrites hroom)
      exact ⟨u, hexec', by rw [hrd', hrd, byteReverse_byteReverse]⟩
  case rev16 =>
    obtain ⟨t, hexec, hwrites, hrd⟩ := registerStep_setReg_of_runs (byteReverseHalves (s.reg rm)) hruns
    have hbytes {k : Nat} (hk : k < 4) : Claims.b (t.reg rd) k = Claims.b (s.reg rm) (k ^^^ 1) := by
      rw [hrd]; exact byteLane_byteReverseHalves _ hk
    exact ⟨t, hexec, hwrites, hbytes (by decide), hbytes (by decide), hbytes (by decide), hbytes (by decide)⟩
  case revsh =>
    obtain ⟨t, hexec, hwrites, hrd⟩ := registerStep_setReg_of_runs (byteReverseSigned (s.reg rm)) hruns
    exact ⟨t, hexec, hwrites, by rw [hrd]; exact toInt_byteReverseSigned _⟩

end Sys2Proof.Machine
end

section
/-! PROOFS. The semaphores (spec/41_v6_control_sync_packing.md R145 to R147): the word a store leaves in memory, accesses that R70
rejects, when the reservation covers an address, and what SWP, LDREX and STREX leave behind. -/

namespace Sys2Proof.Machine

/-! ## Operands -/

theorem ne_of_not_mem_two {r r1 r2 : Reg} (h : r ∉ [r1, r2]) : r1 ≠ r ∧ r2 ≠ r := by
  simpa [eq_comm] using h

theorem ne_of_not_mem_three {r r1 r2 r3 : Reg} (h : r ∉ [r1, r2, r3]) : r1 ≠ r ∧ r2 ≠ r ∧ r3 ≠ r := by
  simpa [eq_comm] using h

/-! ## Aligned accesses -/

@[simp] theorem andThen_abort {α : Type} (s : State) (k : α → Result) :
    (Access.abort : Access α).andThen s k = .next (takeException .dataAbort s) := rfl

theorem loadAligned_of_violation {s : State} {a : Word} (ha : wordAligned a = true)
    (hv : s.secureViolation a.toNat 4 = true) : loadAligned s a = .abort := by
  have hroom : ¬ 2 ^ 32 < a.toNat + 4 := Nat.not_lt.mpr (wordAligned_room ha).2
  rw [loadAligned, if_pos ha, memRead, if_neg hroom, if_pos hv]

theorem storeAligned_of_violation {s : State} {a : Word} (v : Word) (ha : wordAligned a = true)
    (hv : s.secureViolation a.toNat 4 = true) : storeAligned s a v = .abort := by
  have hroom : ¬ 2 ^ 32 < a.toNat + 4 := Nat.not_lt.mpr (wordAligned_room ha).2
  rw [storeAligned, if_pos ha, memWrite, if_neg hroom, if_pos hv]

/-- The bytes of a value in the order of memory: with `big` the most significant comes first (R63). -/
theorem disassemble_getElem? (big : Bool) (v : Word) {n k : Nat} (hk : k < n) :
    (disassemble big n v)[k]? = some (v.extractLsb' (8 * (if big then n - 1 - k else k)) 8) := by
  cases big <;> simp [disassemble, hk]

/-- Memory after a store of a word, in the state's byte order; `storeAligned_of_writable` says that a store leaves it. -/
def State.memWithWord (s : State) (a v : Word) : Memory := writeBytes s.mem a.toNat (disassemble s.bigEndian 4 v)

theorem holdsWord_memWithWord (s : State) (a v : Word) : Claims.holdsWord s.bigEndian (s.memWithWord a v) a v := by
  intro k hk
  rw [State.memWithWord, readByte_writeBytes_inside _ _ _ _ (by rwa [disassemble_length]), disassemble_getElem? _ v hk]

theorem readByte_memWithWord_outside (s : State) (a v : Word) {x : Nat} (hx : x < a.toNat ∨ a.toNat + 4 ≤ x) :
    readByte (s.memWithWord a v) x = readByte s.mem x :=
  readByte_writeBytes_outside _ _ _ _ (by rwa [disassemble_length])

/-! ## The reservation -/

theorem sameGranule_iff {s : State} {a a' : Word} :
    sameGranule s a a' = true ↔ a'.toNat / 2 ^ s.params.ergLog2 = a.toNat / 2 ^ s.params.ergLog2 := by
  rw [sameGranule, beq_iff_eq, Nat.shiftRight_eq_div_pow, Nat.shiftRight_eq_div_pow, eq_comm]

theorem reserved_of_same {s : State} {a a' : Word} (hres : s.reservation = some a')
    (hg : a'.toNat / 2 ^ s.params.ergLog2 = a.toNat / 2 ^ s.params.ergLog2) : s.reserved a = true := by
  rw [State.reserved, hres]
  exact sameGranule_iff.mpr hg

theorem reserved_eq_false_iff {s : State} {a : Word} : s.reserved a = false ↔
    ∀ a', s.reservation = some a' → a'.toNat / 2 ^ s.params.ergLog2 ≠ a.toNat / 2 ^ s.params.ergLog2 := by
  rw [State.reserved]
  cases s.reservation with
  | none => simp
  | some a' => simp [← sameGranule_iff]

/-- The bytes of an aligned word lie in one granule, which is at least a word (D22). -/
theorem granule_eq_of_inside {n a x : Nat} (hn : 2 ≤ n) (ha : a % 4 = 0) (hle : a ≤ x) (hlt : x < a + 4) :
    x / 2 ^ n = a / 2 ^ n := by
  have hpow : 2 ^ n = 4 * 2 ^ (n - 2) := (pow_mul_pow_sub 2 hn).symm
  have hword : x / 4 = a / 4 := by omega
  rw [hpow, ← Nat.div_div_eq_div_mul, ← Nat.div_div_eq_div_mul, hword]

/-- After another agent's write of a byte of an aligned word no reservation covers the word (R147). -/
theorem reserved_envAct_writeByte {s : State} {a x : Word} (v : Byte) (ha : wordAligned a = true)
    (hwf : s.params.wf = true) (hle : a.toNat ≤ x.toNat) (hlt : x.toNat < a.toNat + 4) :
    (envAct s (.writeByte x v)).reserved a = false := by
  have hn : 2 ≤ s.params.ergLog2 := by
    simp only [Params.wf, Bool.and_eq_true, decide_eq_true_eq] at hwf
    obtain ⟨⟨⟨hn, -⟩, -⟩, -⟩ := hwf
    exact hn
  have hgranule := granule_eq_of_inside hn (wordAligned_iff.mp ha) hle hlt
  rw [reserved_eq_false_iff]
  intro a' hres
  cases hx : s.reserved x with
  | true => simp [envAct, hx] at hres
  | false =>
    have hkept : s.reservation = some a' := by simpa [envAct, hx] using hres
    exact hgranule ▸ reserved_eq_false_iff.mp hx a' hkept

/-! ## What a semaphore leaves behind -/

/-- `t` is `s` after a semaphore operation that answers `v` in Rd and leaves this memory and this reservation. -/
structure SemaphoreResult (s t : State) (rd : Reg) (v : Word) (mem : Memory) (reservation : Option Word) : Prop where
  reg : t.reg rd = v
  regs : Claims.sameRegsBut s t [rd]
  pc : t.pc = s.pc + 4#32
  cpsr : t.cpsr = s.cpsr
  mem : t.mem = mem
  reservation : t.reservation = reservation
  system : Claims.sameSystem s t
  freeCount : t.freeCount = s.freeCount

/-- A semaphore ends by writing Rd, after its store if it has one, and the reservation, and going on. -/
theorem advance_semaphore {s : State} {rd : Reg} (v : Word) (mem : Memory) (reservation : Option Word) (hrd : rd ≠ 15)
    (hroom : Claims.hasRoom s) :
    ∃ t, State.advance { ({ s with mem := mem } : State).setReg rd v with reservation := reservation } = .next t
      ∧ SemaphoreResult s t rd v mem reservation := by
  have hpc : (({ s with mem := mem } : State).setReg rd v).pc = s.pc := setReg_pc _ _ _ hrd
  refine ⟨_, advance_of_lt (by rw [hpc]; exact hroom), ?_⟩
  constructor
  case reg => exact (reg_withPc _ _ _ hrd).trans ((reg_congr rfl rfl rfl rd).trans (reg_setReg_same _ _ _ hrd))
  case regs =>
    intro p hp
    have hother : bankedReg s.mode rd ≠ some p := hp rd (List.mem_singleton_self rd)
    exact (phys_setReg _ rd v p).trans (if_neg hother)
  case pc => exact congrArg (· + 4#32) hpc
  case cpsr => exact setReg_cpsr ..
  case mem => exact setReg_mem ..
  case reservation => rfl
  case system => simp [Claims.sameSystem]
  case freeCount => exact setReg_freeCount ..

theorem SemaphoreResult.sameMemory {s t : State} {rd : Reg} {v : Word} {reservation : Option Word}
    (h : SemaphoreResult s t rd v s.mem reservation) : Claims.sameMemory s t := fun x => by rw [h.mem]

theorem SemaphoreResult.holdsWord {s t : State} {rd : Reg} {v a w : Word} {reservation : Option Word}
    (h : SemaphoreResult s t rd v (s.memWithWord a w) reservation) : Claims.holdsWord s.bigEndian t.mem a w := by
  rw [h.mem]
  exact holdsWord_memWithWord s a w

theorem SemaphoreResult.sameMemoryBut {s t : State} {rd : Reg} {v a w : Word} {reservation : Option Word}
    (h : SemaphoreResult s t rd v (s.memWithWord a w) reservation) : Claims.sameMemoryBut s t a.toNat 4 := fun x hx => by
  rw [h.mem, readByte_memWithWord_outside s a w hx]

/-! ## SWP -/

theorem exec_swp_of_runs {c : Cond} {rd rm rn : Reg} {s : State} {old : Word} (hruns : Claims.runs .v5 c [rd, rm, rn] s)
    (hnd : rn ≠ rd) (hnm : rn ≠ rm) (ha : wordAligned (s.reg rn) = true) (hp : Claims.permitted s (s.reg rn))
    (ht : Claims.notText s (s.reg rn)) (hold : Claims.holdsWord s.bigEndian s.mem (s.reg rn) old) :
    ∃ t, exec (.swp c rd rm rn) s = .next t
      ∧ SemaphoreResult s t rd old (s.memWithWord (s.reg rn) (s.reg rm)) s.reservation := by
  obtain ⟨⟨-, hc⟩, hr15, hroom⟩ := hruns
  obtain ⟨hd, hm, hn⟩ := ne_of_not_mem_three hr15
  rw [exec_swp_of_passed hc hd hm hn hnd hnm, loadAligned_of_holdsWord ha hp hold, andThen_ok,
    storeAligned_of_writable _ ha hp ht, andThen_ok]
  have hres := setReg_reservation { s with mem := s.memWithWord (s.reg rn) (s.reg rm) } rd old
  obtain ⟨t, hexec, hresult⟩ := advance_semaphore old (s.memWithWord (s.reg rn) (s.reg rm)) _ hd hroom
  exact ⟨t, hexec, hres ▸ hresult⟩

/-- Settles O40: past its checks SWP is an aligned load and an aligned store at one address, and an access that R70 rejects stops at
the load. -/
theorem swpExchanges : Obligations.SwpExchanges := by
  intro c rd rm rn
  refine ⟨?completes, ?combination, ?rejected, fun s ⟨_, hc⟩ hr15 => ?fifteen⟩
  case completes =>
    intro s a old hruns hnd hnm ha hal hp ht hold
    subst ha
    obtain ⟨t, hexec, h⟩ := exec_swp_of_runs hruns hnd hnm hal hp ht hold
    exact ⟨t, hexec, h.reg, h.holdsWord, h.sameMemoryBut,
      h.regs, h.pc, h.cpsr, h.reservation, h.system, h.freeCount⟩
  case combination =>
    intro s ⟨_, hc⟩ hr15 heq
    have hregs : (rn == rd || rn == rm) = true := by simpa using heq
    refine (conditional_of_passed hc).trans ?_
    rw [withoutR15_of_not_mem hr15, hregs, refuseIf_true]
  case rejected =>
    intro s ⟨_, hc⟩ hr15 hnd hnm
    obtain ⟨hd, hm, hn⟩ := ne_of_not_mem_three hr15
    rw [exec_swp_of_passed hc hd hm hn hnd hnm]
    refine ⟨fun hal => ?unaligned, fun hal hv => ?violation⟩
    case unaligned => rw [loadAligned_of_unaligned (wordAligned_eq_false_iff.mpr hal), andThen_refused]
    case violation => rw [loadAligned_of_violation hal hv, andThen_abort]
  case fifteen => exact (conditional_of_passed hc).trans (withoutR15_of_mem hr15)

/-! ## LDREX -/

/-- Settles O41: past its checks LDREX is an aligned load, and the reservation is written only where the load answers. -/
theorem ldrexReserves : Obligations.LdrexReserves := by
  intro c rd rn
  refine ⟨?completes, ?rejected, fun s hsel hr15 => ?fifteen⟩
  case completes =>
    intro s a v hruns ha hal hp hv
    subst ha
    obtain ⟨hsel, hr15, hroom⟩ := hruns
    obtain ⟨hd, hn⟩ := ne_of_not_mem_two hr15
    rw [exec_ldrex_of_selected hsel hd hn, loadAligned_of_holdsWord hal hp hv, andThen_ok]
    obtain ⟨t, hexec, h⟩ := advance_semaphore v s.mem (some (s.reg rn)) hd hroom
    exact ⟨t, hexec, h.reg, h.reservation, h.regs, h.pc, h.cpsr, h.sameMemory, h.system, h.freeCount⟩
  case rejected =>
    intro s hsel hr15
    obtain ⟨hd, hn⟩ := ne_of_not_mem_two hr15
    rw [exec_ldrex_of_selected hsel hd hn]
    refine ⟨fun hal => ?unaligned, fun hal hv => ?violation⟩
    case unaligned => rw [loadAligned_of_unaligned (wordAligned_eq_false_iff.mpr hal), andThen_refused]
    case violation => rw [loadAligned_of_violation hal hv, andThen_abort]
  case fifteen => exact (guards_of_selected _ hsel).trans (withoutR15_of_mem hr15)

/-! ## STREX -/

theorem exec_strex_of_reserved {c : Cond} {rd rm rn : Reg} {s : State} (hruns : Claims.runs .v6 c [rd, rm, rn] s)
    (hdm : rd ≠ rm) (hdn : rd ≠ rn) (ha : wordAligned (s.reg rn) = true) (hres : s.reserved (s.reg rn) = true)
    (hp : Claims.permitted s (s.reg rn)) (ht : Claims.notText s (s.reg rn)) :
    ∃ t, exec (.strex c rd rm rn) s = .next t
      ∧ SemaphoreResult s t rd 0#32 (s.memWithWord (s.reg rn) (s.reg rm)) none := by
  obtain ⟨hsel, hr15, hroom⟩ := hruns
  obtain ⟨hd, hm, hn⟩ := ne_of_not_mem_three hr15
  rw [exec_strex_of_selected hsel hd hm hn hdm hdn, if_neg (by simp [ha]), if_pos hres,
    storeAligned_of_writable _ ha hp ht, andThen_ok]
  exact advance_semaphore 0#32 (s.memWithWord (s.reg rn) (s.reg rm)) none hd hroom

theorem exec_strex_of_unreserved {c : Cond} {rd rm rn : Reg} {s : State} (hruns : Claims.runs .v6 c [rd, rm, rn] s)
    (hdm : rd ≠ rm) (hdn : rd ≠ rn) (ha : wordAligned (s.reg rn) = true) (hres : s.reserved (s.reg rn) = false) :
    ∃ t, exec (.strex c rd rm rn) s = .next t ∧ SemaphoreResult s t rd 1#32 s.mem none := by
  obtain ⟨hsel, hr15, hroom⟩ := hruns
  obtain ⟨hd, hm, hn⟩ := ne_of_not_mem_three hr15
  rw [exec_strex_of_selected hsel hd hm hn hdm hdn, if_neg (by simp [ha]), if_neg (by simp [hres])]
  exact advance_semaphore 1#32 s.mem none hd hroom

/-- An action of the environment leaves an instruction's registers, level, condition and next address as they are. -/
theorem runs_envAct {need : Arch} {c : Cond} {rs : List Reg} {s : State} (e : EnvAction) (h : Claims.runs need c rs s) :
    Claims.runs need c rs (envAct s e) := by
  obtain ⟨⟨hlevel, hc⟩, hr15, hroom⟩ := h
  obtain ⟨-, hpc, hcpsr, -, -, hparams, -⟩ := envAct_frame s e
  exact ⟨⟨by rw [hparams]; exact hlevel, by rw [hcpsr]; exact hc⟩, hr15, by rw [Claims.hasRoom, hpc]; exact hroom⟩

theorem reg_envAct (s : State) (e : EnvAction) (r : Reg) : (envAct s e).reg r = s.reg r := by
  obtain ⟨hregs, hpc, hcpsr, -⟩ := envAct_frame s e
  exact reg_congr hregs hpc (by rw [State.mode, hcpsr, State.mode]) r

/-- Settles O42: past its checks STREX stores or answers 1 by `State.reserved`, which another agent's write of a byte of the word
makes false. -/
theorem strexStoresOrFails : Obligations.StrexStoresOrFails := by
  intro c rd rm rn
  refine ⟨fun s a hruns hdm hdn ha hal => ?answers, ?written, ?combination, ?rejected, fun s hsel hr15 => ?fifteen⟩
  case answers =>
    subst ha
    refine ⟨fun a' hres hg hp ht => ?stores, fun hother => ?fails⟩
    case stores =>
      obtain ⟨t, hexec, h⟩ := exec_strex_of_reserved hruns hdm hdn hal (reserved_of_same hres hg) hp ht
      exact ⟨t, hexec, h.reg, h.holdsWord, h.sameMemoryBut,
        h.reservation, h.regs, h.pc, h.cpsr, h.system, h.freeCount⟩
    case fails =>
      obtain ⟨t, hexec, h⟩ := exec_strex_of_unreserved hruns hdm hdn hal (reserved_eq_false_iff.mpr hother)
      exact ⟨t, hexec, h.reg, h.sameMemory, h.reservation, h.regs, h.pc, h.cpsr, h.system, h.freeCount⟩
  case written =>
    intro s u x v hruns hdm hdn hal hwf hle hlt hu
    subst hu
    have haddr : (envAct s (.writeByte x v)).reg rn = s.reg rn := reg_envAct ..
    have hres : (envAct s (.writeByte x v)).reserved (s.reg rn) = false := reserved_envAct_writeByte v hal hwf hle hlt
    obtain ⟨t, hexec, h⟩ :=
      exec_strex_of_unreserved (runs_envAct _ hruns) hdm hdn (by rw [haddr]; exact hal) (by rw [haddr]; exact hres)
    exact ⟨t, hexec, h.reg, h.sameMemory, h.reservation, h.regs, h.pc, h.cpsr, h.system, h.freeCount⟩
  case combination =>
    intro s hsel hr15 heq
    have hregs : (rd == rm || rd == rn) = true := by simpa using heq
    refine (guards_of_selected _ hsel).trans ?_
    rw [withoutR15_of_not_mem hr15, hregs, refuseIf_true]
  case rejected =>
    intro s hsel hr15 hdm hdn
    obtain ⟨hd, hm, hn⟩ := ne_of_not_mem_three hr15
    rw [exec_strex_of_selected hsel hd hm hn hdm hdn]
    refine ⟨fun hal => ?unaligned, fun a' hres hg hal hv => ?violation⟩
    case unaligned => rw [if_pos (by simp [wordAligned_eq_false_iff.mpr hal])]
    case violation =>
      rw [if_neg (by simp [hal]), if_pos (reserved_of_same hres hg), storeAligned_of_violation _ hal hv, andThen_abort]
  case fifteen => exact (guards_of_selected _ hsel).trans (withoutR15_of_mem hr15)

end Sys2Proof.Machine
end

section
/-! PROOFS. v5TE signal processing (spec/42_v5te_dsp.md R172 to R177): what an instruction that may set Q answers, products and
saturated numbers in 32 bits, and the 64-bit accumulate. -/

namespace Sys2Proof.Machine

/-! ## Register instructions that may set Q -/

@[simp] theorem psrMode_psrOrQ (w : Word) (q : Bool) : psrMode (psrOrQ w q) = psrMode w :=
  psrMode_of_same fun k hk => (getLsbD_psrOrQ w q k).trans (if_neg (by omega))

/-- Setting Q or keeping it changes no other bit. -/
theorem frame_psrOrQ (s : State) (q : Bool) : Claims.frame s (s.setCpsr (psrOrQ s.cpsr q)) [] [27] := by
  refine ⟨fun _ _ => rfl, ?status, fun _ => rfl, rfl, ⟨rfl, rfl, rfl, rfl, rfl, rfl, rfl, rfl⟩, rfl⟩
  intro k hk
  exact (getLsbD_psrOrQ ..).trans (if_neg (by simpa using hk))

@[simp] theorem writeWithQ_cpsr (s : State) (rd : Reg) (v : Word) (q : Bool) :
    (writeWithQ s rd v q).cpsr = psrOrQ s.cpsr q := rfl

theorem writeWithQ_pc (s : State) {rd : Reg} (v : Word) (q : Bool) (hrd : rd ≠ 15) : (writeWithQ s rd v q).pc = s.pc :=
  setReg_pc s rd v hrd

theorem reg_writeWithQ_same (s : State) {rd : Reg} (v : Word) (q : Bool) (hrd : rd ≠ 15) :
    (writeWithQ s rd v q).reg rd = v := by
  have hmode : (writeWithQ s rd v q).mode = (s.setReg rd v).mode := by simp [State.mode]
  rw [reg_congr (s := s.setReg rd v) (t := writeWithQ s rd v q) rfl rfl hmode rd, reg_setReg_same s rd v hrd]

theorem frame_writeWithQ (s : State) {rd : Reg} (v : Word) (q : Bool) (hrd : rd ≠ 15) :
    Claims.frame s (writeWithQ s rd v q) [rd] [27] := by
  have hQ := frame_psrOrQ (s.setReg rd v) q
  rw [setReg_cpsr] at hQ
  exact frame_trans (setReg_mode s rd v) (frame_setReg s v hrd) hQ

/-- A register instruction that executes normally, and whose update is one register and Q, writes those alone. -/
theorem registerStep_writeWithQ_of_runs {need : Arch} {c : Cond} {rd : Reg} {rs : List Reg} {s : State} (v : Word) (q : Bool)
    (hruns : Claims.runs need c (rd :: rs) s) :
    ∃ t, registerStep need c (rd :: rs) s (writeWithQ s rd v q) = .next t ∧ Claims.onlyWrites s t [rd] [27] ∧ t.reg rd = v
      ∧ Claims.stickyQ s t (q = true) := by
  obtain ⟨⟨hlevel, hc⟩, hr15, hroom⟩ := hruns
  have hrd : rd ≠ 15 := fun h => hr15 (h ▸ List.mem_cons_self)
  have hpc := writeWithQ_pc s v q hrd
  refine ⟨_, registerStep_of_passed hlevel hc (by simpa using hr15) (by rw [hpc]; exact hroom), ⟨?pc, ?frame⟩, ?reg, ?sticky⟩
  case pc => exact congrArg (· + 4#32) hpc
  case frame =>
    have hmode : (writeWithQ s rd v q).mode = s.mode := by simp [State.mode]
    exact frame_trans hmode (frame_writeWithQ s v q hrd) (frame_withPc ..)
  case reg => exact (reg_withPc _ _ _ hrd).trans (reg_writeWithQ_same s v q hrd)
  case sticky => simp [Claims.stickyQ, getLsbD_psrOrQ, -BitVec.getLsbD_eq_getElem]

/-! ## Numbers that fit 32 bits -/

theorem outside32_iff_toInt_truncInt_ne {r : Int} : Claims.outside32 r ↔ (truncInt 32 r).toInt ≠ r := by
  rw [Claims.outside32, truncInt, BitVec.toInt_ofInt, Int.bmod]
  omega

theorem toInt_truncInt {r : Int} (h : ¬ Claims.outside32 r) : (truncInt 32 r).toInt = r :=
  not_not.mp (mt outside32_iff_toInt_truncInt_ne.mpr h)

theorem signedOverflow_iff_outside32 {r : Int} : signedOverflow 32 r = true ↔ Claims.outside32 r := by
  rw [signedOverflow, bne_iff_ne, ne_comm, outside32_iff_toInt_truncInt_ne]

theorem sat_signed (n : Nat) (r : Int) :
    Claims.sat true n r = max (-((2 ^ (n - 1) : Nat) : Int)) (min (((2 ^ (n - 1) : Nat) : Int) - 1) r) := rfl

/-- `SignedSat_n` is the nearest number of the range, and it saturates where that is another number (R8). -/
theorem signedSat_eq (n : Nat) (r : Int) : signedSat n r = (Claims.sat true n r, decide (Claims.sat true n r ≠ r)) := by
  have hpos : (0 : Int) < ((2 ^ (n - 1) : Nat) : Int) := Int.natCast_pos.mpr (Nat.two_pow_pos (n - 1))
  rw [sat_signed, signedSat]
  generalize ((2 ^ (n - 1) : Nat) : Int) = bound at hpos ⊢
  split_ifs with hhigh hlow
  · have hsat : max (-bound) (min (bound - 1) r) = bound - 1 := by omega
    rw [hsat, decide_eq_true (by omega)]
  · have hsat : max (-bound) (min (bound - 1) r) = -bound := by omega
    rw [hsat, decide_eq_true (by omega)]
  · have hsat : max (-bound) (min (bound - 1) r) = r := by omega
    rw [hsat, decide_eq_false (not_not.mpr rfl)]

theorem sat_not_outside32 (r : Int) : ¬ Claims.outside32 (Claims.sat true 32 r) := by
  simp only [Claims.outside32, Claims.sat, if_true]
  omega

theorem sat_ne_iff_outside32 {r : Int} : Claims.sat true 32 r ≠ r ↔ Claims.outside32 r := by
  simp only [Claims.outside32, Claims.sat, if_true]
  omega

/-! ## Products of halves -/

theorem half_eq_halfInt (v : Word) (h : HalfSel) : Claims.half v h = halfInt v h := by cases h <;> rfl

theorem abs_toInt_le {n : Nat} (v : BitVec n) : |v.toInt| ≤ 2 ^ (n - 1) :=
  abs_le.mpr ⟨BitVec.le_toInt v, BitVec.toInt_lt.le⟩

theorem abs_halfInt_le (v : Word) (h : HalfSel) : |halfInt v h| ≤ 2 ^ 15 := abs_toInt_le (halfOf v h)

/-- The product of two halves fits 32 bits: its magnitude is at most 2^30 (R175). -/
theorem halfProduct_not_outside32 (v w : Word) (x y : HalfSel) : ¬ Claims.outside32 (halfInt v x * halfInt w y) := by
  have hle : |halfInt v x * halfInt w y| ≤ 2 ^ 15 * 2 ^ 15 := by
    rw [abs_mul]
    exact mul_le_mul (abs_halfInt_le v x) (abs_halfInt_le w y) (abs_nonneg _) (by decide)
  rw [abs_le] at hle
  rw [Claims.outside32]
  omega

/-- The top 32 bits of the 48-bit product lose nothing: the product's magnitude is at most 2^46 (R173). -/
theorem wideProduct_not_outside32 (v w : Word) (y : HalfSel) : ¬ Claims.outside32 (wideProduct v w y) := by
  have hle : |v.toInt * halfInt w y| ≤ 2 ^ 31 * 2 ^ 15 := by
    rw [abs_mul]
    exact mul_le_mul (abs_toInt_le v) (abs_halfInt_le w y) (abs_nonneg _) (by decide)
  rw [abs_le] at hle
  rw [Claims.outside32, wideProduct]
  omega

/-- Settles O45: the product over 2^16 fits 32 bits, so SMULWy is exact; SMLAWy's sum is truncated, and Q says where that loses. -/
theorem wordByHalfwordMultiplies : Obligations.WordByHalfwordMultiplies := by
  intro c y rd rm rs rn
  refine ⟨fun s r hruns hr => ?smlaw, fun s hruns => ?smulw, fun s hsel hr15 => registerStep_of_fifteen hsel hr15,
    fun s hsel hr15 => registerStep_of_fifteen hsel hr15⟩
  case smlaw =>
    rw [half_eq_halfInt] at hr
    subst hr
    obtain ⟨t, hexec, hwrites, hrd, hQ⟩ := registerStep_writeWithQ_of_runs _ (signedOverflow 32 _) hruns
    rw [signedOverflow_iff_outside32] at hQ
    exact ⟨t, hexec, hwrites, hrd, hQ⟩
  case smulw =>
    obtain ⟨t, hexec, hwrites, hrd⟩ :=
      registerStep_setReg_of_runs (truncInt 32 (wideProduct (s.reg rm) (s.reg rs) y)) hruns
    refine ⟨t, hexec, hwrites, ?_⟩
    rw [hrd, toInt_truncInt (wideProduct_not_outside32 _ _ _), half_eq_halfInt, wideProduct]

/-- Settles O46: the product of two halves fits 32 bits, so SMULxy is exact; SMLALxy's sum of numbers is truncated to 64 bits, which
is the sum of the truncations. -/
theorem halfwordMultiplies : Obligations.HalfwordMultiplies := by
  intro c x y rd rdLo rdHi rm rs
  refine ⟨fun s hruns => ?smul, fun s hruns hne => ?smlal, fun s hsel hr15 heq => ?combination,
    fun s hsel hr15 => registerStep_of_fifteen hsel hr15, fun s hsel hr15 => longStep_of_fifteen hsel hr15⟩
  case smul =>
    obtain ⟨t, hexec, hwrites, hrd⟩ :=
      registerStep_setReg_of_runs (truncInt 32 (halfInt (s.reg rm) x * halfInt (s.reg rs) y)) hruns
    refine ⟨t, hexec, hwrites, ?_⟩
    rw [hrd, toInt_truncInt (halfProduct_not_outside32 _ _ _ _), half_eq_halfInt, half_eq_halfInt]
  case smlal =>
    obtain ⟨t, hexec, hwrites, hlo, hhi⟩ := longStep_of_runs _ _ hruns hne
    refine ⟨t, hexec, hwrites, ?_⟩
    rw [hlo, hhi, BitVec.extractLsb'_append_extractLsb', truncInt, BitVec.ofInt_add, longInt,
      BitVec.ofInt_toInt, half_eq_halfInt, half_eq_halfInt]
  case combination =>
    subst heq
    exact longStep_of_equal hsel hr15

/-! ## Saturating add and subtract -/

/-- A register instruction that executes normally, and whose update is a saturated number with no saturation before it (R176,
R177). -/
theorem registerStep_writeSaturated_of_runs {need : Arch} {c : Cond} {rd : Reg} {rs : List Reg} {s : State} (r : Int)
    (hruns : Claims.runs need c (rd :: rs) s) :
    ∃ t, registerStep need c (rd :: rs) s (writeSaturated s rd r false) = .next t ∧ Claims.onlyWrites s t [rd] [27]
      ∧ (t.reg rd).toInt = Claims.sat true 32 r ∧ Claims.stickyQ s t (Claims.outside32 r) := by
  obtain ⟨t, hexec, hwrites, hrd, hQ⟩ :=
    registerStep_writeWithQ_of_runs (truncInt 32 (signedSat 32 r).1) (false || (signedSat 32 r).2) hruns
  rw [signedSat_eq] at hrd hQ
  rw [Bool.false_or, decide_eq_true_iff, sat_ne_iff_outside32] at hQ
  exact ⟨t, hexec, hwrites, by rw [hrd, toInt_truncInt (sat_not_outside32 r)], hQ⟩

/-- Settles O47: both write the saturated exact result, and saturation is where that result is outside the range. -/
theorem saturatingAddSubtract : Obligations.SaturatingAddSubtract := by
  intro c rd rm rn
  refine ⟨fun s r hruns => ⟨fun hr => ?qadd, fun hr => ?qsub⟩, fun s hsel hr15 => registerStep_of_fifteen hsel hr15,
    fun s hsel hr15 => registerStep_of_fifteen hsel hr15⟩
  case qadd | qsub =>
    subst hr
    exact registerStep_writeSaturated_of_runs _ hruns

end Sys2Proof.Machine
end

section
/-! PROOFS. The sticky Q flag (spec/42_v5te_dsp.md R170): what a status register can be after each shared operation, and Q after
every instruction. -/

namespace Sys2Proof.Machine

/-! ## Status words that differ in a few bits -/

/-- CPS's mask change writes A, I and F alone, bits 8 to 6 (R141). -/
theorem getLsbD_maskedPsr (change : MaskChange) (w : Word) {k : Nat} (hk : 8 < k) :
    (maskedPsr change w).getLsbD k = w.getLsbD k := by
  have hA : k ≠ 8 := by omega
  have hI : k ≠ 7 := by omega
  have hF : k ≠ 6 := by omega
  cases change with
  | keep => rfl
  | enable a i f | disable a i f =>
    simp only [maskedPsr, maskedPsr.clearNamed, maskedPsr.setNamed, psrSetA, psrSetI, psrSetF]
    split_ifs <;> simp [getLsbD_putBit, hA, hI, hF, -BitVec.getLsbD_eq_getElem]

/-- The flags of SUBS are bits 31 to 28 (R281). -/
theorem getLsbD_psrSubFlags (w a imm : Word) {k : Nat} (hk : k < 28) : (psrSubFlags w a imm).getLsbD k = w.getLsbD k := by
  have hN : k ≠ 31 := by omega
  have hZ : k ≠ 30 := by omega
  have hC : k ≠ 29 := by omega
  have hV : k ≠ 28 := by omega
  simp [psrSubFlags, psrSetN, psrSetZ, psrSetC, psrSetV, getLsbD_putBit, hN, hZ, hC, hV, -BitVec.getLsbD_eq_getElem]

/-! ## The status register of a next state -/

/-- A store leaves the status register alone. -/
theorem storeAligned_cpsr {s t : State} {a v : Word} (h : storeAligned s a v = .ok t) : t.cpsr = s.cpsr := by
  obtain ⟨-, hwrite⟩ := storeAligned_ok h
  obtain ⟨-, -, -, rfl⟩ := memWrite_ok hwrite
  rfl

/-- Where the result is a next state, its status register has the property `P`. -/
def CpsrMeets (P : Word → Prop) (r : Result) : Prop := ∀ t, r = .next t → P t.cpsr

theorem cpsrMeets_next {P : Word → Prop} {t : State} (h : P t.cpsr) : CpsrMeets P (.next t) := fun _ ht => by
  cases ht
  exact h

theorem cpsrMeets_refused {P : Word → Prop} (r : Refusal) : CpsrMeets P (.refused r) := fun _ ht => nomatch ht

theorem cpsrMeets_advance {P : Word → Prop} {s : State} (h : P s.cpsr) : CpsrMeets P s.advance := fun t ht => by
  obtain ⟨-, rfl⟩ := advance_next ht
  exact h

theorem cpsrMeets_jump {P : Word → Prop} {s : State} {a : Word} (h : P s.cpsr) : CpsrMeets P (s.jump a) := fun t ht => by
  obtain ⟨-, rfl⟩ := jump_next ht
  exact h

section
variable {P : Word → Prop} {s : State} {body : Result}

theorem CpsrMeets.atLevel {need : Arch} (h : CpsrMeets P body) : CpsrMeets P (atLevel need s body) := fun t ht => by
  obtain ⟨-, hbody⟩ := atLevel_next ht
  exact h t hbody

theorem CpsrMeets.conditional {c : Cond} (h : CpsrMeets P body) (hs : P s.cpsr) : CpsrMeets P (conditional c s body) :=
  fun t ht => by
    rcases conditional_next ht with ⟨-, hbody⟩ | ⟨-, hadvance⟩
    · exact h t hbody
    · exact cpsrMeets_advance hs t hadvance

theorem CpsrMeets.withoutR15 {rs : List Reg} (h : CpsrMeets P body) : CpsrMeets P (withoutR15 rs body) := fun t ht => by
  obtain ⟨-, hbody⟩ := withoutR15_next ht
  exact h t hbody

theorem CpsrMeets.refuseIf {bad : Bool} (h : CpsrMeets P body) : CpsrMeets P (refuseIf bad body) := fun t ht => by
  obtain ⟨-, hbody⟩ := refuseIf_next ht
  exact h t hbody

theorem cpsrMeets_andThen {α : Type} {a : Access α} {k : α → Result} (hk : ∀ v, a = .ok v → CpsrMeets P (k v))
    (habort : P (entryPsr .dataAbort s.params s.cpsr)) : CpsrMeets P (a.andThen s k) := fun t ht => by
  rcases andThen_next ht with ⟨v, hv, hbody⟩ | ⟨-, rfl⟩
  · exact hk v hv t hbody
  · exact habort

theorem cpsrMeets_registerStep {need : Arch} {c : Cond} {rs : List Reg} {u : State} (hs : P s.cpsr) (hu : P u.cpsr) :
    CpsrMeets P (registerStep need c rs s u) :=
  ((cpsrMeets_advance hu).withoutR15.conditional hs).atLevel

theorem cpsrMeets_longStep {need : Arch} {c : Cond} {rdLo rdHi rm rs : Reg} {u : State} (hs : P s.cpsr) (hu : P u.cpsr) :
    CpsrMeets P (longStep need c rdLo rdHi rm rs s u) :=
  ((cpsrMeets_advance hu).refuseIf.withoutR15.conditional hs).atLevel

theorem cpsrMeets_changeMode {mode : Option (BitVec 5)} {w : Word} {k : Word → Result}
    (hkeep : CpsrMeets P (k w)) (hset : ∀ m : Mode, CpsrMeets P (k (psrSetMode w m.bits))) :
    CpsrMeets P (changeMode mode w k) := by
  cases mode with
  | none => exact hkeep
  | some b =>
    simp only [changeMode]
    split
    · exact cpsrMeets_refused _
    · exact cpsrMeets_refused _
    · exact hset _

end

/-! ## Q after every instruction -/

/-- A status word that instruction `i` may leave in `s`: Q as it was, or set where R170 lists `i` (the saturating SIMD forms under
`SIMD_SAT_SETS_Q`). -/
def QKeptOrSet (i : Instr) (s : State) (w : Word) : Prop :=
  w.getLsbD 27 = s.cpsr.getLsbD 27 ∨ (Claims.setsQ s.params i = true ∧ w.getLsbD 27 = true)

section
variable {i : Instr} {s : State}

theorem qKeptOrSet_self : QKeptOrSet i s s.cpsr := Or.inl rfl

theorem qKeptOrSet_entryPsr (e : Exception) (p : Params) : QKeptOrSet i s (entryPsr e p s.cpsr) := Or.inl (getLsbD_entryPsr ..)

theorem qKeptOrSet_psrOrQ {q : Bool} (h : q = true → Claims.setsQ s.params i = true) : QKeptOrSet i s (psrOrQ s.cpsr q) := by
  cases q with
  | false => exact Or.inl rfl
  | true => exact Or.inr ⟨h rfl, by simp [getLsbD_psrOrQ]⟩

theorem qKeptOrSet_psrSetT (thumb : Bool) : QKeptOrSet i s (psrSetT s.cpsr thumb) := Or.inl (getLsbD_psrSetT ..)

/-- An instruction that goes on from a state whose status register is as it was. -/
theorem qKeptOrSet_advance {u : State} (hu : u.cpsr = s.cpsr) : CpsrMeets (QKeptOrSet i s) u.advance :=
  cpsrMeets_advance (Or.inl (congrArg (·.getLsbD 27) hu))

/-- A register instruction that writes one register and no status bit. -/
theorem qKeptOrSet_registerStep_setReg {need : Arch} {c : Cond} {rs : List Reg} {rd : Reg} {v : Word} :
    CpsrMeets (QKeptOrSet i s) (registerStep need c rs s (s.setReg rd v)) :=
  cpsrMeets_registerStep qKeptOrSet_self (by rw [setReg_cpsr]; exact qKeptOrSet_self)

theorem qKeptOrSet_longStep {need : Arch} {c : Cond} {rdLo rdHi rm rs : Reg} {lo hi : Word} :
    CpsrMeets (QKeptOrSet i s) (longStep need c rdLo rdHi rm rs s ((s.setReg rdLo lo).setReg rdHi hi)) :=
  cpsrMeets_longStep qKeptOrSet_self (by rw [setReg_cpsr, setReg_cpsr]; exact qKeptOrSet_self)

theorem qKeptOrSet_registerStep_writeWithQ {need : Arch} {c : Cond} {rs : List Reg} {rd : Reg} {v : Word} {q : Bool}
    (h : Claims.setsQ s.params i = true) : CpsrMeets (QKeptOrSet i s) (registerStep need c rs s (writeWithQ s rd v q)) :=
  cpsrMeets_registerStep qKeptOrSet_self (qKeptOrSet_psrOrQ fun _ => h)

theorem qKeptOrSet_simdWrap {c : Cond} {rd rn rm : Reg} {f : Word → Word → Word × BitVec 4} :
    CpsrMeets (QKeptOrSet i s) (simdWrap c rd rn rm s f) :=
  cpsrMeets_registerStep qKeptOrSet_self (Or.inl (getLsbD_putField _ 16 _ (by decide) 27))

theorem qKeptOrSet_simdSat {c : Cond} {rd rn rm : Reg} {f : Word → Word → Word × Bool}
    (h : Claims.setsQ s.params i = s.params.simdSatSetsQ) : CpsrMeets (QKeptOrSet i s) (simdSat c rd rn rm s f) := by
  refine cpsrMeets_registerStep qKeptOrSet_self (qKeptOrSet_psrOrQ fun hq => ?_)
  rw [Bool.and_eq_true] at hq
  exact h.trans hq.1

theorem qKeptOrSet_exchange {u : State} {a : Word} (hu : u.cpsr = s.cpsr) : CpsrMeets (QKeptOrSet i s) (u.exchange a) :=
  cpsrMeets_jump (by rw [setCpsr_cpsr, hu]; exact qKeptOrSet_psrSetT _)

/-! The instructions with a shape of their own -/

theorem qKeptOrSet_cps (change : MaskChange) (mode : Option (BitVec 5)) :
    CpsrMeets (QKeptOrSet i s) (exec (.cps change mode) s) := by
  have hmask : (maskedPsr change s.cpsr).getLsbD 27 = s.cpsr.getLsbD 27 := getLsbD_maskedPsr change s.cpsr (by decide)
  refine CpsrMeets.atLevel ?_
  split
  · refine cpsrMeets_changeMode (cpsrMeets_advance (Or.inl hmask)) fun m => cpsrMeets_advance (Or.inl ?_)
    exact (getLsbD_putField _ 0 _ (by decide) 27).trans hmask
  · exact cpsrMeets_advance qKeptOrSet_self

theorem qKeptOrSet_srs (am : AddrMode) (wb : Bool) (mode : BitVec 5) :
    CpsrMeets (QKeptOrSet i s) (exec (.srs am wb mode) s) := by
  refine CpsrMeets.atLevel ?_
  split
  · exact cpsrMeets_refused _
  · exact cpsrMeets_refused _
  · refine cpsrMeets_andThen (fun s1 h1 => cpsrMeets_andThen (fun s2 h2 => ?_) (qKeptOrSet_entryPsr ..)) (qKeptOrSet_entryPsr ..)
    have hs2 : s2.cpsr = s.cpsr := (storeAligned_cpsr h2).trans (storeAligned_cpsr h1)
    cases wb <;> exact qKeptOrSet_advance hs2

theorem qKeptOrSet_swp (c : Cond) (rd rm rn : Reg) : CpsrMeets (QKeptOrSet i s) (exec (.swp c rd rm rn) s) := by
  refine CpsrMeets.conditional (CpsrMeets.withoutR15 (CpsrMeets.refuseIf ?_)) qKeptOrSet_self
  refine cpsrMeets_andThen (fun old _ => cpsrMeets_andThen (fun s1 h1 => ?_) (qKeptOrSet_entryPsr ..)) (qKeptOrSet_entryPsr ..)
  exact qKeptOrSet_advance ((setReg_cpsr ..).trans (storeAligned_cpsr h1))

theorem qKeptOrSet_ldrex (c : Cond) (rd rn : Reg) : CpsrMeets (QKeptOrSet i s) (exec (.ldrex c rd rn) s) := by
  refine CpsrMeets.atLevel (CpsrMeets.conditional (CpsrMeets.withoutR15 ?_) qKeptOrSet_self)
  exact cpsrMeets_andThen (fun v _ => qKeptOrSet_advance (setReg_cpsr s rd v)) (qKeptOrSet_entryPsr ..)

theorem qKeptOrSet_strex (c : Cond) (rd rm rn : Reg) : CpsrMeets (QKeptOrSet i s) (exec (.strex c rd rm rn) s) := by
  refine CpsrMeets.atLevel (CpsrMeets.conditional (CpsrMeets.withoutR15 (CpsrMeets.refuseIf ?_)) qKeptOrSet_self)
  split_ifs
  · exact cpsrMeets_refused _
  · refine cpsrMeets_andThen (fun s1 h1 => ?_) (qKeptOrSet_entryPsr ..)
    exact qKeptOrSet_advance ((setReg_cpsr s1 rd 0#32).trans (storeAligned_cpsr h1))
  · exact qKeptOrSet_advance (setReg_cpsr s rd 1#32)

theorem qKeptOrSet_ldrPost (c : Cond) (add : Bool) (rd rn : Reg) (imm12 : BitVec 12) :
    CpsrMeets (QKeptOrSet i s) (exec (.ldrPost c add rd rn imm12) s) := by
  refine CpsrMeets.conditional (CpsrMeets.withoutR15 (CpsrMeets.refuseIf ?_)) qKeptOrSet_self
  refine cpsrMeets_andThen (fun ⟨v, s1⟩ h1 => qKeptOrSet_advance ?_) (qKeptOrSet_entryPsr ..)
  obtain ⟨-, -, hcpsr, -⟩ := loadWord_frame h1
  rw [setReg_cpsr, setReg_cpsr, hcpsr]

theorem qKeptOrSet_subsImm (c : Cond) (rd rn : Reg) (rot : BitVec 4) (imm8 : BitVec 8) :
    CpsrMeets (QKeptOrSet i s) (exec (.subsImm c rd rn rot imm8) s) := by
  rw [exec]
  exact cpsrMeets_registerStep qKeptOrSet_self (Or.inl (getLsbD_psrSubFlags s.cpsr _ _ (by decide)))

theorem qKeptOrSet_bxj (c : Cond) (rm : Reg) : CpsrMeets (QKeptOrSet i s) (exec (.bxj c rm) s) := by
  refine CpsrMeets.conditional (CpsrMeets.withoutR15 ?_) qKeptOrSet_self
  split
  · exact cpsrMeets_next (Or.inl ((getLsbD_psrSetT ..).trans (getLsbD_putBit s.cpsr 24 true 27 (by decide))))
  · exact qKeptOrSet_exchange rfl

theorem qKeptOrSet_smi (c : Cond) (imm16 : BitVec 16) : CpsrMeets (QKeptOrSet i s) (exec (.smi c imm16) s) := by
  refine CpsrMeets.atLevel ?_
  split
  · exact (cpsrMeets_next (qKeptOrSet_entryPsr ..)).conditional qKeptOrSet_self
  · exact cpsrMeets_refused _

end

/-- Q after every instruction but MSR and RFE (R170). -/
theorem exec_qKeptOrSet {i : Instr} {s : State} (hmsr : ∀ c rm, i ≠ .msrCpsrF c rm) (hrfe : ∀ am wb rn, i ≠ .rfe am wb rn) :
    CpsrMeets (QKeptOrSet i s) (exec i s) := by
  cases i with
  | msrCpsrF c rm => exact absurd rfl (hmsr c rm)
  | rfe am wb rn => exact absurd rfl (hrfe am wb rn)
  | blxReg c rm => exact (qKeptOrSet_exchange (setReg_cpsr ..)).withoutR15.conditional qKeptOrSet_self
  | blxLabel h imm24 => exact cpsrMeets_jump (qKeptOrSet_psrSetT true)
  | b c imm24 => exact (cpsrMeets_next qKeptOrSet_self).conditional qKeptOrSet_self
  | bxj c rm => exact qKeptOrSet_bxj c rm
  | bkpt imm16 => exact cpsrMeets_next (qKeptOrSet_entryPsr ..)
  | smi c imm16 => exact qKeptOrSet_smi c imm16
  | pld => exact cpsrMeets_advance qKeptOrSet_self
  | cdp2 | mrc2 => exact cpsrMeets_refused _
  | cps change mode => exact qKeptOrSet_cps change mode
  | setend big => exact (cpsrMeets_advance (Or.inl (getLsbD_psrSetE ..))).atLevel
  | srs am wb mode => exact qKeptOrSet_srs am wb mode
  | swp c rd rm rn => exact qKeptOrSet_swp c rd rm rn
  | ldrex c rd rn => exact qKeptOrSet_ldrex c rd rn
  | strex c rd rm rn => exact qKeptOrSet_strex c rd rm rn
  | ldrPost c add rd rn imm12 => exact qKeptOrSet_ldrPost c add rd rn imm12
  | subsImm c rd rn rot imm8 => exact qKeptOrSet_subsImm c rd rn rot imm8
  | clz | pkhbt | pkhtb | rev | rev16 | revsh | smulw | smul | uhsub8 | smusd | uxtb | sxtb16 | sel | usad8 =>
    rw [exec]
    exact qKeptOrSet_registerStep_setReg
  | umaal | smlal | smlald | smlsld =>
    rw [exec]
    exact qKeptOrSet_longStep
  | qadd | qsub | qdadd | qdsub | ssat | smlaw | smlad | smlsd | smuad =>
    rw [exec]
    exact qKeptOrSet_registerStep_writeWithQ rfl
  | uadd8 | sadd8 | usub8 | ssub8 | uadd16 | sadd16 | usub16 | ssub16 | uaddsubx | saddsubx | usubaddx | ssubaddx =>
    rw [exec]
    exact qKeptOrSet_simdWrap
  | uqadd8 | qadd8 | uqsub8 | qsub8 | uqadd16 | qadd16 | uqsub16 | qsub16 | uqaddsubx | qaddsubx | uqsubaddx | qsubaddx =>
    rw [exec]
    exact qKeptOrSet_simdSat rfl

/-- Settles O15: an instruction that changes Q sets it, and is one of those that R170 lists. -/
theorem qIsSticky : Obligations.QIsSticky := by
  intro i s t hexec hmsr hrfe
  rcases exec_qKeptOrSet hmsr hrfe t hexec with hkept | ⟨hlisted, hset⟩
  · refine ⟨fun hQ => hkept.trans hQ, fun hclear hQ => ?_⟩
    rw [hkept, hclear] at hQ
    exact nomatch hQ
  · exact ⟨fun _ => hset, fun _ _ => hlisted⟩

end Sys2Proof.Machine
end

section
/-! PROOFS. v6 SIMD add and subtract (spec/43_v6_simd_addsub.md R190 to R220), SEL and USAD8 (spec/44_v6_dsp_support.md R242,
R243): the lanes of a packed word and their GE bits, saturated lanes, and what a wrapping and a saturating instruction answer. -/

namespace Sys2Proof.Machine

/-! ## Packed lanes and their GE bits -/

/-- Halfword lane `k` of two packed halfwords is the `k`-th of them. -/
theorem halfLane_packHalves (f : Nat → BitVec 16) {k : Nat} (hk : k < 2) : halfLane (packHalves f) k = f k := by
  interval_cases k <;>
    simp (disch := decide) only [halfLane, getField, packHalves, BitVec.extractLsb'_append_eq_of_le,
      BitVec.extractLsb'_append_eq_of_add_le, BitVec.extractLsb'_eq_self, Nat.reduceMul, Nat.reduceSub]

theorem getLsbD_geBytes (f : Nat → Bool) {k : Nat} (hk : k < 4) : (geBytes f).getLsbD k = f k := by
  rw [geBytes, BitVec.getLsbD_append, BitVec.getLsbD_append, BitVec.getLsbD_append]
  interval_cases k <;> simp

/-- Each halfword lane has two equal GE bits (R192). -/
theorem geHalves_eq_geBytes (f : Nat → Bool) : geHalves f = geBytes fun k => f (k / 2) := rfl

/-- The exact result from which a lane's GE bit is 1 (R192). -/
def geThreshold (signed : Bool) (op : LaneOp) (width : Nat) : Int :=
  match signed, op with
  | false, .add => ((2 ^ width : Nat) : Int)
  | _, _ => 0

theorem laneGE_eq_decide (signed : Bool) (op : LaneOp) (width : Nat) (r : Int) :
    laneGE signed op width r = decide (geThreshold signed op width ≤ r) := by
  cases signed <;> cases op <;> rfl

/-! ## GE in the status register -/

theorem getLsbD_psrSetGE (w : Word) (ge : BitVec 4) (k : Nat) :
    (psrSetGE w ge).getLsbD k = if 16 ≤ k ∧ k < 20 then ge.getLsbD (k - 16) else w.getLsbD k :=
  getLsbD_putField w 16 ge (by decide) k

theorem getLsbD_psrSetGE_lane (w : Word) (ge : BitVec 4) {k : Nat} (hk : k < 4) :
    (psrSetGE w ge).getLsbD (16 + k) = ge.getLsbD k := by
  rw [getLsbD_psrSetGE, if_pos (by omega), Nat.add_sub_cancel_left]

theorem getLsbD_psrGE (w : Word) {k : Nat} (hk : k < 4) : (psrGE w).getLsbD k = w.getLsbD (16 + k) := by
  rw [psrGE, getField, BitVec.getLsbD_extractLsb', decide_eq_true hk, Bool.true_and]

@[simp] theorem psrMode_psrSetGE (w : Word) (ge : BitVec 4) : psrMode (psrSetGE w ge) = psrMode w :=
  psrMode_of_same fun k hk => (getLsbD_psrSetGE w ge k).trans (if_neg (by omega))

/-! ## Wrapping instructions -/

/-- A wrapping instruction that executes normally writes its result to Rd and its four flags to GE, and nothing else (R192). -/
theorem simdWrap_of_runs {c : Cond} {rd rn rm : Reg} {s : State} {f : Word → Word → Word × BitVec 4} {v : Word}
    {ge : BitVec 4} (hruns : Claims.runs .v6 c [rd, rn, rm] s) (hf : f (s.reg rn) (s.reg rm) = (v, ge)) :
    ∃ t, simdWrap c rd rn rm s f = .next t ∧ Claims.onlyWrites s t [rd] [16, 17, 18, 19] ∧ t.reg rd = v
      ∧ ∀ k, k < 4 → t.cpsr.getLsbD (16 + k) = ge.getLsbD k := by
  obtain ⟨⟨hlevel, hc⟩, hr15, hroom⟩ := hruns
  have hrd : rd ≠ 15 := fun h => hr15 (h ▸ List.mem_cons_self)
  obtain ⟨hpc, hregs, -, hmem, hres, hsystem, hfree⟩ := onlyWrites_setReg s v hrd
  have hroom' : ((s.setReg rd v).setCpsr (psrSetGE s.cpsr ge)).pc.toNat + 4 < 2 ^ 32 := by
    rw [setCpsr_pc, setReg_pc s rd v hrd]; exact hroom
  rw [simdWrap, hf]
  refine ⟨_, registerStep_of_passed hlevel hc (by simpa using hr15) hroom',
    ⟨hpc, hregs, ?status, hmem, hres, hsystem, hfree⟩, ?reg, fun k hk => getLsbD_psrSetGE_lane _ _ hk⟩
  case status =>
    intro k hk
    simp only [List.mem_cons, List.not_mem_nil, or_false, not_or] at hk
    exact (getLsbD_psrSetGE ..).trans (if_neg (by omega))
  case reg =>
    have hmode : ((s.setReg rd v).setCpsr (psrSetGE s.cpsr ge)).mode = (s.setReg rd v).mode := by simp [State.mode]
    rw [reg_withPc _ _ _ hrd, reg_congr (setCpsr_regs ..) (setCpsr_pc ..) hmode rd, reg_setReg_same s rd v hrd]

/-- The byte forms that wrap (R197, R198, R201, R202). -/
theorem simdWrap_wrapBytes_of_runs {c : Cond} {rd rn rm : Reg} {s : State} (signed : Bool) (op : LaneOp)
    (hruns : Claims.runs .v6 c [rd, rn, rm] s) :
    ∃ t, simdWrap c rd rn rm s (wrapBytes signed op) = .next t
      ∧ Claims.bytesWrap signed op.apply (geThreshold signed op 8) s t rd rn rm := by
  obtain ⟨t, hexec, hwrites, hrd, hge⟩ := simdWrap_of_runs hruns (f := wrapBytes signed op) rfl
  refine ⟨t, hexec, hwrites, fun k hk => ⟨?lane, ?flag⟩⟩
  case lane => rw [hrd]; exact byteLane_packBytes _ hk
  case flag => rw [hge k hk, getLsbD_geBytes _ hk]; exact laneGE_eq_decide ..

/-- The halfword forms that wrap: lane `k` does `ops k`, and `x` swaps the halves of Rm (R194). -/
theorem simdWrap_halves_of_runs {c : Cond} {rd rn rm : Reg} {s : State} (signed x : Bool) (ops : Nat → LaneOp)
    {f : Word → Word → Word × BitVec 4} (hruns : Claims.runs .v6 c [rd, rn, rm] s)
    (hf : f (s.reg rn) (s.reg rm) =
      (packHalves fun k => truncInt 16 (Claims.exactHalf signed x (ops k).apply s rn rm k),
       geHalves fun k => laneGE signed (ops k) 16 (Claims.exactHalf signed x (ops k).apply s rn rm k))) :
    ∃ t, simdWrap c rd rn rm s f = .next t
      ∧ Claims.halvesWrap signed x (ops 1).apply (ops 0).apply (geThreshold signed (ops 1) 16) (geThreshold signed (ops 0) 16)
        s t rd rn rm := by
  obtain ⟨t, hexec, hwrites, hrd, hge⟩ := simdWrap_of_runs hruns hf
  have hlane {k : Nat} (hk : k < 2) :
      Claims.h (t.reg rd) k = BitVec.ofInt 16 (Claims.exactHalf signed x (ops k).apply s rn rm k) := by
    rw [hrd]; exact halfLane_packHalves _ hk
  have hflag {k : Nat} (hk : k < 4) : t.cpsr.getLsbD (16 + k) =
      decide (geThreshold signed (ops (k / 2)) 16 ≤ Claims.exactHalf signed x (ops (k / 2)).apply s rn rm (k / 2)) := by
    rw [hge k hk, geHalves_eq_geBytes, getLsbD_geBytes _ hk, laneGE_eq_decide]
  exact ⟨t, hexec, hwrites, hlane (by decide), hlane (by decide), hflag (k := 3) (by decide), hflag (k := 2) (by decide),
    hflag (k := 1) (by decide), hflag (k := 0) (by decide)⟩

theorem simdWrap_wrapHalves_of_runs {c : Cond} {rd rn rm : Reg} {s : State} (signed : Bool) (op : LaneOp)
    (hruns : Claims.runs .v6 c [rd, rn, rm] s) :
    ∃ t, simdWrap c rd rn rm s (wrapHalves signed op) = .next t
      ∧ Claims.halvesWrap signed false op.apply op.apply (geThreshold signed op 16) (geThreshold signed op 16) s t rd rn rm :=
  simdWrap_halves_of_runs signed false (fun _ => op) hruns rfl

theorem simdWrap_wrapCross_of_runs {c : Cond} {rd rn rm : Reg} {s : State} (signed : Bool) (top : LaneOp)
    (hruns : Claims.runs .v6 c [rd, rn, rm] s) :
    ∃ t, simdWrap c rd rn rm s (wrapCross signed top) = .next t
      ∧ Claims.halvesWrap signed true (crossOp top 1).apply (crossOp top 0).apply (geThreshold signed (crossOp top 1) 16)
        (geThreshold signed (crossOp top 0) 16) s t rd rn rm :=
  simdWrap_halves_of_runs signed true (crossOp top) hruns rfl

/-- Settles O49: each lane of the packed result is the truncated exact result, and its GE bit compares that result with the lane's
threshold. -/
theorem byteLanesWrap : Obligations.ByteLanesWrap := fun _ _ _ _ _ hruns =>
  ⟨simdWrap_wrapBytes_of_runs false .add hruns, simdWrap_wrapBytes_of_runs true .add hruns,
    simdWrap_wrapBytes_of_runs false .sub hruns, simdWrap_wrapBytes_of_runs true .sub hruns⟩

/-- Settles O50: as for the byte lanes, the two lanes of an exchange form having an operation each. -/
theorem halfwordLanesWrap : Obligations.HalfwordLanesWrap := fun _ _ _ _ _ hruns =>
  ⟨simdWrap_wrapHalves_of_runs false .add hruns, simdWrap_wrapHalves_of_runs true .add hruns,
    simdWrap_wrapHalves_of_runs false .sub hruns, simdWrap_wrapHalves_of_runs true .sub hruns,
    simdWrap_wrapCross_of_runs false .add hruns, simdWrap_wrapCross_of_runs true .add hruns,
    simdWrap_wrapCross_of_runs false .sub hruns, simdWrap_wrapCross_of_runs true .sub hruns⟩

/-! ## Saturated lanes -/

theorem sat_unsigned (n : Nat) (r : Int) : Claims.sat false n r = max 0 (min (((2 ^ n : Nat) : Int) - 1) r) := rfl

/-- `UnsignedSat_n` is the nearest number of the range, and it saturates where that is another number (R8). -/
theorem unsignedSat_eq (n : Nat) (r : Int) : unsignedSat n r = (Claims.sat false n r, decide (Claims.sat false n r ≠ r)) := by
  have hpos : (0 : Int) < ((2 ^ n : Nat) : Int) := Int.natCast_pos.mpr (Nat.two_pow_pos n)
  rw [sat_unsigned, unsignedSat]
  generalize ((2 ^ n : Nat) : Int) = bound at hpos ⊢
  split_ifs with hhigh hlow
  · have hsat : max 0 (min (bound - 1) r) = bound - 1 := by omega
    rw [hsat, decide_eq_true (by omega)]
  · have hsat : max 0 (min (bound - 1) r) = 0 := by omega
    rw [hsat, decide_eq_true (by omega)]
  · have hsat : max 0 (min (bound - 1) r) = r := by omega
    rw [hsat, decide_eq_false (not_not.mpr rfl)]

theorem satLane_eq (signed : Bool) (n : Nat) (r : Int) :
    satLane signed n r = (Claims.sat signed n r, decide (Claims.sat signed n r ≠ r)) := by
  cases signed
  · exact unsignedSat_eq n r
  · exact signedSat_eq n r

/-- A saturated number is in the range of its lane, so the lane reads back as that number. -/
theorem num_truncInt_sat (signed : Bool) {n : Nat} (hn : 0 < n) (r : Int) :
    Claims.num signed (truncInt n (Claims.sat signed n r)) = Claims.sat signed n r := by
  cases signed with
  | false =>
    have hpos : (0 : Int) < ((2 ^ n : Nat) : Int) := Int.natCast_pos.mpr (Nat.two_pow_pos n)
    have hlow : 0 ≤ Claims.sat false n r := by rw [sat_unsigned]; omega
    have hhigh : Claims.sat false n r < ((2 ^ n : Nat) : Int) := by rw [sat_unsigned]; omega
    rw [Claims.num, if_neg Bool.false_ne_true, truncInt, BitVec.toNat_ofInt, Int.emod_eq_of_lt hlow hhigh,
      Int.toNat_of_nonneg hlow]
  | true =>
    have hpos : (0 : Int) < ((2 ^ (n - 1) : Nat) : Int) := Int.natCast_pos.mpr (Nat.two_pow_pos (n - 1))
    have hlow : -((2 ^ (n - 1) : Nat) : Int) ≤ Claims.sat true n r := by rw [sat_signed]; omega
    have hhigh : Claims.sat true n r < ((2 ^ (n - 1) : Nat) : Int) := by rw [sat_signed]; omega
    exact BitVec.toInt_ofInt_eq_self hn (by exact_mod_cast hlow) (by exact_mod_cast hhigh)

theorem num_byteLane_satBytes (signed : Bool) (r : Nat → Int) {k : Nat} (hk : k < 4) :
    Claims.num signed (byteLane (satBytes signed r).1 k) = Claims.sat signed 8 (r k) := by
  rw [satBytes, byteLane_packBytes _ hk, satLane_eq, num_truncInt_sat signed (by decide)]

theorem satBytes_saturated_iff (signed : Bool) (r : Nat → Int) :
    (satBytes signed r).2 = true ↔ ∃ k, k < 4 ∧ Claims.sat signed 8 (r k) ≠ r k := by
  simp only [satBytes, satLane_eq, Bool.or_eq_true, decide_eq_true_eq]
  constructor
  · rintro (((h | h) | h) | h)
    exacts [⟨0, by decide, h⟩, ⟨1, by decide, h⟩, ⟨2, by decide, h⟩, ⟨3, by decide, h⟩]
  · rintro ⟨k, hk, h⟩
    interval_cases k <;> simp [h]

theorem num_halfLane_satHalves (signed : Bool) (r : Nat → Int) {k : Nat} (hk : k < 2) :
    Claims.num signed (halfLane (satHalves signed r).1 k) = Claims.sat signed 16 (r k) := by
  rw [satHalves, halfLane_packHalves _ hk, satLane_eq, num_truncInt_sat signed (by decide)]

theorem satHalves_saturated_iff (signed : Bool) (r : Nat → Int) :
    (satHalves signed r).2 = true ↔ Claims.sat signed 16 (r 1) ≠ r 1 ∨ Claims.sat signed 16 (r 0) ≠ r 0 := by
  simp only [satHalves, satLane_eq, Bool.or_eq_true, decide_eq_true_eq]
  exact or_comm

/-! ## Saturating instructions -/

/-- A saturating instruction that executes normally writes its result to Rd and, under `SIMD_SAT_SETS_Q`, sets Q when a lane
saturated; it writes nothing else (R193). -/
theorem simdSat_of_runs {c : Cond} {rd rn rm : Reg} {s : State} {f : Word → Word → Word × Bool} {p : Word × Bool}
    (hruns : Claims.runs .v6 c [rd, rn, rm] s) (hf : f (s.reg rn) (s.reg rm) = p) :
    ∃ t, simdSat c rd rn rm s f = .next t ∧ Claims.onlyWrites s t [rd] [27] ∧ t.reg rd = p.1
      ∧ Claims.stickyQ s t (s.params.simdSatSetsQ = true ∧ p.2 = true) := by
  subst hf
  rw [← Bool.and_eq_true]
  exact registerStep_writeWithQ_of_runs _ _ hruns

/-- The byte forms that saturate (R195, R196, R199, R200). -/
theorem simdSat_satBytes_of_runs {c : Cond} {rd rn rm : Reg} {s : State} (signed : Bool) (op : LaneOp)
    (hruns : Claims.runs .v6 c [rd, rn, rm] s) :
    ∃ t, simdSat c rd rn rm s (fun v w => satBytes signed (byteResults signed op v w)) = .next t
      ∧ Claims.bytesSat signed op.apply s t rd rn rm := by
  obtain ⟨t, hexec, hwrites, hrd, hQ⟩ :=
    simdSat_of_runs hruns (f := fun v w => satBytes signed (byteResults signed op v w)) rfl
  rw [satBytes_saturated_iff] at hQ
  refine ⟨t, hexec, hwrites, fun k hk => ?_, hQ⟩
  rw [hrd]
  exact num_byteLane_satBytes _ _ hk

/-- The halfword forms that saturate: lane `k` does `ops k`, and `x` swaps the halves of Rm (R194). -/
theorem simdSat_halves_of_runs {c : Cond} {rd rn rm : Reg} {s : State} (signed x : Bool) (ops : Nat → LaneOp)
    {f : Word → Word → Word × Bool} (hruns : Claims.runs .v6 c [rd, rn, rm] s)
    (hf : f (s.reg rn) (s.reg rm) = satHalves signed fun k => Claims.exactHalf signed x (ops k).apply s rn rm k) :
    ∃ t, simdSat c rd rn rm s f = .next t ∧ Claims.halvesSat signed x (ops 1).apply (ops 0).apply s t rd rn rm := by
  obtain ⟨t, hexec, hwrites, hrd, hQ⟩ := simdSat_of_runs hruns hf
  rw [satHalves_saturated_iff] at hQ
  refine ⟨t, hexec, hwrites, ?top, ?bottom, hQ⟩
  case top | bottom => rw [hrd]; exact num_halfLane_satHalves signed _ (by decide)

theorem simdSat_satHalves_of_runs {c : Cond} {rd rn rm : Reg} {s : State} (signed : Bool) (op : LaneOp)
    (hruns : Claims.runs .v6 c [rd, rn, rm] s) :
    ∃ t, simdSat c rd rn rm s (fun v w => satHalves signed (halfResults signed op v w)) = .next t
      ∧ Claims.halvesSat signed false op.apply op.apply s t rd rn rm :=
  simdSat_halves_of_runs signed false (fun _ => op) hruns rfl

theorem simdSat_satCross_of_runs {c : Cond} {rd rn rm : Reg} {s : State} (signed : Bool) (top : LaneOp)
    (hruns : Claims.runs .v6 c [rd, rn, rm] s) :
    ∃ t, simdSat c rd rn rm s (fun v w => satHalves signed (crossResults signed top v w)) = .next t
      ∧ Claims.halvesSat signed true (crossOp top 1).apply (crossOp top 0).apply s t rd rn rm :=
  simdSat_halves_of_runs signed true (crossOp top) hruns rfl

/-- Settles O51: each lane is the saturated exact result, which its byte holds, and Q is set where a lane saturated. -/
theorem byteLanesSaturate : Obligations.ByteLanesSaturate := fun _ _ _ _ _ hruns =>
  ⟨simdSat_satBytes_of_runs false .add hruns, simdSat_satBytes_of_runs true .add hruns,
    simdSat_satBytes_of_runs false .sub hruns, simdSat_satBytes_of_runs true .sub hruns⟩

/-- Settles O52: as for the byte lanes, the two lanes of an exchange form having an operation each. -/
theorem halfwordLanesSaturate : Obligations.HalfwordLanesSaturate := fun _ _ _ _ _ hruns =>
  ⟨simdSat_satHalves_of_runs false .add hruns, simdSat_satHalves_of_runs true .add hruns,
    simdSat_satHalves_of_runs false .sub hruns, simdSat_satHalves_of_runs true .sub hruns,
    simdSat_satCross_of_runs false .add hruns, simdSat_satCross_of_runs true .add hruns,
    simdSat_satCross_of_runs false .sub hruns, simdSat_satCross_of_runs true .sub hruns⟩

/-! ## UHSUB8, SEL and USAD8 -/

theorem byteLane_selectBytes (ge : BitVec 4) (v w : Word) {k : Nat} (hk : k < 4) :
    byteLane (selectBytes ge v w) k = if ge.getLsbD k then byteLane v k else byteLane w k := byteLane_packBytes _ hk

/-- USAD8 adds the magnitudes of the exact byte differences (R243). -/
theorem sumAbsDiff_eq (v w : Word) : sumAbsDiff v w =
    (byteResults false .sub v w 0).natAbs + (byteResults false .sub v w 1).natAbs + (byteResults false .sub v w 2).natAbs
      + (byteResults false .sub v w 3).natAbs := by
  have hrange : List.range 4 = [0, 1, 2, 3] := rfl
  simp only [sumAbsDiff, hrange, List.map_cons, List.map_nil, List.sum_cons, List.sum_nil, byteResults, LaneOp.apply, laneInt,
    Bool.false_eq_true, if_false]
  omega

theorem natAbs_byteDifference_lt (v w : Word) (k : Nat) : (byteResults false .sub v w k).natAbs < 256 := by
  have hv := (byteLane v k).isLt
  have hw := (byteLane w k).isLt
  simp only [byteResults, LaneOp.apply, laneInt, Bool.false_eq_true, if_false]
  omega

/-- Four differences of bytes fit a word. -/
theorem sumAbsDiff_lt (v w : Word) : sumAbsDiff v w < 2 ^ 32 := by
  have h0 := natAbs_byteDifference_lt v w 0
  have h1 := natAbs_byteDifference_lt v w 1
  have h2 := natAbs_byteDifference_lt v w 2
  have h3 := natAbs_byteDifference_lt v w 3
  rw [sumAbsDiff_eq]
  omega

/-- Settles O56: each writes one value to Rd; UHSUB8's and SEL's are packed byte by byte, and USAD8's sum fits the word. -/
theorem halveSelectAndDifference : Obligations.HalveSelectAndDifference := by
  intro c rd rn rm s hruns
  refine ⟨?uhsub8, ?sel, ?usad8⟩
  case uhsub8 =>
    obtain ⟨t, hexec, hwrites, hrd⟩ := registerStep_setReg_of_runs
      (packBytes fun k => truncInt 8 (halve (byteResults false .sub (s.reg rn) (s.reg rm) k))) hruns
    exact ⟨t, hexec, hwrites, fun k hk => by rw [hrd]; exact byteLane_packBytes _ hk⟩
  case sel =>
    obtain ⟨t, hexec, hwrites, hrd⟩ :=
      registerStep_setReg_of_runs (selectBytes (psrGE s.cpsr) (s.reg rn) (s.reg rm)) hruns
    refine ⟨t, hexec, hwrites, fun k hk => ?_⟩
    rw [hrd, ← getLsbD_psrGE s.cpsr hk]
    exact byteLane_selectBytes _ _ _ hk
  case usad8 =>
    obtain ⟨t, hexec, hwrites, hrd⟩ :=
      registerStep_setReg_of_runs (BitVec.ofNat 32 (sumAbsDiff (s.reg rn) (s.reg rm))) hruns
    refine ⟨t, hexec, hwrites, ?_⟩
    rw [hrd, BitVec.toNat_ofNat, Nat.mod_eq_of_lt (sumAbsDiff_lt ..), sumAbsDiff_eq]
    simp only [Nat.cast_add, Int.natCast_natAbs]
    rfl

end Sys2Proof.Machine
end

section
/-! PROOFS. v6 dual multiplies, byte extension and SSAT (spec/44_v6_dsp_support.md R230 to R239, R241): the exchanged halves of the X
forms and the range of a difference of products, the bytes of a rotated word, and SSAT's shifted operand and range of n bits. -/

namespace Sys2Proof.Machine

/-! ## The two products -/

/-- The X forms take Rs with its halves exchanged (R230). -/
theorem dualOperand_true_eq_packHalves (v : Word) : dualOperand true v = packHalves fun k => halfLane v (1 - k) := rfl

theorem halfInt_dualOperand (x : Bool) (v : Word) (h : HalfSel) :
    halfInt (dualOperand x v) h = Claims.half v (Claims.other x h) := by
  rw [half_eq_halfInt]
  cases x with
  | false => cases h <;> rfl
  | true =>
    have hlane {k : Nat} (hk : k < 2) : halfLane (dualOperand true v) k = halfLane v (1 - k) := by
      rw [dualOperand_true_eq_packHalves, halfLane_packHalves _ hk]
    cases h with
    | bottom => exact congrArg BitVec.toInt (hlane (k := 0) (by decide))
    | top => exact congrArg BitVec.toInt (hlane (k := 1) (by decide))

theorem bottomProduct_eq_p1 (x : Bool) (v w : Word) : bottomProduct x v w = Claims.p1 x v w := by
  rw [bottomProduct, halfInt_dualOperand, ← half_eq_halfInt, Claims.p1]

theorem topProduct_eq_p2 (x : Bool) (v w : Word) : topProduct x v w = Claims.p2 x v w := by
  rw [topProduct, halfInt_dualOperand, ← half_eq_halfInt, Claims.p2]

/-- A product of two halves reaches 2^30, by -2^15 times itself, but not -2^30. -/
theorem half_mul_half_bounds (v w : Word) (x y : HalfSel) :
    -2 ^ 30 < Claims.half v x * Claims.half w y ∧ Claims.half v x * Claims.half w y ≤ 2 ^ 30 := by
  rw [half_eq_halfInt, half_eq_halfInt]
  have hv : -2 ^ 15 ≤ halfInt v x ∧ halfInt v x < 2 ^ 15 := ⟨BitVec.le_toInt _, BitVec.toInt_lt⟩
  have hw : -2 ^ 15 ≤ halfInt w y ∧ halfInt w y < 2 ^ 15 := ⟨BitVec.le_toInt _, BitVec.toInt_lt⟩
  constructor <;> nlinarith

/-- The difference of the two products fits 32 bits, which their sum does not always (R231, R232). -/
theorem p1_sub_p2_not_outside32 (x : Bool) (v w : Word) : ¬ Claims.outside32 (Claims.p1 x v w - Claims.p2 x v w) := by
  have hp1 := half_mul_half_bounds v w .bottom (Claims.other x .bottom)
  have hp2 := half_mul_half_bounds v w .top (Claims.other x .top)
  rw [Claims.outside32, Claims.p1, Claims.p2]
  omega

/-! ## Dual multiplies -/

/-- A register instruction that executes normally, and whose update is a number that wraps and sets Q where it does not fit. -/
theorem registerStep_writeWrapped_of_runs {need : Arch} {c : Cond} {rd : Reg} {rs : List Reg} {s : State} (r : Int)
    (hruns : Claims.runs need c (rd :: rs) s) :
    ∃ t, registerStep need c (rd :: rs) s (writeWrapped s rd r) = .next t ∧ Claims.onlyWrites s t [rd] [27]
      ∧ t.reg rd = BitVec.ofInt 32 r ∧ Claims.stickyQ s t (Claims.outside32 r) := by
  rw [← signedOverflow_iff_outside32]
  exact registerStep_writeWithQ_of_runs (truncInt 32 r) (signedOverflow 32 r) hruns

/-- A long multiply that executes normally adds its number to RdHi:RdLo modulo 2^64: truncating a sum is adding the truncations. -/
theorem longStep_accumulate_of_runs {need : Arch} {c : Cond} {rdLo rdHi rm rs : Reg} {s : State} {r p : Int}
    (hr : r = longInt s rdLo rdHi + p) (hruns : Claims.runs need c [rdLo, rdHi, rm, rs] s) (hne : rdLo ≠ rdHi) :
    ∃ t, longStep need c rdLo rdHi rm rs s (writeLong s rdLo rdHi r) = .next t ∧ Claims.onlyWrites s t [rdLo, rdHi] []
      ∧ (t.reg rdHi ++ t.reg rdLo : BitVec 64) = (s.reg rdHi ++ s.reg rdLo : BitVec 64) + BitVec.ofInt 64 p := by
  obtain ⟨t, hexec, hwrites, hlo, hhi⟩ := longStep_of_runs _ _ hruns hne
  refine ⟨t, hexec, hwrites, ?_⟩
  rw [hlo, hhi, BitVec.extractLsb'_append_extractLsb', hr, truncInt, BitVec.ofInt_add, longInt, BitVec.ofInt_toInt]

/-- Settles O53: the products are those of the exchanged halves; the difference alone fits 32 bits, SMUAD and the 32-bit accumulates
wrap with Q, and the long forms accumulate modulo 2^64. -/
theorem dualMultiplies : Obligations.DualMultiplies := by
  intro x c rd rdLo rdHi rm rs rn
  refine ⟨fun s hruns => ?products, fun s r hruns => ?accumulates, fun s hruns hne => ?long,
    fun s hsel hr15 heq => ?combination⟩
  case products =>
    simp only [← bottomProduct_eq_p1, ← topProduct_eq_p2]
    refine ⟨registerStep_writeWrapped_of_runs _ hruns, ?smusd⟩
    obtain ⟨t, hexec, hwrites, hrd⟩ := registerStep_setReg_of_runs
      (truncInt 32 (bottomProduct x (s.reg rm) (s.reg rs) - topProduct x (s.reg rm) (s.reg rs))) hruns
    refine ⟨t, hexec, hwrites, ?_⟩
    rw [hrd, bottomProduct_eq_p1, topProduct_eq_p2, toInt_truncInt (p1_sub_p2_not_outside32 x _ _)]
  case accumulates =>
    simp only [← bottomProduct_eq_p1, ← topProduct_eq_p2]
    refine ⟨fun hr => ?smlad, fun hr => ?smlsd⟩
    case smlad | smlsd =>
      subst hr
      exact registerStep_writeWrapped_of_runs _ hruns
  case long =>
    simp only [← bottomProduct_eq_p1, ← topProduct_eq_p2]
    exact ⟨longStep_accumulate_of_runs (add_assoc ..) hruns hne, longStep_accumulate_of_runs (add_sub_assoc ..) hruns hne⟩
  case combination =>
    subst heq
    exact ⟨longStep_of_equal hsel hr15, longStep_of_equal hsel hr15⟩

/-! ## Bytes of a rotated word -/

theorem firstByte_lt (rot : Rotation) : Claims.firstByte rot < 4 := by cases rot <;> decide

/-- A rotation of R237 is by whole bytes. -/
theorem rotationAmount_eq (rot : Rotation) : rotationAmount rot = 8 * Claims.firstByte rot := by cases rot <;> rfl

/-- Rotating right by `m` bytes brings byte `m + k`, counted around the word, to byte `k`. -/
theorem byteLane_rotateRight (v : Word) (m : Nat) {k : Nat} (hk : k < 4) :
    byteLane (v.rotateRight (8 * m)) k = byteLane v ((m + k) % 4) := by
  apply BitVec.eq_of_getLsbD_eq
  intro i hi
  simp only [byteLane, getField, BitVec.getLsbD_extractLsb', BitVec.getLsbD_rotateRight, hi, decide_true, Bool.true_and,
    Bool.cond_decide]
  split
  next hinside =>
    have hplace : 8 * m % 32 + (8 * k + i) = 8 * ((m + k) % 4) + i := by omega
    rw [hplace]
  next haround =>
    have hplace : 8 * k + i - (32 - 8 * m % 32) = 8 * ((m + k) % 4) + i := by omega
    rw [decide_eq_true (by omega), Bool.true_and, hplace]

theorem byteLane_rotated (v : Word) (rot : Rotation) {k : Nat} (hk : k < 4) :
    byteLane (rotated v rot) k = byteLane v ((Claims.firstByte rot + k) % 4) := by
  rw [rotated, rotationAmount_eq, byteLane_rotateRight v _ hk]

theorem byteLane_rotated_zero (v : Word) (rot : Rotation) :
    byteLane (rotated v rot) 0 = byteLane v (Claims.firstByte rot) := by
  rw [byteLane_rotated v rot (by decide), Nat.add_zero, Nat.mod_eq_of_lt (firstByte_lt rot)]

/-- Settles O54: each writes one value to Rd; extending a byte keeps its number, and the bytes are those that the rotation
brings down. -/
theorem extendBytes : Obligations.ExtendBytes := by
  intro c rd rm rot s hruns
  refine ⟨?uxtb, ?sxtb16⟩
  case uxtb =>
    obtain ⟨t, hexec, hwrites, hrd⟩ :=
      registerStep_setReg_of_runs ((byteLane (rotated (s.reg rm) rot) 0).setWidth 32) hruns
    refine ⟨t, hexec, hwrites, ?_⟩
    rw [hrd, BitVec.toNat_setWidth_of_le (by decide), byteLane_rotated_zero]
    rfl
  case sxtb16 =>
    obtain ⟨t, hexec, hwrites, hrd⟩ := registerStep_setReg_of_runs
      (packHalves fun k => (byteLane (rotated (s.reg rm) rot) (2 * k)).signExtend 16) hruns
    have hhalf {k : Nat} (hk : k < 2) :
        (halfLane (t.reg rd) k).toInt = (byteLane (rotated (s.reg rm) rot) (2 * k)).toInt := by
      rw [hrd, halfLane_packHalves _ hk, BitVec.toInt_signExtend_of_le (by decide)]
    refine ⟨t, hexec, hwrites, ?bottom, ?top⟩
    case bottom => exact (hhalf (by decide)).trans (congrArg BitVec.toInt (byteLane_rotated_zero ..))
    case top => exact (hhalf (by decide)).trans (congrArg BitVec.toInt (byteLane_rotated _ _ (by decide)))

/-! ## SSAT -/

/-- The arithmetic shift to the right is the division rounded down, also by 32 places (R241). -/
theorem satOperand_eq_shifted (v : Word) (shift : SatShift) : satOperand v shift = Claims.shifted v shift := by
  cases shift with
  | lsl sh => rfl
  | asr sh => rw [satOperand, BitVec.toInt_sshiftRight, Int.shiftRight_eq_div_pow, Claims.shifted]

/-- The range of at most 32 bits lies in that of 32 bits. -/
theorem sat_not_outside32_of_le {n : Nat} (hn : n ≤ 32) (r : Int) : ¬ Claims.outside32 (Claims.sat true n r) := by
  have hpos : 0 < 2 ^ (n - 1) := Nat.two_pow_pos (n - 1)
  have hle : 2 ^ (n - 1) ≤ 2 ^ 31 := Nat.pow_le_pow_right (by decide) (by omega)
  rw [sat_signed, Claims.outside32]
  omega

/-- Settles O55: SSAT writes the saturated operand, which a word holds, and its Q says that saturating changed the operand. -/
theorem ssatSaturates : Obligations.SsatSaturates := by
  intro c rd n rm shift s hruns _ hn _
  obtain ⟨t, hexec, hwrites, hrd, hQ⟩ := registerStep_writeWithQ_of_runs
    (truncInt 32 (signedSat n (satOperand (s.reg rm) shift)).1) (signedSat n (satOperand (s.reg rm) shift)).2 hruns
  rw [signedSat_eq, satOperand_eq_shifted] at hrd hQ
  rw [decide_eq_true_iff] at hQ
  exact ⟨t, hexec, hwrites, by rw [hrd, toInt_truncInt (sat_not_outside32_of_le hn _)], hQ⟩

end Sys2Proof.Machine
end

section
/-! PROOFS. BXJ (spec/45_security_java_thumb2.md R266): what the entry into Jazelle state changes, and BXJ past its checks. -/

namespace Sys2Proof.Machine

/-! ## Entering Jazelle state -/

theorem getLsbD_psrSetJ (w : Word) (jazelle : Bool) (k : Nat) :
    (psrSetJ w jazelle).getLsbD k = if k = 24 then jazelle else w.getLsbD k := getLsbD_putBit w 24 jazelle k (by decide)

/-- Every bit of the status register after the entry into Jazelle state: J = 1 and T = 0, the others as they were. -/
theorem getLsbD_enterJazelle_cpsr (s : State) (k : Nat) :
    (enterJazelle s).cpsr.getLsbD k = if k = 5 then false else if k = 24 then true else s.cpsr.getLsbD k := by
  rw [enterJazelle, getLsbD_psrSetT, getLsbD_psrSetJ]

theorem enterJazelle_sameStatusBut (s : State) : Claims.sameStatusBut s (enterJazelle s) [24, 5] := by
  intro k hk
  obtain ⟨hJ, hT⟩ : k ≠ 24 ∧ k ≠ 5 := by simpa using hk
  rw [getLsbD_enterJazelle_cpsr, if_neg hT, if_neg hJ]

theorem enterJazelle_sameRegsBut (s : State) : Claims.sameRegsBut s (enterJazelle s) [] :=
  fun p _ => phys_congr rfl p

theorem enterJazelle_sameSystem (s : State) : Claims.sameSystem s (enterJazelle s) :=
  ⟨rfl, rfl, rfl, rfl, rfl, rfl, rfl, rfl⟩

/-! ## BXJ -/

/-- An exchange branch writes T and the pc alone (R266). -/
theorem frame_exchangeTarget (s : State) (thumb : Bool) (target : Word) :
    Claims.frame s { s.setCpsr (psrSetT s.cpsr thumb) with pc := target } [] [5] := by
  refine ⟨fun p _ => phys_congr rfl p, ?status, fun _ => rfl, rfl, ⟨rfl, rfl, rfl, rfl, rfl, rfl, rfl, rfl⟩, rfl⟩
  intro k hk
  exact (getLsbD_psrSetT ..).trans (if_neg (by simpa using hk))

theorem exec_bxj_of_passed {c : Cond} {rm : Reg} {s : State} (hc : conditionPassed c s.cpsr = true) :
    exec (.bxj c rm) s = withoutR15 [rm]
      (if s.params.hasJazelle && s.params.jazelleEnabled then .next (enterJazelle s) else s.exchange (s.reg rm)) :=
  conditional_of_passed hc

/-- With Jazelle present and enabled BXJ enters Jazelle state, whatever Rm holds. -/
theorem exec_bxj_of_enabled {c : Cond} {rm : Reg} {s : State} (hc : conditionPassed c s.cpsr = true) (hrm : rm ≠ 15)
    (hpresent : s.params.hasJazelle = true) (henabled : s.params.jazelleEnabled = true) :
    exec (.bxj c rm) s = .next (enterJazelle s) := by
  rw [exec_bxj_of_passed hc, withoutR15_of_not_mem (by simpa using hrm.symm), hpresent, henabled, Bool.and_self, if_pos rfl]

/-- With Jazelle absent or disabled BXJ is the exchange branch to Rm. -/
theorem exec_bxj_of_disabled {c : Cond} {rm : Reg} {s : State} (hc : conditionPassed c s.cpsr = true) (hrm : rm ≠ 15)
    (hoff : s.params.hasJazelle = false ∨ s.params.jazelleEnabled = false) :
    exec (.bxj c rm) s = s.exchange (s.reg rm) := by
  rw [exec_bxj_of_passed hc, withoutR15_of_not_mem (by simpa using hrm.symm), Bool.and_eq_false_iff.mpr hoff,
    if_neg Bool.false_ne_true]

/-- Settles O57: past its checks BXJ is the entry into Jazelle state or the exchange branch to Rm, as the two parameters say, and bits
1:0 of Rm decide whether the branch completes. -/
theorem bxjEntersJazelleOrBranches : Obligations.BxjEntersJazelleOrBranches := by
  intro s c rm hc
  refine ⟨fun hrm hpresent henabled => ?jazelle, fun hrm hoff => ⟨fun htarget => ?completes, fun h0 h1 => ?misaligned⟩,
    fun hrm => ?fifteen⟩
  case jazelle =>
    refine ⟨enterJazelle s, exec_bxj_of_enabled hc hrm hpresent henabled, ?J, ?T, enterJazelle_sameRegsBut s,
      enterJazelle_sameStatusBut s, fun _ => rfl, rfl, enterJazelle_sameSystem s⟩
    case J => exact getLsbD_enterJazelle_cpsr s 24
    case T => exact getLsbD_enterJazelle_cpsr s 5
  case completes =>
    refine ⟨_, (exec_bxj_of_disabled hc hrm hoff).trans (exchange_of_aligned htarget), rfl, ?_, frame_exchangeTarget ..⟩
    exact psrT_psrSetT ..
  case misaligned => rw [exec_bxj_of_disabled hc hrm hoff, exchange_of_misaligned h0 h1]
  case fifteen => rw [exec_bxj_of_passed hc, withoutR15_of_mem (by simp [hrm])]

end Sys2Proof.Machine
end

section
/-! PROOFS. Exceptions (spec/60_exceptions.md R302, R303). The entry's columns, its bank writes and the bits of its status register
are the lemmas before `entered_takeException`, which is proved with BKPT above. -/

namespace Sys2Proof.Machine

/-- Settles O21: for every exception, in every state, taking it is R303's entry with R302's row and its frame. -/
theorem exceptionEntry : Obligations.ExceptionEntry :=
  fun e s => entered_takeException e s

end Sys2Proof.Machine
end

section
/-! PROOFS. Reset (spec/70_reset_and_hazards.md R340): what a fetch and a step answer where memory holds an instruction's word, a word
placed at the pc, and the processor's fields right after reset. -/

namespace Sys2Proof.Machine

/-! ## A step whose word memory holds -/

theorem secureViolation_of_secure {s : State} (h : s.nonSecure = false) (a n : Nat) : s.secureViolation a n = false := by
  simp [State.secureViolation, h]

/-- A fetch reads the word lowest byte first, whatever E holds (R62). -/
theorem fetchWord_of_holdsWord {s : State} {w : Word} (ha : wordAligned s.pc = true) (hp : Claims.permitted s s.pc)
    (hw : Claims.holdsWord false s.mem s.pc w) : fetchWord s = .ok w := by
  obtain ⟨bs, hbs, hval⟩ := readBytes_of_holdsWord hw
  have hsecure : s.secureViolation s.pc.toNat 4 = false := hp
  simp [fetchWord, ha, hsecure, hbs, hval]

/-- In a legal mode and in ARM state, with nothing to take, the word fetched after the environment's turn names the instruction
that the step runs. -/
theorem step_of_fetchWord {s : State} {w : Word} {i : Instr} (hmode : (Mode.ofBits (psrMode s.cpsr)).isSome = true)
    (hquiet : (environmentTurn s).pendingException = none) (harm : (environmentTurn s).armState = true)
    (hfetch : fetchWord (environmentTurn s) = .ok w) (hdecode : decodeWord w = .ok i) : step s = exec i (environmentTurn s) := by
  apply step_of_nextInstruction
  simp [State.nextInstruction, hmode, hquiet, harm, hfetch, hdecode, Except.toOption]

theorem environmentTurn_of_no_action {s : State} (h : s.env = []) : environmentTurn s = s := by
  simp [environmentTurn, h]

theorem pendingException_of_no_request {s : State} (hfiq : s.fiqLine = false) (hirq : s.irqLine = false)
    (habort : s.abortPending = false) : s.pendingException = none := by
  simp [State.pendingException, hfiq, hirq, habort]

/-! ## A word placed at the pc -/

theorem bytesOfWord_eq_disassemble (w : Word) : bytesOfWord w = disassemble false 4 w := rfl

theorem holdsWord_storeInstruction (s : State) (w : Word) : Claims.holdsWord false (storeInstruction s w).mem s.pc w := by
  intro k hk
  rw [storeInstruction, bytesOfWord_eq_disassemble, readByte_writeBytes_inside _ _ _ _ (by rwa [disassemble_length]),
    disassemble_getElem? _ w hk]

/-- A placed instruction is the one that the next step runs: for a secure processor at an aligned pc in ARM state and a legal mode,
with no environment action waiting and no request raised. -/
theorem step_storeInstruction {s : State} {w : Word} {i : Instr} (hmode : (Mode.ofBits (psrMode s.cpsr)).isSome = true)
    (harm : s.armState = true) (hpc : wordAligned s.pc = true) (hsecure : s.nonSecure = false) (hquiet : s.quiet)
    (hdecode : decodeWord w = .ok i) : step (storeInstruction s w) = exec i (storeInstruction s w) := by
  obtain ⟨henv, -, hfiq, hirq, habort⟩ := hquiet
  have hturn : environmentTurn (storeInstruction s w) = storeInstruction s w := environmentTurn_of_no_action henv
  have hnone : (storeInstruction s w).pendingException = none := pendingException_of_no_request hfiq hirq habort
  have hfetch : fetchWord (storeInstruction s w) = .ok w :=
    fetchWord_of_holdsWord hpc (secureViolation_of_secure hsecure _ _) (holdsWord_storeInstruction s w)
  have hstep := step_of_fetchWord (s := storeInstruction s w) hmode (by rwa [hturn]) (by rwa [hturn]) (by rwa [hturn]) hdecode
  rwa [hturn] at hstep

/-! ## The state after reset -/

/-- `RESET_E` chooses bit 9 of the status register at reset, and no other (D7). -/
theorem getLsbD_resetWith_cpsr (p : Params) {k : Nat} (hk : k ≠ 9) :
    (State.resetWith p).cpsr.getLsbD k = (0x000001D3#32).getLsbD k := by
  cases hE : p.resetE with
  | false => simp only [State.resetWith, hE, Bool.false_eq_true, if_false]
  | true =>
    have hbit : (0x000003D3#32 : Word) = 0x000001D3#32 ||| BitVec.twoPow 32 9 := by decide
    simp only [State.resetWith, hE, if_true, hbit, BitVec.getLsbD_or, BitVec.getLsbD_twoPow]
    simp [hk.symm]

theorem psrMode_resetWith (p : Params) : psrMode (State.resetWith p).cpsr = Mode.supervisor.bits :=
  psrMode_of_same (w := 0x000001D3#32) fun _ hk => getLsbD_resetWith_cpsr p (by omega)

theorem mode_resetWith (p : Params) : (State.resetWith p).mode = .supervisor := by
  rw [State.mode, psrMode_resetWith, ofBits_bits, Option.getD_some]

theorem armState_resetWith (p : Params) : (State.resetWith p).armState = true := by
  have hT : psrT (State.resetWith p).cpsr = false := getLsbD_resetWith_cpsr p (k := 5) (by decide)
  have hJ : psrJ (State.resetWith p).cpsr = false := getLsbD_resetWith_cpsr p (k := 24) (by decide)
  rw [State.armState, hT, hJ]
  rfl

theorem nonSecure_resetWith (p : Params) : (State.resetWith p).nonSecure = false := by
  simp [State.nonSecure, State.resetWith]

theorem quiet_resetWith (p : Params) : (State.resetWith p).quiet := ⟨rfl, rfl, rfl, rfl, rfl⟩

/-- Well-formed parameters put `RESET_VECTOR` at the address of an ARM instruction (R75). -/
theorem wordAligned_resetVector {p : Params} (h : p.wf = true) : wordAligned p.resetVector = true := by
  simp only [Params.wf, Bool.and_eq_true] at h
  obtain ⟨⟨⟨-, hreset⟩, -⟩, -⟩ := h
  exact hreset

/-- Settles O11: the status register's fields by its bits at reset; the first step by `step_storeInstruction`, since the secure
processor may fetch anywhere and reset leaves nothing for the environment to do. -/
theorem resetStartsSecureInSupervisorMode : Obligations.ResetStartsSecureInSupervisorMode := by
  intro p
  refine ⟨rfl, nonSecure_resetWith p, mode_resetWith p, armState_resetWith p, getLsbD_resetWith_cpsr p (by decide),
    getLsbD_resetWith_cpsr p (by decide), rfl, fun w i hwf hdecode => ?firstStep⟩
  case firstStep =>
    have hmode : (Mode.ofBits (psrMode (State.resetWith p).cpsr)).isSome = true := by rw [psrMode_resetWith, ofBits_bits]; rfl
    exact step_storeInstruction hmode (armState_resetWith p) (wordAligned_resetVector hwf) (nonSecure_resetWith p)
      (quiet_resetWith p) hdecode

end Sys2Proof.Machine
end

section
/-! PROOFS. The decoder and the encoder (spec/30_encoding.md sections 2 and 4): every instruction's row reads its word back, and a row
that reads an instruction from a word has dropped none of its bits. -/

namespace Sys2Proof.Laws

/-! ## From an instruction to its word and back -/

/-- Each instruction has a row that fits its word and reads it back. -/
theorem encodedRow (i : Instr) : EncodedRow.Statement i := by
  cases i with
  | blxReg => apply EncodedRow.blxReg
  | blxLabel => apply EncodedRow.blxLabel
  | clz => apply EncodedRow.clz
  | bkpt => apply EncodedRow.bkpt
  | pld => apply EncodedRow.pld
  | cdp2 => apply EncodedRow.cdp2
  | mrc2 => apply EncodedRow.mrc2
  | pkhbt => apply EncodedRow.pkhbt
  | pkhtb => apply EncodedRow.pkhtb
  | umaal => apply EncodedRow.umaal
  | cps => apply EncodedRow.cps
  | setend => apply EncodedRow.setend
  | srs => apply EncodedRow.srs
  | rfe => apply EncodedRow.rfe
  | swp => apply EncodedRow.swp
  | ldrex => apply EncodedRow.ldrex
  | strex => apply EncodedRow.strex
  | rev => apply EncodedRow.rev
  | rev16 => apply EncodedRow.rev16
  | revsh => apply EncodedRow.revsh
  | smlaw => apply EncodedRow.smlaw
  | smulw => apply EncodedRow.smulw
  | smlal => apply EncodedRow.smlal
  | smul => apply EncodedRow.smul
  | qadd => apply EncodedRow.qadd
  | qsub => apply EncodedRow.qsub
  | qdadd => apply EncodedRow.qdadd
  | qdsub => apply EncodedRow.qdsub
  | uqadd8 => apply EncodedRow.uqadd8
  | qadd8 => apply EncodedRow.qadd8
  | uadd8 => apply EncodedRow.uadd8
  | sadd8 => apply EncodedRow.sadd8
  | uqsub8 => apply EncodedRow.uqsub8
  | qsub8 => apply EncodedRow.qsub8
  | usub8 => apply EncodedRow.usub8
  | ssub8 => apply EncodedRow.ssub8
  | uqadd16 => apply EncodedRow.uqadd16
  | qadd16 => apply EncodedRow.qadd16
  | uadd16 => apply EncodedRow.uadd16
  | sadd16 => apply EncodedRow.sadd16
  | uqsub16 => apply EncodedRow.uqsub16
  | qsub16 => apply EncodedRow.qsub16
  | usub16 => apply EncodedRow.usub16
  | ssub16 => apply EncodedRow.ssub16
  | uqaddsubx => apply EncodedRow.uqaddsubx
  | qaddsubx => apply EncodedRow.qaddsubx
  | uaddsubx => apply EncodedRow.uaddsubx
  | saddsubx => apply EncodedRow.saddsubx
  | uqsubaddx => apply EncodedRow.uqsubaddx
  | qsubaddx => apply EncodedRow.qsubaddx
  | usubaddx => apply EncodedRow.usubaddx
  | ssubaddx => apply EncodedRow.ssubaddx
  | uhsub8 => apply EncodedRow.uhsub8
  | smuad => apply EncodedRow.smuad
  | smusd => apply EncodedRow.smusd
  | smlad => apply EncodedRow.smlad
  | smlsd => apply EncodedRow.smlsd
  | smlald => apply EncodedRow.smlald
  | smlsld => apply EncodedRow.smlsld
  | uxtb => apply EncodedRow.uxtb
  | sxtb16 => apply EncodedRow.sxtb16
  | ssat => apply EncodedRow.ssat
  | sel => apply EncodedRow.sel
  | usad8 => apply EncodedRow.usad8
  | smi => apply EncodedRow.smi
  | bxj => apply EncodedRow.bxj
  | ldrPost => apply EncodedRow.ldrPost
  | subsImm => apply EncodedRow.subsImm
  | b => apply EncodedRow.b
  | msrCpsrF => apply EncodedRow.msrCpsrF

/-- The four bytes of a word, lowest address first, are put together to that word (R62). -/
theorem wordOfBytes_bytes (w : Word) :
    wordOfBytes (getField w 0 8) (getField w 8 8) (getField w 16 8) (getField w 24 8) = w := by
  refine Machine.word_ext_bytes fun k hk => ?_
  exact Machine.byteLane_packBytes (Machine.byteLane w) hk

/-- The decoder reads one word off the front of its bytes. -/
theorem decodeBytes_bytesOfWord {w : Word} {i : Instr} (rest : List Byte) (h : decodeWord w = .ok i) :
    decodeBytes (bytesOfWord w ++ rest) = .ok (i, rest) := by
  simp only [bytesOfWord, List.cons_append, List.nil_append, decodeBytes, wordOfBytes_bytes, h]

/-- Settles O1: an instruction's row is in the table, the tables are unambiguous, and the four bytes make up the word again. -/
theorem decodeOfEncodeIsTheInstruction : Obligations.DecodeOfEncodeIsTheInstruction :=
  fun i rest hwf => decodeBytes_bytesOfWord rest (decodeWord_encode (encodedRow i) hwf)

/-! ## Bits taken over from a word -/

/-- `v` with the bits under `m` taken from `w`: what writing fields of `w` into `v` comes to. -/
def takeBits (m v w : Word) : Word := (v &&& ~~~m) ||| (w &&& m)

/-- The `n` bits from `lo` up. -/
def fieldMask (lo n : Nat) : Word := (BitVec.allOnes n).setWidth 32 <<< lo

theorem getLsbD_fieldMask (lo n i : Nat) (hi : i < 32) :
    (fieldMask lo n).getLsbD i = decide (lo ≤ i ∧ i < lo + n) := by
  simp only [fieldMask, BitVec.getLsbD_shiftLeft, BitVec.getLsbD_setWidth, BitVec.getLsbD_allOnes, hi, decide_true]
  grind

@[simp] theorem putField_getField (v w : Word) (lo n : Nat) (h : lo + n ≤ 32) :
    putField v lo (getField w lo n) = takeBits (fieldMask lo n) v w := by
  apply BitVec.eq_of_getLsbD_eq
  intro i hi
  rw [getLsbD_putField v lo _ h]
  simp only [takeBits, BitVec.getLsbD_or, BitVec.getLsbD_and, BitVec.getLsbD_not, hi, getLsbD_fieldMask lo n i hi]
  by_cases hin : lo ≤ i ∧ i < lo + n
  · have hlt : i - lo < n := by omega
    have hplace : lo + (i - lo) = i := by omega
    simp [hin, getField, hlt, hplace]
  · simp [hin]

@[simp] theorem putReg_getReg (v w : Word) (lo : Nat) (h : lo + 4 ≤ 32) :
    putReg v lo (getReg w lo) = takeBits (fieldMask lo 4) v w := putField_getField v w lo 4 h

@[simp] theorem putBit_getBit (v w : Word) (k : Nat) (h : k < 32) :
    putBit v k (getBit w k) = takeBits (fieldMask k 1) v w := by
  have hbit : BitVec.ofBool (getBit w k) = getField w k 1 := by
    apply BitVec.eq_of_getLsbD_eq
    intro i hi
    obtain rfl : i = 0 := by omega
    simp [getBit, getField]
  rw [putBit, hbit, putField_getField v w k 1 h]

@[simp] theorem takeBits_takeBits (m m' v w : Word) : takeBits m' (takeBits m v w) w = takeBits (m ||| m') v w := by
  apply BitVec.eq_of_getLsbD_eq
  intro i hi
  simp only [takeBits, BitVec.getLsbD_or, BitVec.getLsbD_and, BitVec.getLsbD_not, hi]
  cases m.getLsbD i <;> cases m'.getLsbD i <;> simp

/-- A word is restored when its constant bits are the row's and every other bit is taken over from it. -/
theorem takeBits_eq_self {m v w mask value : Word} (hfits : w &&& mask = value) (hcover : ~~~m &&& ~~~mask = 0#32)
    (hconst : v &&& ~~~m = value &&& ~~~m) : takeBits m v w = w := by
  apply BitVec.eq_of_getLsbD_eq
  intro i hi
  have hfit := congrArg (·.getLsbD i) hfits
  have hcov := congrArg (·.getLsbD i) hcover
  have hcon := congrArg (·.getLsbD i) hconst
  simp only [takeBits, BitVec.getLsbD_and, BitVec.getLsbD_or, BitVec.getLsbD_not, hi, decide_true, Bool.true_and,
    BitVec.getLsbD_zero] at hfit hcov hcon ⊢
  cases hm : m.getLsbD i with
  | true => simp
  | false =>
    have hk : mask.getLsbD i = true := by simpa [hm] using hcov
    simp only [hm, hk, Bool.and_true, Bool.not_false, Bool.and_false, Bool.or_false] at hfit hcon ⊢
    exact hcon.trans hfit.symm

/-! ## Codes of the operand forms, decoded and encoded again -/

theorem Cond.bits_of_ofBits {b : BitVec 4} {c : Cond} (h : Cond.ofBits b = some c) : c.bits = b := by
  revert b; cases c <;> decide

@[simp] theorem HalfSel.bit_ofBit (b : Bool) : (HalfSel.ofBit b).bit = b := by cases b <;> rfl
@[simp] theorem Rotation.bits_ofBits (b : BitVec 2) : (Rotation.ofBits b).bits = b := by revert b; decide
@[simp] theorem AddrMode.bits_ofBits (b : BitVec 2) : (AddrMode.ofBits b).bits = b := by revert b; decide

theorem asrAmount_bounds (f : BitVec 5) : 1 ≤ asrAmount f ∧ asrAmount f ≤ 32 := by revert f; decide
@[simp] theorem asrField_asrAmount (f : BitVec 5) : asrField (asrAmount f) = f := by revert f; decide

@[simp] theorem SatShift.bits_ofBits (f : BitVec 5) (sh : Bool) : (SatShift.ofBits f sh).bits = (f, sh) := by
  cases sh <;> simp [SatShift.ofBits, SatShift.bits]

theorem SatShift.wf_ofBits (f : BitVec 5) (sh : Bool) : (SatShift.ofBits f sh).wf = true := by revert f sh; decide

/-- The halves of an immediate of 16 bits that was read in two parts. -/
@[simp] theorem extract_high_append (x : BitVec 12) (y : BitVec 4) : (x ++ y : BitVec 16).extractLsb' 4 12 = x := by
  simp (disch := decide) only [BitVec.extractLsb'_append_eq_of_le, Nat.reduceSub, BitVec.extractLsb'_eq_self]
@[simp] theorem extract_low_append (x : BitVec 12) (y : BitVec 4) : (x ++ y : BitVec 16).extractLsb' 0 4 = y := by
  simp (disch := decide) only [BitVec.extractLsb'_append_eq_of_add_le, BitVec.extractLsb'_eq_self]


/-! ## Rows that drop no bit -/

/-- Where the row fits the word and reads an instruction from it, the instruction is well-formed and its encoding is the word. -/
def LosslessAt (r : DecodeRow) (c : Cond) (w : Word) : Prop :=
  ∀ i, r.fits w = true → r.read c w = .ok i → i.wf = true ∧ encode i = w

theorem losslessAt_of_error {r : DecodeRow} {c : Cond} {w : Word} {e : DecodeError} (h : r.read c w = .error e) :
    LosslessAt r c w := fun i _ hread => by rw [h] at hread; exact nomatch hread

/-- A row is lossless at the words that it fits if what it reads there encodes to them. -/
theorem losslessAt_of_read {r : DecodeRow} {c : Cond} {w : Word} {i : Instr} (hread : r.read c w = .ok i) (hwf : i.wf = true)
    (h : w &&& r.mask = r.value → encode i = w) : LosslessAt r c w := fun j hfits hj => by
  rw [hread] at hj
  cases hj
  exact ⟨hwf, h (by simpa [DecodeRow.fits] using hfits)⟩

/-- CPS's fields are those of the instruction read: the mask bits, M and the mode. -/
theorem readCps_ok {w : Word} {i : Instr} (h : readCps w = .ok i) :
    ∃ (change : MaskChange) (mode : Option (BitVec 5)), i = .cps change mode ∧ i.wf = true ∧ mode.getD 0#5 = getField w 0 5
      ∧ mode.isSome = getBit w 17 ∧ change.bits.1 = getField w 18 2 ∧ change.bits.2 = getField w 6 3 := by
  have hmask : getField w 6 3 = BitVec.ofBool (getBit w 8) ++ BitVec.ofBool (getBit w 7) ++ BitVec.ofBool (getBit w 6) := by
    apply BitVec.eq_of_getLsbD_eq
    intro i hi
    simp only [getField, getBit, BitVec.getLsbD_append, BitVec.getLsbD_extractLsb', hi, BitVec.getLsbD_ofBool]
    interval_cases i <;> simp
  rw [hmask]
  unfold readCps at h
  dsimp only at h
  generalize getBit w 8 = bitA at *
  generalize getBit w 7 = bitI at *
  generalize getBit w 6 = bitF at *
  generalize getBit w 17 = m at *
  split at h
  · exact nomatch h
  · rename_i hnone
    have hmode : (if m then some (getField w 0 5) else none).getD 0#5 = getField w 0 5 := by
      cases m
      · have hzero : getField w 0 5 = 0#5 := by simpa using hnone
        exact hzero.symm
      · rfl
    have hsome : (if m then some (getField w 0 5) else none).isSome = m := by cases m <;> rfl
    split at h
    next himod =>
      split at h
      · rename_i hkeep
        cases h
        simp only [Bool.and_eq_true, Bool.not_eq_true'] at hkeep
        obtain ⟨⟨⟨rfl, rfl⟩, rfl⟩, rfl⟩ := hkeep
        exact ⟨.keep, _, rfl, rfl, hmode, hsome, himod.symm, rfl⟩
      · exact nomatch h
    next himod => cases h; exact ⟨.enable bitA bitI bitF, _, rfl, rfl, hmode, hsome, himod.symm, rfl⟩
    next himod => cases h; exact ⟨.disable bitA bitI bitF, _, rfl, rfl, hmode, hsome, himod.symm, rfl⟩
    · exact nomatch h

theorem losslessAt_cps (c : Cond) (w : Word) :
    LosslessAt ⟨0xFFF1FE20#32, 0xF1000000#32, fun _ w => readCps w⟩ c w := fun i hfits hread => by
  obtain ⟨change, mode, rfl, hwf, hmode, hM, himod, hbits⟩ := readCps_ok hread
  have hfits : w &&& 0xFFF1FE20#32 = 0xF1000000#32 := by simpa [DecodeRow.fits] using hfits
  refine ⟨hwf, ?_⟩
  simp (disch := decide) only [encode, hmode, hM, himod, hbits, putField_getField, putBit_getBit, takeBits_takeBits]
  exact takeBits_eq_self hfits (by decide) (by decide)

theorem losslessAt_unconditional (w : Word) : ∀ r ∈ unconditionalRows, LosslessAt r .al w := by
  simp only [unconditionalRows, List.forall_mem_cons, List.not_mem_nil, false_imp_iff, implies_true, and_true]
  refine ⟨?blx, ?pld, ?cdp2, ?mrc2, losslessAt_cps _ w, ?setend, ?srs, ?rfe, losslessAt_of_error rfl,
    losslessAt_of_error rfl, losslessAt_of_error rfl⟩
  case blx | pld | cdp2 | mrc2 | setend | srs | rfe =>
    refine losslessAt_of_read rfl rfl fun hfits => ?_
    simp (disch := decide) only [encode, putField_getField, putReg_getReg, putBit_getBit, takeBits_takeBits, AddrMode.bits_ofBits]
    exact takeBits_eq_self hfits (by decide) (by decide)

/-- With 1111 in the accumulate field a row's constant bits hold also with that field among them. -/
theorem and_or_accumulate {w mask value : Word} (h15 : getReg w 12 = 15) (hfits : w &&& mask = value) :
    w &&& (mask ||| 0x0000F000#32) = value ||| 0x0000F000#32 := by
  have hfield : w &&& 0x0000F000#32 = 0x0000F000#32 := by
    have hput : putReg 0#32 12 (getReg w 12) = takeBits (fieldMask 12 4) 0#32 w := putReg_getReg _ _ 12 (by decide)
    rw [h15, takeBits, BitVec.zero_and, BitVec.zero_or] at hput
    exact hput.symm
  rw [BitVec.and_or_distrib_left, hfits, hfield]

section
variable {c : Cond} {w : Word} (hc : c.bits = getField w 28 4)
include hc

theorem losslessAt_sourced : ∀ r ∈ sourcedRows, LosslessAt r c w := by
  simp only [sourcedRows, List.forall_mem_cons, List.not_mem_nil, false_imp_iff, implies_true, and_true]
  refine ⟨?bkpt, ?blxReg, ?bxj, ?clz, ?pkhbt, ?pkhtb⟩
  case bkpt | blxReg | bxj | clz =>
    refine losslessAt_of_read rfl rfl fun hfits => ?_
    simp (disch := decide) only [encode, encRdRm, hc, putField_getField, putReg_getReg, takeBits_takeBits, extract_high_append,
      extract_low_append]
    exact takeBits_eq_self hfits (by decide) (by decide)
  case pkhbt | pkhtb =>
    refine losslessAt_of_read rfl ?_ fun hfits => ?_
    · simp [Instr.wf, asrAmount_bounds, (getField w 7 5).isLt]
    · simp (disch := decide) only [encode, encRdRnRm, encRdRm, hc, putField_getField, putReg_getReg, takeBits_takeBits,
        asrField_asrAmount, BitVec.ofNat_toNat, BitVec.setWidth_eq]
      exact takeBits_eq_self hfits (by decide) (by decide)

theorem losslessAt_recalledBase : ∀ r ∈ recalledBaseRows, LosslessAt r c w := by
  simp only [recalledBaseRows, List.forall_mem_cons, List.not_mem_nil, false_imp_iff, implies_true, and_true]
  and_intros
  all_goals
    refine losslessAt_of_read rfl rfl fun hfits => ?_
    simp (disch := decide) only [encode, encRdRm, encRdRnRm, encRdRmRs, encRdRmRsRn, encLong, hc, putField_getField,
      putReg_getReg, putBit_getBit, takeBits_takeBits, HalfSel.bit_ofBit, extract_high_append, extract_low_append]
    exact takeBits_eq_self hfits (by decide) (by decide)

theorem losslessAt_readRdRnRm {k : Cond → Reg → Reg → Reg → Instr} {v : Word}
    (hk : ∀ rd rn rm, (k c rd rn rm).wf = true ∧ encode (k c rd rn rm) = encRdRnRm v c rd rn rm) :
    LosslessAt ⟨0x0FF00FF0#32, v, readRdRnRm k⟩ c w := by
  obtain ⟨hwf, hencode⟩ := hk (getReg w 12) (getReg w 16) (getReg w 0)
  refine losslessAt_of_read rfl hwf fun hfits => ?_
  rw [hencode]
  simp (disch := decide) only [encRdRnRm, encRdRm, hc, putField_getField, putReg_getReg, takeBits_takeBits]
  exact takeBits_eq_self (mask := 0x0FF00FF0#32) hfits (by decide) rfl

theorem losslessAt_recalledSimd : ∀ r ∈ recalledSimdRows, LosslessAt r c w := by
  simp only [recalledSimdRows, List.forall_mem_cons, List.not_mem_nil, false_imp_iff, implies_true, and_true]
  and_intros
  all_goals exact losslessAt_readRdRnRm hc fun _ _ _ => ⟨rfl, rfl⟩

/-- The forms of a dual multiply: with 1111 in the accumulate field that field is among the word's constant bits (G3). -/
theorem losslessAt_readDual {plain : Bool → Cond → Reg → Reg → Reg → Instr}
    {acc : Bool → Cond → Reg → Reg → Reg → Reg → Instr} {v : Word}
    (hplain : ∀ x rd rm rs, (plain x c rd rm rs).wf = true
      ∧ encode (plain x c rd rm rs) = putBit (encRdRmRs (v ||| 0x0000F000#32) c rd rm rs) 5 x)
    (hacc : ∀ x rd rm rs rn, (acc x c rd rm rs rn).wf = (rn != 15)
      ∧ encode (acc x c rd rm rs rn) = putBit (encRdRmRsRn v c rd rm rs rn) 5 x) :
    LosslessAt ⟨0x0FF000D0#32, v, readDual plain acc⟩ c w := by
  by_cases h15 : getReg w 12 = 15
  · obtain ⟨hwf, hencode⟩ := hplain (getBit w 5) (getReg w 16) (getReg w 0) (getReg w 8)
    refine losslessAt_of_read (if_pos h15) hwf fun hfits => ?_
    rw [hencode]
    simp (disch := decide) only [encRdRmRs, hc, putField_getField, putReg_getReg, putBit_getBit, takeBits_takeBits]
    exact takeBits_eq_self (and_or_accumulate (mask := 0x0FF000D0#32) h15 hfits) (by decide) rfl
  · obtain ⟨hwf, hencode⟩ := hacc (getBit w 5) (getReg w 16) (getReg w 0) (getReg w 8) (getReg w 12)
    refine losslessAt_of_read (if_neg h15) (hwf.trans (bne_iff_ne.mpr h15)) fun hfits => ?_
    rw [hencode]
    simp (disch := decide) only [encRdRmRsRn, encRdRmRs, hc, putField_getField, putReg_getReg, putBit_getBit, takeBits_takeBits]
    exact takeBits_eq_self (mask := 0x0FF000D0#32) hfits (by decide) rfl

theorem losslessAt_recalledDsp : ∀ r ∈ recalledDspRows, LosslessAt r c w := by
  simp only [recalledDspRows, List.forall_mem_cons, List.not_mem_nil, false_imp_iff, implies_true, and_true]
  refine ⟨?smuad, ?smusd, ?smlald, ?smlsld, ?uxtb, ?sxtb16, ?ssat, ?sel, ?usad8⟩
  case smuad | smusd => exact losslessAt_readDual hc (fun _ _ _ _ => ⟨rfl, rfl⟩) (fun _ _ _ _ _ => ⟨rfl, rfl⟩)
  case sel => exact losslessAt_readRdRnRm hc fun _ _ _ => ⟨rfl, rfl⟩
  case smlald | smlsld | uxtb | sxtb16 =>
    refine losslessAt_of_read rfl rfl fun hfits => ?_
    simp (disch := decide) only [encode, encRdRm, encRdRmRs, encRdRmRsRn, encLong, hc, putField_getField,
      putReg_getReg, putBit_getBit, takeBits_takeBits, Rotation.bits_ofBits]
    exact takeBits_eq_self hfits (by decide) (by decide)
  case ssat =>
    refine losslessAt_of_read rfl ?_ fun hfits => ?_
    · have hn := (getField w 16 5).isLt
      have hle : (getField w 16 5).toNat + 1 ≤ 32 := hn
      simp [Instr.wf, SatShift.wf_ofBits, hle]
    · simp (disch := decide) only [encode, encRdRm, hc, putField_getField, putReg_getReg, putBit_getBit, takeBits_takeBits,
        SatShift.bits_ofBits, Nat.add_sub_cancel, BitVec.ofNat_toNat, BitVec.setWidth_eq]
      exact takeBits_eq_self hfits (by decide) (by decide)
  case usad8 =>
    by_cases h15 : getReg w 12 = 15
    · refine losslessAt_of_read (if_pos h15) rfl fun hfits => ?_
      simp (disch := decide) only [encode, encRdRmRs, hc, putField_getField, putReg_getReg, takeBits_takeBits]
      exact takeBits_eq_self (and_or_accumulate (mask := 0x0FF000F0#32) h15 hfits) (by decide) rfl
    · exact losslessAt_of_error (if_neg h15)

theorem losslessAt_conditional : ∀ r ∈ conditionalRows, LosslessAt r c w := by
  intro r hr
  simp only [conditionalRows, List.mem_append] at hr
  obtain (((hr | hr) | hr) | hr) | hr := hr
  · exact losslessAt_sourced hc r hr
  · exact losslessAt_recalledBase hc r hr
  · exact losslessAt_recalledSimd hc r hr
  · obtain ⟨v, -, rfl⟩ := List.mem_map.mp hr
    exact losslessAt_of_error rfl
  · exact losslessAt_recalledDsp hc r hr

end

theorem losslessAt_rowsFor (w : Word) : ∀ r ∈ (rowsFor w).2, LosslessAt r (rowsFor w).1 w := by
  unfold rowsFor
  cases hcond : Cond.ofBits (getField w 28 4) with
  | none => exact losslessAt_unconditional w
  | some c => exact losslessAt_conditional (Cond.bits_of_ofBits hcond)

/-- What decodes is what some fitting row of the word's table reads. -/
theorem decodeWord_ok {w : Word} {i : Instr} (h : decodeWord w = .ok i) :
    ∃ r ∈ (rowsFor w).2, r.fits w = true ∧ r.read (rowsFor w).1 w = .ok i := by
  rw [decodeWord_eq_lookup, lookup] at h
  split at h
  · rename_i r hfind
    exact ⟨r, List.mem_of_find?_eq_some hfind, by simpa using List.find?_some hfind, h⟩
  · exact nomatch h

/-- Settles O2: whichever row reads the instruction, its constant bits and the fields it reads make up the word. -/
theorem encodeOfDecodeIsTheWord : Obligations.EncodeOfDecodeIsTheWord := by
  intro w i h
  obtain ⟨r, hr, hfits, hread⟩ := decodeWord_ok h
  exact losslessAt_rowsFor w r hr i hfits hread

/-! ## Words without a rule -/

theorem rowsFor_of_cond {w : Word} {c : Cond} (h : Cond.ofBits (getField w 28 4) = some c) :
    rowsFor w = (c, conditionalRows) := by simp [rowsFor, h]

theorem rowsFor_of_none {w : Word} (h : Cond.ofBits (getField w 28 4) = none) : rowsFor w = (.al, unconditionalRows) := by
  simp [rowsFor, h]

/-- The tables being unambiguous, any row of the word's table that fits it is the row that is read. -/
theorem decodeWord_of_fits {w : Word} {r : DecodeRow} (hr : r ∈ (rowsFor w).2) (hfits : w &&& r.mask = r.value) :
    decodeWord w = r.read (rowsFor w).1 w := by
  obtain ⟨k, hk⟩ := List.mem_iff_getElem?.mp hr
  rw [decodeWord_eq_lookup, lookup_of_fits (rowsFor_differ w) hk (by simpa [DecodeRow.fits] using hfits)]

/-- A field whose bits are all constant in a row is read off the row's value. -/
theorem getField_of_fits {w mask value : Word} {lo n : Nat} (hfits : w &&& mask = value)
    (hmask : getField mask lo n = BitVec.allOnes n) : getField w lo n = getField value lo n := by
  rw [← hfits, getField, getField, BitVec.extractLsb'_and, show mask.extractLsb' lo n = BitVec.allOnes n from hmask,
    BitVec.and_allOnes]

theorem cond_eq_none_of_fits {w mask value : Word} (hfits : w &&& mask = value)
    (hmask : getField mask 28 4 = BitVec.allOnes 4) (hvalue : getField value 28 4 = 0b1111#4) :
    Cond.ofBits (getField w 28 4) = none := by
  rw [getField_of_fits hfits hmask, hvalue]
  rfl

theorem and_fieldMask_bit (w : Word) {k : Nat} (hk : k < 32) : w &&& fieldMask k 1 = putBit 0#32 k (getBit w k) := by
  rw [putBit_getBit _ _ _ hk, takeBits, BitVec.zero_and, BitVec.zero_or]

/-- The words of the unnamed halving forms fit their rows, whatever the registers (R219). -/
theorem encRdRnRm_fits_halving (c : Cond) (rd rn rm : Reg) {v : Word} (hv : v &&& 0x0FF00FF0#32 = v) :
    encRdRnRm v c rd rn rm &&& 0x0FF00FF0#32 = v := by
  simp (disch := decide) only [encRdRnRm, encRdRm, putReg_and_mask, putField_and_mask, hv]

theorem decodeWord_halving (c : Cond) (rd rn rm : Reg) {v : Word}
    (hr : (⟨0x0FF00FF0#32, v, fun _ _ => .error .notNamedBySource⟩ : DecodeRow) ∈ unnamedHalvingRows)
    (hv : v &&& 0x0FF00FF0#32 = v) : decodeWord (encRdRnRm v c rd rn rm) = .error .notNamedBySource := by
  have hcond : Cond.ofBits (getField (encRdRnRm v c rd rn rm) 28 4) = some c := by
    simp (disch := decide) only [encRdRnRm, encRdRm, getField_putReg_other, getField_putField_same, Cond.ofBits_bits]
  have htable : (⟨0x0FF00FF0#32, v, fun _ _ => .error .notNamedBySource⟩ : DecodeRow)
      ∈ (rowsFor (encRdRnRm v c rd rn rm)).2 := by
    rw [rowsFor_of_cond hcond]
    exact List.mem_append_left _ (List.mem_append_right _ hr)
  exact decodeWord_of_fits htable (encRdRnRm_fits_halving c rd rn rm hv)

/-- MCR2's word has bit 4 set where CDP2's is clear; LDC2's and STC2's share all constant bits but bit 20 (G3). -/
theorem decodeWord_coprocessor {w : Word}
    (h : w &&& 0xFE000000#32 = 0xFC000000#32 ∨ w &&& 0xFF100010#32 = 0xFE000010#32) :
    decodeWord w = .error .coprocessorNotSpecified := by
  have hrow {r : DecodeRow} (hcond : Cond.ofBits (getField w 28 4) = none) (hr : r ∈ unconditionalRows)
      (hfits : w &&& r.mask = r.value) : decodeWord w = r.read .al w := by
    have hrows := rowsFor_of_none hcond
    rw [decodeWord_of_fits (by rwa [hrows]) hfits, hrows]
  rcases h with h | h
  · have hcond := cond_eq_none_of_fits h (by decide) (by decide)
    have hsplit : w &&& 0xFE100000#32 = 0xFC000000#32 ||| putBit 0#32 20 (getBit w 20) := by
      rw [← h, ← and_fieldMask_bit w (by decide), ← BitVec.and_or_distrib_left]
      rfl
    cases hL : getBit w 20 with
    | true =>
      rw [hL] at hsplit
      exact hrow (r := ⟨0xFE100000#32, 0xFC100000#32, fun _ _ => .error .coprocessorNotSpecified⟩) hcond
        (List.mem_of_getElem? (i := 9) rfl) hsplit
    | false =>
      rw [hL] at hsplit
      exact hrow (r := ⟨0xFE100000#32, 0xFC000000#32, fun _ _ => .error .coprocessorNotSpecified⟩) hcond
        (List.mem_of_getElem? (i := 10) rfl) hsplit
  · exact hrow (r := ⟨0xFF100010#32, 0xFE000010#32, fun _ _ => .error .coprocessorNotSpecified⟩)
      (cond_eq_none_of_fits h (by decide) (by decide)) (List.mem_of_getElem? (i := 8) rfl) h

/-- CPS's reader refuses under one name. -/
theorem readCps_error {w : Word} {e : DecodeError} (h : readCps w = .error e) : e = .reservedCpsForm := by
  unfold readCps at h
  dsimp only at h
  split at h
  · exact (Except.error.inj h).symm
  · split at h
    · split at h
      · exact nomatch h
      · exact (Except.error.inj h).symm
    · exact nomatch h
    · exact nomatch h
    · exact (Except.error.inj h).symm

/-- A mode number without M, the code 01, and the code 00 without a mode or with mask bits named are none of CPS's forms (R141). -/
theorem readCps_of_no_form {w : Word} (h : (getBit w 17 = false ∧ getField w 0 5 ≠ 0#5) ∨ getField w 18 2 = 0b01#2
    ∨ (getField w 18 2 = 0b00#2 ∧ (getBit w 17 = false ∨ getField w 6 3 ≠ 0#3))) :
    readCps w = .error .reservedCpsForm := by
  cases hread : readCps w with
  | error e => rw [readCps_error hread]
  | ok i =>
    exfalso
    obtain ⟨change, mode, rfl, hwf, hmode, hM, himod, hmask⟩ := readCps_ok hread
    rw [← hmode, ← hM, ← himod, ← hmask] at h
    rcases h with ⟨hnone, hne⟩ | hcode | ⟨hcode, h⟩
    · cases mode with
      | none => exact hne rfl
      | some n => exact nomatch hnone
    · cases change <;> exact absurd hcode (by simp [MaskChange.bits])
    · cases change with
      | keep =>
        rcases h with hnone | hne
        · exact Bool.false_ne_true (hnone.symm.trans hwf)
        · exact hne rfl
      | enable | disable => exact absurd hcode (by simp [MaskChange.bits])

/-- Settles O4: words that fit no row, by `lookup`; the words with a name of their own, by the row that each fits. -/
theorem wordsWithoutARuleAreRefused : Obligations.WordsWithoutARuleAreRefused := by
  refine ⟨fun w c hcond hrows => ?conditional, fun w hcond hrows => ?unconditional, fun c rd rn rm v hv => ?halving,
    fun w h => decodeWord_coprocessor h, fun w c hcond hfits hacc => ?usada8, fun w hfits hform => ?cps⟩
  case conditional => exact decodeWord_of_no_row (by rwa [rowsFor_of_cond hcond])
  case unconditional => exact decodeWord_of_no_row (by rwa [rowsFor_of_none hcond])
  case halving =>
    refine decodeWord_halving c rd rn rm (List.mem_map_of_mem hv) ?_
    fin_cases hv <;> rfl
  case usada8 =>
    have hrows := rowsFor_of_cond hcond
    have hreg : getReg w 12 ≠ 15 := fun h => hacc (congrArg BitVec.ofFin h)
    rw [decodeWord_of_fits (by rw [hrows]; exact List.mem_of_getElem? (i := 70) rfl) hfits]
    exact if_neg hreg
  case cps =>
    have hrows := rowsFor_of_none (cond_eq_none_of_fits hfits (by decide) (by decide))
    rw [decodeWord_of_fits (by rw [hrows]; exact List.mem_of_getElem? (i := 4) rfl) hfits]
    exact readCps_of_no_form hform

end Sys2Proof.Laws
end

section
/-! PROOFS. What a step can do (spec/10_state.md sections 2 and 3, spec/20_memory.md section 5, spec/60_exceptions.md sections 1 and
3): every next state of an instruction is an exception entry, the following instruction or a branch, with a frame that all
instructions share; the whole-machine rules follow from it. -/

namespace Sys2Proof.Machine

/-! ## Results whose next state has a property -/

/-- Where the result is a next state, that state has the property `P`. -/
def NextMeets (P : State → Prop) (r : Result) : Prop := ∀ t, r = .next t → P t

section
variable {P : State → Prop} {s : State} {body : Result}

theorem nextMeets_next {t : State} (h : P t) : NextMeets P (.next t) := fun _ ht => Host.Outcome.next.inj ht ▸ h

theorem nextMeets_refused (r : Refusal) : NextMeets P (.refused r) := fun _ ht => nomatch ht

theorem NextMeets.atLevel {need : Arch} (h : NextMeets P body) : NextMeets P (atLevel need s body) := fun t ht => by
  obtain ⟨-, hbody⟩ := atLevel_next ht
  exact h t hbody

theorem NextMeets.conditional {c : Cond} (h : NextMeets P body) (hs : NextMeets P s.advance) :
    NextMeets P (conditional c s body) := fun t ht => by
  rcases conditional_next ht with ⟨-, hbody⟩ | ⟨-, hadvance⟩
  · exact h t hbody
  · exact hs t hadvance

theorem nextMeets_withoutR15 {rs : List Reg} (h : (15 : Reg) ∉ rs → NextMeets P body) : NextMeets P (withoutR15 rs body) :=
  fun t ht => by
    obtain ⟨hr15, hbody⟩ := withoutR15_next ht
    exact h (by simpa using hr15) t hbody

theorem NextMeets.refuseIf {bad : Bool} (h : NextMeets P body) : NextMeets P (refuseIf bad body) := fun t ht => by
  obtain ⟨-, hbody⟩ := refuseIf_next ht
  exact h t hbody

theorem nextMeets_andThen {α : Type} {a : Access α} {k : α → Result} (hk : ∀ v, a = .ok v → NextMeets P (k v))
    (habort : P (takeException .dataAbort s)) : NextMeets P (a.andThen s k) := fun t ht => by
  rcases andThen_next ht with ⟨v, hv, hbody⟩ | ⟨-, rfl⟩
  · exact hk v hv t hbody
  · exact habort

end

/-! ## The frame that every instruction keeps -/

/-- What no instruction changes before it goes on or branches, exception entry aside. The environment may act inside an unaligned
load, so memory, the reservation and the pending abort are not simply as before. -/
structure Keeps (s u : State) : Prop where
  pc : u.pc = s.pc
  spsr : u.spsr = s.spsr
  ns : u.ns = s.ns
  params : u.params = s.params
  /-- User mode writes no register banked for another mode. -/
  bank : s.privileged = false → ∀ p, ¬ Claims.userBank p → u.phys p = s.phys p
  memory : memoryWf s.mem → memoryWf u.mem
  /-- A non-secure processor writes no secure byte. -/
  secure : s.nonSecure = true → s.torn = [] → ∀ a, inRegions s.params.secureRegions a = true →
    readByte u.mem a = readByte s.mem a
  reservation : reservationAligned s = true → reservationAligned u = true
  abortPending : s.abortPending = true → u.abortPending = true

theorem keeps_refl (s : State) : Keeps s s := ⟨rfl, rfl, rfl, rfl, fun _ _ _ => rfl, id, fun _ _ _ _ => rfl, id, id⟩

theorem Keeps.setCpsr {s u : State} (h : Keeps s u) (w : Word) : Keeps s (u.setCpsr w) :=
  ⟨h.pc, h.spsr, h.ns, h.params, h.bank, h.memory, h.secure, h.reservation, h.abortPending⟩

theorem Keeps.setReservation {s u : State} (h : Keeps s u) {r : Option Word}
    (hr : reservationAligned { u with reservation := r } = true) : Keeps s { u with reservation := r } :=
  ⟨h.pc, h.spsr, h.ns, h.params, h.bank, h.memory, h.secure, fun _ => hr, h.abortPending⟩

/-- User mode is the only unprivileged one (R308). -/
theorem mode_of_not_privileged {s : State} (h : s.privileged = false) : s.mode = .user := by
  have hbits : psrMode s.cpsr = Mode.user.bits := by simpa [State.privileged] using h
  rw [State.mode, hbits, ofBits_bits, Option.getD_some]

theorem userBank_of_bankedReg_user {r : Reg} {p : PhysReg} (h : bankedReg .user r = some p) : Claims.userBank p := by
  have hall : ∀ r : Reg, (bankedReg .user r).all (fun p => p.index.val < 15) = true := by decide
  have hplace : p.index.val < 15 := by simpa [h] using hall r
  exact hplace

theorem Keeps.setReg {s u : State} (h : Keeps s u) (hcpsr : u.cpsr = s.cpsr) {r : Reg} (v : Word) (hr : r ≠ 15) :
    Keeps s (u.setReg r v) := by
  constructor
  case pc => rw [setReg_pc u r v hr, h.pc]
  case bank =>
    intro huser p hp
    have hmode : u.mode = .user := by rw [State.mode, hcpsr]; exact mode_of_not_privileged huser
    rw [phys_setReg, hmode, if_neg fun hbank => hp (userBank_of_bankedReg_user hbank), h.bank huser p hp]
  case reservation =>
    intro hs
    have := h.reservation hs
    simpa [reservationAligned] using this
  all_goals simp only [setReg_spsr, setReg_ns, setReg_params, setReg_mem, setReg_abortPending]
  case spsr => exact h.spsr
  case ns => exact h.ns
  case params => exact h.params
  case memory => exact h.memory
  case secure => exact h.secure
  case abortPending => exact h.abortPending

/-- A privileged instruction may write any bank. -/
theorem Keeps.setPhys {s u : State} (h : Keeps s u) (p : PhysReg) (v : Word) (hpriv : s.privileged = true) :
    Keeps s (u.setPhys p v) :=
  ⟨h.pc, h.spsr, h.ns, h.params, fun huser => (Bool.false_ne_true (huser.symm.trans hpriv)).elim, h.memory, h.secure,
    h.reservation, h.abortPending⟩

theorem nonSecure_congr {s u : State} (hparams : u.params = s.params) (hns : u.ns = s.ns) (hcpsr : u.cpsr = s.cpsr) :
    u.nonSecure = s.nonSecure := by simp only [State.nonSecure, hparams, hns, hcpsr]

/-- A byte of a range lies in the regions only if the range does. -/
theorem outside_of_rangeInRegions_false {rs : List Region} {a n x : Nat} (h : rangeInRegions rs a n = false)
    (hx : inRegions rs x = true) : x < a ∨ a + n ≤ x := by
  by_contra hin
  have hlt : x - a < n := by omega
  have hplace : a + (x - a) = x := by omega
  rw [rangeInRegions, List.any_eq_false] at h
  exact h (x - a) (List.mem_range.mpr hlt) (by rwa [hplace])

/-- A completed store by a non-secure processor is of bytes that are not secure (R70). -/
theorem Keeps.storeAligned {s u t : State} (h : Keeps s u) (hcpsr : u.cpsr = s.cpsr) {a v : Word}
    (hstore : storeAligned u a v = .ok t) : Keeps s t := by
  obtain ⟨-, hwrite⟩ := storeAligned_ok hstore
  have hwf := memWrite_wf hwrite
  have houtside := memWrite_outside hwrite
  obtain ⟨-, hpermitted, -, rfl⟩ := memWrite_ok hwrite
  refine ⟨h.pc, h.spsr, h.ns, h.params, h.bank, fun hs => hwf (h.memory hs), ?secure, h.reservation, h.abortPending⟩
  case secure =>
    intro hns htorn x hx
    rw [State.secureViolation, nonSecure_congr h.params h.ns hcpsr, hns, Bool.true_and, h.params] at hpermitted
    rw [houtside x (outside_of_rangeInRegions_false hpermitted hx), h.secure hns htorn x hx]

theorem abortPending_envActs (es : List EnvAction) {s : State} (h : s.abortPending = true) :
    (es.foldl envAct s).abortPending = true := by
  induction es generalizing s with
  | nil => exact h
  | cons e es ih =>
    refine ih ?_
    cases e with
    | impreciseAbort => rfl
    | writeByte | clearReservation | setIrq | setFiq => exact h

/-- An ordinary load changes only what the environment does inside it. -/
theorem keeps_loadWord {s t : State} {a v : Word} (h : loadWord s a = .ok (v, t)) : Keeps s t := by
  obtain ⟨hregs, hpc, -, hspsr, hns, hparams, -, hmem, hres⟩ := loadWord_frame h
  refine ⟨hpc, hspsr, hns, hparams, fun _ p _ => phys_congr hregs p, hmem, ?secure, ?reservation, ?abortPending⟩
  case reservation =>
    intro hs
    rcases hres with hres | hres <;> simp_all [reservationAligned]
  all_goals rcases loadWord_ok h with ⟨-, -, rfl⟩ | ⟨-, -, h⟩
  case secure.inl => exact fun _ _ _ _ => rfl
  case abortPending.inl => exact id
  all_goals obtain ⟨-, -, rfl, -⟩ := unalignedRead_ok h
  case secure.inr => intro _ htorn x _; simp [htorn, afterAccess]
  case abortPending.inr =>
    intro hs
    obtain ⟨acts, hacts⟩ := afterAccess_eq_foldl s (s.torn.headD [])
    exact (congrArg State.abortPending hacts).trans (abortPending_envActs acts hs)

/-! ## The status register after an instruction -/

/-- The status bits that user mode keeps: the mode, F, I and A, and those that no field names (R38, R309). -/
def privilegedBits : List Nat := [0, 1, 2, 3, 4, 6, 7, 8, 10, 11, 12, 13, 14, 15, 20, 21, 22, 23, 25, 26]

/-- A status word that instruction `i` may leave in `s` when it takes no exception. -/
structure MayLeave (i : Instr) (s : State) (w : Word) : Prop where
  status : ∀ k, k ∉ Claims.statusWrites s.params i → w.getLsbD k = s.cpsr.getLsbD k
  mode : (Mode.ofBits (psrMode s.cpsr)).isSome = true → (Mode.ofBits (psrMode w)).isSome = true
  user : s.privileged = false → ∀ k ∈ privilegedBits, w.getLsbD k = s.cpsr.getLsbD k

section
variable {i : Instr} {s : State} {w : Word}

theorem mayLeave_self : MayLeave i s s.cpsr := ⟨fun _ _ => rfl, id, fun _ _ _ => rfl⟩

/-- An instruction whose writable bits are none of the privileged ones keeps the mode. -/
theorem mayLeave_of_bits {bits : List Nat} (hi : Claims.statusWrites s.params i = bits)
    (hbits : ∀ k ∈ bits, k ∉ privilegedBits)
    (h : ∀ k, k ∉ bits → w.getLsbD k = s.cpsr.getLsbD k) : MayLeave i s w := by
  have huser : ∀ k ∈ privilegedBits, w.getLsbD k = s.cpsr.getLsbD k := fun k hk => h k fun hb => hbits k hb hk
  refine ⟨fun k hk => h k (hi ▸ hk), fun hs => ?_, fun _ => huser⟩
  rw [psrMode_of_same (w := s.cpsr) fun k hk => huser k (by interval_cases k <;> decide)]
  exact hs

theorem mayLeave_psrSetT (hi : 5 ∈ Claims.statusWrites s.params i) (thumb : Bool) : MayLeave i s (psrSetT s.cpsr thumb) := by
  refine ⟨fun k hk => ?status, fun hs => by rwa [psrMode_psrSetT], fun _ k hk => ?user⟩
  all_goals refine (getLsbD_psrSetT ..).trans (if_neg ?_)
  case status => rintro rfl; exact hk hi
  case user => rintro rfl; revert hk; decide

theorem mayLeave_psrOrQ {q : Bool} (hq : q = true → Claims.statusWrites s.params i = [27]) :
    MayLeave i s (psrOrQ s.cpsr q) := by
  cases q with
  | false => exact mayLeave_self
  | true =>
    refine mayLeave_of_bits (hq rfl) (by decide) fun k hk => ?_
    exact (getLsbD_psrOrQ ..).trans (if_neg (by simpa using hk))

end

/-- The bits that MSR writes: 31 to 27, and in a privileged mode 26 and 25 (R283, R309). -/
theorem getLsbD_msrMask (privileged : Bool) (k : Nat) :
    (msrMask privileged).getLsbD k = ((27 ≤ k && k < 32) || (privileged && (k == 25 || k == 26))) := by
  by_cases hk : k < 32
  · revert k privileged; decide
  · have hge : 32 ≤ k := by omega
    rw [BitVec.getLsbD_of_ge _ _ hge]
    have h25 : k ≠ 25 := by omega
    have h26 : k ≠ 26 := by omega
    simp [hk, h25, h26]

theorem getLsbD_ite_putBit (b : Bool) (w : Word) (j : Nat) (v : Bool) (k : Nat) (hj : j < 32) :
    (if b then putBit w j v else w).getLsbD k = if k = j then (if b then v else w.getLsbD j) else w.getLsbD k := by
  cases b
  · by_cases hk : k = j <;> simp [hk]
  · exact getLsbD_putBit w j v k hj

/-- Every bit of the status register after CPS's mask change (R141). -/
theorem getLsbD_maskedPsr_eq (change : MaskChange) (w : Word) (k : Nat) :
    (maskedPsr change w).getLsbD k =
      if k = 6 then Claims.maskAfter change (fun _ _ f => f) (w.getLsbD 6)
      else if k = 7 then Claims.maskAfter change (fun _ i _ => i) (w.getLsbD 7)
      else if k = 8 then Claims.maskAfter change (fun a _ _ => a) (w.getLsbD 8)
      else w.getLsbD k := by
  cases change with
  | keep =>
    simp only [maskedPsr, Claims.maskAfter]
    split_ifs with h6 h7 h8 <;> simp only [*]
  | enable a i f | disable a i f =>
    simp (disch := decide) only [maskedPsr, maskedPsr.clearNamed, maskedPsr.setNamed, Claims.maskAfter, psrSetA, psrSetI,
      psrSetF, getLsbD_ite_putBit, Nat.reduceEqDiff, if_false]

/-! ## Every next state of an instruction -/

/-- The branches: what they answer is no sequential address (R23). -/
def branches : Instr → Prop
  | .blxReg .. | .blxLabel .. | .b .. | .bxj .. | .rfe .. => True
  | _ => False

/-- The next states of instruction `i` in `s`: the entry of an exception that R301 lists for it, the following instruction where
there is one, or a branch, which in ARM state is to a multiple of 4. -/
inductive Reaches (i : Instr) (s : State) : State → Prop
  | exception {e : Exception} (he : e ∈ Claims.raises i) : Reaches i s (takeException e s)
  | sequential {u : State} (hu : Keeps s u) (hw : MayLeave i s u.cpsr) (hroom : s.pc.toNat + 4 < 2 ^ 32) :
    Reaches i s { u with pc := s.pc + 4#32 }
  | branch {u : State} {target : Word} (hi : branches i) (hu : Keeps s u) (hw : MayLeave i s u.cpsr)
    (htarget : u.armState = true → wordAligned s.pc = true → wordAligned target = true) : Reaches i s { u with pc := target }

section
variable {i : Instr} {s : State}

theorem reaches_advance {u : State} (hu : Keeps s u) (hw : MayLeave i s u.cpsr) : NextMeets (Reaches i s) u.advance :=
  fun t ht => by
    obtain ⟨hroom, rfl⟩ := advance_next ht
    rw [hu.pc] at hroom ⊢
    exact .sequential hu hw hroom

/-- An instruction that only goes on, as one whose condition fails. -/
theorem reaches_advance_self : NextMeets (Reaches i s) s.advance := reaches_advance (keeps_refl s) mayLeave_self

theorem reaches_jump {u : State} {target : Word} (hi : branches i) (hu : Keeps s u) (hw : MayLeave i s u.cpsr) :
    NextMeets (Reaches i s) (u.jump target) := fun t ht => by
  obtain ⟨htarget, rfl⟩ := jump_next ht
  exact .branch hi hu hw fun harm _ => htarget (psrT_of_armState harm)

theorem reaches_exchange {u : State} {target : Word} (hi : branches i) (hT : 5 ∈ Claims.statusWrites s.params i)
    (hu : Keeps s u) (hcpsr : u.cpsr = s.cpsr) : NextMeets (Reaches i s) (u.exchange target) :=
  reaches_jump hi (hu.setCpsr _) (by rw [setCpsr_cpsr, hcpsr]; exact mayLeave_psrSetT hT _)

theorem reaches_andThen {α : Type} {a : Access α} {k : α → Result} (he : .dataAbort ∈ Claims.raises i)
    (hk : ∀ v, a = .ok v → NextMeets (Reaches i s) (k v)) : NextMeets (Reaches i s) (a.andThen s k) :=
  nextMeets_andThen hk (.exception he)

theorem reaches_registerStep {need : Arch} {c : Cond} {rs : List Reg} {u : State} (hu : (15 : Reg) ∉ rs → Keeps s u)
    (hw : MayLeave i s u.cpsr) : NextMeets (Reaches i s) (registerStep need c rs s u) :=
  ((nextMeets_withoutR15 fun hr15 => reaches_advance (hu hr15) hw).conditional reaches_advance_self).atLevel

theorem ne_fifteen_of_head {rd : Reg} {rs : List Reg} (h : (15 : Reg) ∉ rd :: rs) : rd ≠ 15 := fun hrd =>
  h (hrd ▸ List.mem_cons_self)

/-! The shapes that many instructions share -/

theorem reaches_registerStep_setReg {need : Arch} {c : Cond} {rd : Reg} {rs : List Reg} {v : Word} :
    NextMeets (Reaches i s) (registerStep need c (rd :: rs) s (s.setReg rd v)) :=
  reaches_registerStep (fun hr15 => (keeps_refl s).setReg rfl v (ne_fifteen_of_head hr15))
    (by rw [setReg_cpsr]; exact mayLeave_self)

theorem reaches_registerStep_setReg_setCpsr {need : Arch} {c : Cond} {rd : Reg} {rs : List Reg} {v w : Word}
    (hw : MayLeave i s w) : NextMeets (Reaches i s) (registerStep need c (rd :: rs) s ((s.setReg rd v).setCpsr w)) :=
  reaches_registerStep (fun hr15 => ((keeps_refl s).setReg rfl v (ne_fifteen_of_head hr15)).setCpsr w) hw

theorem reaches_writeWithQ {need : Arch} {c : Cond} {rd : Reg} {rs : List Reg} {v : Word} {q : Bool}
    (hi : Claims.statusWrites s.params i = [27]) :
    NextMeets (Reaches i s) (registerStep need c (rd :: rs) s (writeWithQ s rd v q)) :=
  reaches_registerStep_setReg_setCpsr (mayLeave_psrOrQ fun _ => hi)

theorem reaches_simdWrap {c : Cond} {rd rn rm : Reg} {f : Word → Word → Word × BitVec 4}
    (hi : Claims.statusWrites s.params i = [19, 18, 17, 16]) : NextMeets (Reaches i s) (simdWrap c rd rn rm s f) := by
  refine reaches_registerStep_setReg_setCpsr (mayLeave_of_bits hi (by decide) fun k hk => ?_)
  simp only [List.mem_cons, List.not_mem_nil, or_false, not_or] at hk
  exact (getLsbD_psrSetGE ..).trans (if_neg (by omega))

theorem reaches_simdSat {c : Cond} {rd rn rm : Reg} {f : Word → Word → Word × Bool}
    (hi : s.params.simdSatSetsQ = true → Claims.statusWrites s.params i = [27]) :
    NextMeets (Reaches i s) (simdSat c rd rn rm s f) :=
  reaches_registerStep_setReg_setCpsr (mayLeave_psrOrQ fun hq => hi ((Bool.and_eq_true _ _).mp hq).1)

theorem reaches_longStep {need : Arch} {c : Cond} {rdLo rdHi rm rs : Reg} {lo hi : Word} :
    NextMeets (Reaches i s) (longStep need c rdLo rdHi rm rs s ((s.setReg rdLo lo).setReg rdHi hi)) := by
  refine ((nextMeets_withoutR15 fun hr15 => (reaches_advance ?keeps ?word).refuseIf).conditional reaches_advance_self).atLevel
  case keeps =>
    have hlo : rdLo ≠ 15 := fun h => hr15 (by simp [h])
    have hhi : rdHi ≠ 15 := fun h => hr15 (by simp [h])
    exact ((keeps_refl s).setReg rfl lo hlo).setReg (setReg_cpsr ..) hi hhi
  case word => rw [setReg_cpsr, setReg_cpsr]; exact mayLeave_self

end

/-! The instructions with a shape of their own -/

section
variable (s : State)

theorem reaches_blxReg (c : Cond) (rm : Reg) : NextMeets (Reaches (.blxReg c rm) s) (exec (.blxReg c rm) s) :=
  (nextMeets_withoutR15 fun _ => reaches_exchange (i := .blxReg c rm) trivial (List.mem_singleton_self 5)
    ((keeps_refl s).setReg rfl _ (by decide)) (setReg_cpsr ..)).conditional reaches_advance_self

theorem reaches_blxLabel (h : Bool) (imm24 : BitVec 24) :
    NextMeets (Reaches (.blxLabel h imm24) s) (exec (.blxLabel h imm24) s) :=
  reaches_jump (i := .blxLabel h imm24) trivial (((keeps_refl s).setReg rfl _ (by decide)).setCpsr _)
    (mayLeave_psrSetT (List.mem_singleton_self 5) true)

theorem reaches_b (c : Cond) (imm24 : BitVec 24) : NextMeets (Reaches (.b c imm24) s) (exec (.b c imm24) s) :=
  (nextMeets_next (.branch (i := .b c imm24) trivial (keeps_refl s) mayLeave_self fun _ => branchOffset_aligned imm24)).conditional
    reaches_advance_self

theorem mayLeave_enterJazelle (c : Cond) (rm : Reg) : MayLeave (.bxj c rm) s (enterJazelle s).cpsr :=
  mayLeave_of_bits (bits := [24, 5]) rfl (by decide) (enterJazelle_sameStatusBut s)

theorem armState_enterJazelle : (enterJazelle s).armState = false :=
  armState_eq_false_iff.mpr (Or.inr (getLsbD_enterJazelle_cpsr s 24))

theorem reaches_bxj (c : Cond) (rm : Reg) : NextMeets (Reaches (.bxj c rm) s) (exec (.bxj c rm) s) := by
  refine (nextMeets_withoutR15 fun _ => ?_).conditional reaches_advance_self
  split
  · have hkeeps : Keeps s { enterJazelle s with pc := s.pc } :=
      ⟨rfl, rfl, rfl, rfl, fun _ _ _ => rfl, id, fun _ _ _ _ => rfl, id, id⟩
    exact nextMeets_next (.branch (i := .bxj c rm) trivial hkeeps (mayLeave_enterJazelle s c rm)
      fun harm => (Bool.false_ne_true ((armState_enterJazelle s).symm.trans harm)).elim)
  · exact reaches_exchange (i := .bxj c rm) trivial (List.mem_cons_of_mem _ (List.mem_singleton_self 5)) (keeps_refl s) rfl

/-- CPS leaves the status register with other mask bits and another mode number, in a privileged mode only (R141). -/
theorem mayLeave_cps (change : MaskChange) (mode : Option (BitVec 5)) {w : Word} (hpriv : s.privileged = true)
    (hmode : (Mode.ofBits (psrMode s.cpsr)).isSome = true → (Mode.ofBits (psrMode w)).isSome = true)
    (h : ∀ k, 5 ≤ k → w.getLsbD k = (maskedPsr change s.cpsr).getLsbD k) : MayLeave (.cps change mode) s w := by
  refine ⟨fun k hk => ?status, hmode, fun huser => (Bool.false_ne_true (huser.symm.trans hpriv)).elim⟩
  simp only [Claims.statusWrites, List.mem_cons, List.not_mem_nil, or_false, not_or] at hk
  rw [h k (by omega), getLsbD_maskedPsr_eq]
  simp only [hk, if_false]

theorem psrMode_maskedPsr (change : MaskChange) (w : Word) : psrMode (maskedPsr change w) = psrMode w :=
  psrMode_of_same fun k hk => by
    have h6 : k ≠ 6 := by omega
    have h7 : k ≠ 7 := by omega
    have h8 : k ≠ 8 := by omega
    rw [getLsbD_maskedPsr_eq, if_neg h6, if_neg h7, if_neg h8]

theorem reaches_cps (change : MaskChange) (mode : Option (BitVec 5)) :
    NextMeets (Reaches (.cps change mode) s) (exec (.cps change mode) s) := by
  refine NextMeets.atLevel ?_
  split
  next hpriv =>
    have hnext {w : Word} (hw : MayLeave (.cps change mode) s w) :
        NextMeets (Reaches (.cps change mode) s) (s.setCpsr w).advance := reaches_advance ((keeps_refl s).setCpsr w) hw
    unfold changeMode
    split
    · exact hnext (mayLeave_cps s change none hpriv (by rw [psrMode_maskedPsr]; exact id) fun _ _ => rfl)
    · split
      · exact nextMeets_refused _
      · exact nextMeets_refused _
      · refine hnext (mayLeave_cps s change _ hpriv (fun _ => by rw [psrMode_psrSetMode, ofBits_bits]; rfl) fun k hk => ?_)
        exact (getLsbD_putField _ 0 _ (by decide) k).trans (if_neg (by omega))
  next => exact reaches_advance_self

/-- A mode with a saved status register is privileged (R36). -/
theorem privileged_of_spsr {saved : Word} (h : spsrOf s.spsr s.mode = some saved) : s.privileged = true := by
  by_contra hpriv
  rw [mode_of_not_privileged (by simpa using hpriv)] at h
  exact nomatch h

theorem reaches_srs (am : AddrMode) (wb : Bool) (mode : BitVec 5) :
    NextMeets (Reaches (.srs am wb mode) s) (exec (.srs am wb mode) s) := by
  refine NextMeets.atLevel ?_
  split
  · exact nextMeets_refused _
  · exact nextMeets_refused _
  · rename_i hsaved _
    refine reaches_andThen (List.mem_singleton_self _) fun s1 h1 => reaches_andThen (List.mem_singleton_self _) fun s2 h2 => ?_
    have hcpsr1 : s1.cpsr = s.cpsr := storeAligned_cpsr h1
    have hcpsr2 : s2.cpsr = s.cpsr := (storeAligned_cpsr h2).trans hcpsr1
    have hkeeps : Keeps s s2 := ((keeps_refl s).storeAligned rfl h1).storeAligned hcpsr1 h2
    cases wb with
    | false => exact reaches_advance hkeeps (hcpsr2 ▸ mayLeave_self)
    | true => exact reaches_advance (hkeeps.setPhys _ _ (privileged_of_spsr s hsaved)) (hcpsr2 ▸ mayLeave_self)

theorem reaches_rfe (am : AddrMode) (wb : Bool) (rn : Reg) :
    NextMeets (Reaches (.rfe am wb rn) s) (exec (.rfe am wb rn) s) := by
  refine (nextMeets_withoutR15 fun hr15 => ?_).atLevel
  have hrn := ne_fifteen_of_head hr15
  split
  next hpriv =>
    refine reaches_andThen (List.mem_singleton_self _) fun newPc _ => reaches_andThen (List.mem_singleton_self _)
      fun newCpsr _ t ht => ?_
    obtain ⟨rfl, hmode, htarget⟩ := returnFromException_next ht
    refine .branch (i := .rfe am wb rn) trivial (Keeps.setCpsr ?keeps newCpsr) ⟨?status, fun _ => hmode, ?user⟩
      fun harm _ => htarget (psrT_of_armState harm)
    case keeps =>
      cases wb with
      | false => exact keeps_refl s
      | true => exact (keeps_refl s).setReg rfl _ hrn
    case status =>
      intro k hk
      have hge : 32 ≤ k := by simpa [Claims.statusWrites] using hk
      rw [BitVec.getLsbD_of_ge _ _ hge, BitVec.getLsbD_of_ge _ _ hge]
    case user => exact fun huser => (Bool.false_ne_true (huser.symm.trans hpriv)).elim
  next => exact nextMeets_refused _

theorem reaches_swp (c : Cond) (rd rm rn : Reg) : NextMeets (Reaches (.swp c rd rm rn) s) (exec (.swp c rd rm rn) s) := by
  refine (nextMeets_withoutR15 fun hr15 => NextMeets.refuseIf ?_).conditional reaches_advance_self
  refine reaches_andThen (List.mem_singleton_self _) fun old _ => reaches_andThen (List.mem_singleton_self _) fun s1 h1 => ?_
  have hcpsr : s1.cpsr = s.cpsr := storeAligned_cpsr h1
  exact reaches_advance (((keeps_refl s).storeAligned rfl h1).setReg hcpsr old (ne_fifteen_of_head hr15))
    (by rw [setReg_cpsr, hcpsr]; exact mayLeave_self)

theorem reaches_ldrex (c : Cond) (rd rn : Reg) : NextMeets (Reaches (.ldrex c rd rn) s) (exec (.ldrex c rd rn) s) := by
  refine ((nextMeets_withoutR15 fun hr15 => ?_).conditional reaches_advance_self).atLevel
  refine reaches_andThen (List.mem_singleton_self _) fun v hv => ?_
  obtain ⟨haligned, -⟩ := loadAligned_ok hv
  exact reaches_advance (((keeps_refl s).setReg rfl v (ne_fifteen_of_head hr15)).setReservation haligned)
    (by rw [setReg_cpsr]; exact mayLeave_self)

theorem reaches_strex (c : Cond) (rd rm rn : Reg) :
    NextMeets (Reaches (.strex c rd rm rn) s) (exec (.strex c rd rm rn) s) := by
  refine ((nextMeets_withoutR15 fun hr15 => NextMeets.refuseIf ?_).conditional reaches_advance_self).atLevel
  have hrd := ne_fifteen_of_head hr15
  split_ifs
  · exact nextMeets_refused _
  · refine reaches_andThen (List.mem_singleton_self _) fun s1 h1 => ?_
    have hcpsr : s1.cpsr = s.cpsr := storeAligned_cpsr h1
    exact reaches_advance ((((keeps_refl s).storeAligned rfl h1).setReg hcpsr _ hrd).setReservation rfl)
      (by rw [setReg_cpsr, hcpsr]; exact mayLeave_self)
  · exact reaches_advance (((keeps_refl s).setReg rfl _ hrd).setReservation rfl) (by rw [setReg_cpsr]; exact mayLeave_self)

theorem reaches_ldrPost (c : Cond) (add : Bool) (rd rn : Reg) (imm12 : BitVec 12) :
    NextMeets (Reaches (.ldrPost c add rd rn imm12) s) (exec (.ldrPost c add rd rn imm12) s) := by
  refine (nextMeets_withoutR15 fun hr15 => NextMeets.refuseIf ?_).conditional reaches_advance_self
  refine reaches_andThen (List.mem_singleton_self _) fun ⟨v, s1⟩ h1 => ?_
  obtain ⟨hrd, hrn⟩ := ne_of_not_mem_two hr15
  obtain ⟨-, -, hcpsr, -⟩ := loadWord_frame h1
  exact reaches_advance (((keeps_loadWord h1).setReg hcpsr _ hrd).setReg (by rw [setReg_cpsr, hcpsr]) _ hrn)
    (by rw [setReg_cpsr, setReg_cpsr, hcpsr]; exact mayLeave_self)

theorem reaches_subsImm (c : Cond) (rd rn : Reg) (rot : BitVec 4) (imm8 : BitVec 8) :
    NextMeets (Reaches (.subsImm c rd rn rot imm8) s) (exec (.subsImm c rd rn rot imm8) s) := by
  rw [exec]
  refine reaches_registerStep_setReg_setCpsr (mayLeave_of_bits (bits := [31, 30, 29, 28]) rfl (by decide) fun k hk => ?_)
  by_cases hlt : k < 28
  · exact getLsbD_psrSubFlags _ _ _ hlt
  · simp only [List.mem_cons, List.not_mem_nil, or_false, not_or] at hk
    have hge : 32 ≤ k := by omega
    rw [BitVec.getLsbD_of_ge _ _ hge, BitVec.getLsbD_of_ge _ _ hge]

/-- Every bit of the status register after MSR (R283, R309). -/
theorem getLsbD_msr (w v : Word) (privileged : Bool) (k : Nat) :
    ((w &&& ~~~msrMask privileged) ||| (v &&& msrMask privileged)).getLsbD k
      = if (msrMask privileged).getLsbD k then v.getLsbD k else w.getLsbD k := by
  by_cases hk : k < 32
  · simp only [BitVec.getLsbD_or, BitVec.getLsbD_and, BitVec.getLsbD_not, hk]
    cases (msrMask privileged).getLsbD k <;> simp
  · have hge : 32 ≤ k := by omega
    simp [BitVec.getLsbD_of_ge _ _ hge, -BitVec.getLsbD_eq_getElem]

theorem reaches_msrCpsrF (c : Cond) (rm : Reg) : NextMeets (Reaches (.msrCpsrF c rm) s) (exec (.msrCpsrF c rm) s) := by
  rw [exec]
  have hkept {k : Nat} (hk : (msrMask s.privileged).getLsbD k = false) :
      ((s.cpsr &&& ~~~msrMask s.privileged) ||| (s.reg rm &&& msrMask s.privileged)).getLsbD k = s.cpsr.getLsbD k := by
    rw [getLsbD_msr, hk, if_neg Bool.false_ne_true]
  refine reaches_registerStep (fun _ => (keeps_refl s).setCpsr _)
    ⟨fun k hk => hkept ?status, ?mode, fun huser k hk => hkept ?user⟩
  case status =>
    simp only [Claims.statusWrites, List.mem_cons, List.not_mem_nil, or_false, not_or] at hk
    rw [getLsbD_msrMask]
    simp [hk]
    omega
  case mode =>
    rw [setCpsr_cpsr, psrMode_of_same fun k hk => hkept ?_]
    · exact id
    · rw [getLsbD_msrMask]; simp; omega
  case user =>
    rw [getLsbD_msrMask, huser]
    revert k
    decide

theorem reaches_smi (c : Cond) (imm16 : BitVec 16) : NextMeets (Reaches (.smi c imm16) s) (exec (.smi c imm16) s) := by
  refine NextMeets.atLevel ?_
  split
  · refine NextMeets.conditional (nextMeets_next (.exception ?_)) reaches_advance_self
    split <;> simp [Claims.raises]
  · exact nextMeets_refused _

end

/-- Every next state of every instruction. -/
theorem exec_reaches (i : Instr) (s : State) : NextMeets (Reaches i s) (exec i s) := by
  cases i with
  | blxReg c rm => exact reaches_blxReg s c rm
  | blxLabel h imm24 => exact reaches_blxLabel s h imm24
  | b c imm24 => exact reaches_b s c imm24
  | bxj c rm => exact reaches_bxj s c rm
  | bkpt => exact nextMeets_next (.exception (List.mem_singleton_self _))
  | smi c imm16 => exact reaches_smi s c imm16
  | pld => exact reaches_advance_self
  | cdp2 | mrc2 => exact nextMeets_refused _
  | cps change mode => exact reaches_cps s change mode
  | setend big =>
    refine (reaches_advance ((keeps_refl s).setCpsr _) (mayLeave_of_bits (bits := [9]) rfl (by decide) fun k hk => ?_)).atLevel
    exact (getLsbD_psrSetE ..).trans (if_neg (by simpa using hk))
  | srs am wb mode => exact reaches_srs s am wb mode
  | rfe am wb rn => exact reaches_rfe s am wb rn
  | swp c rd rm rn => exact reaches_swp s c rd rm rn
  | ldrex c rd rn => exact reaches_ldrex s c rd rn
  | strex c rd rm rn => exact reaches_strex s c rd rm rn
  | ldrPost c add rd rn imm12 => exact reaches_ldrPost s c add rd rn imm12
  | subsImm c rd rn rot imm8 => exact reaches_subsImm s c rd rn rot imm8
  | msrCpsrF c rm => exact reaches_msrCpsrF s c rm
  | clz | pkhbt | pkhtb | rev | rev16 | revsh | smulw | smul | uhsub8 | smusd | uxtb | sxtb16 | sel | usad8 =>
    rw [exec]
    exact reaches_registerStep_setReg
  | umaal | smlal | smlald | smlsld =>
    rw [exec]
    exact reaches_longStep
  | qadd | qsub | qdadd | qdsub | ssat | smlaw | smlad | smlsd | smuad =>
    rw [exec]
    exact reaches_writeWithQ rfl
  | uadd8 | sadd8 | usub8 | ssub8 | uadd16 | sadd16 | usub16 | ssub16 | uaddsubx | saddsubx | usubaddx | ssubaddx =>
    rw [exec]
    exact reaches_simdWrap rfl
  | uqadd8 | qadd8 | uqsub8 | qsub8 | uqadd16 | qadd16 | uqsub16 | qsub16 | uqaddsubx | qaddsubx | uqsubaddx | qsubaddx =>
    rw [exec]
    exact reaches_simdSat fun hq => if_pos hq

end Sys2Proof.Machine
end

section
/-! PROOFS. The whole-machine rules that follow from what a step can do: the invariant (spec/10_state.md sections 2 and 3), NS and the
parameters, user mode, the writers of the status bits (spec/60_exceptions.md section 3), the top of the address space (D29), and the
requests taken between instructions (spec/60_exceptions.md section 2). -/

namespace Sys2Proof.Machine

/-! ## Every next state of a step -/

/-- A step takes an exception, perhaps one that ends a pending abort, from the state after the environment's turn, or runs an
instruction at an aligned pc. -/
theorem step_reaches {s t : State} (h : step s = .next t) :
    (∃ e, t = takeException e (environmentTurn s))
      ∨ (∃ e, t = takeException e { environmentTurn s with abortPending := false })
      ∨ ∃ i, wordAligned (environmentTurn s).pc = true ∧ Reaches i (environmentTurn s) t := by
  obtain ⟨-, ⟨e, -, rfl⟩ | ⟨-, rfl⟩ | ⟨w, i, -, hfetch, -, hexec⟩⟩ := step_next h
  · rcases takePending_cases e (environmentTurn s) with htake | htake
    · exact Or.inl ⟨e, htake⟩
    · exact Or.inr (Or.inl ⟨e, htake⟩)
  · exact Or.inl ⟨_, rfl⟩
  · refine Or.inr (Or.inr ⟨i, ?_, exec_reaches i _ t hexec⟩)
    by_contra hpc
    rw [fetchWord, if_pos (by simpa using hpc)] at hfetch
    exact nomatch hfetch

/-! ## The invariant -/

/-- The vectors of well-formed parameters are addresses of ARM instructions (R75, R302). -/
theorem wordAligned_exceptionVector {p : Params} (h : p.wf = true) (e : Exception) :
    wordAligned (exceptionVector p e) = true := by
  simp only [Params.wf, Bool.and_eq_true] at h
  obtain ⟨⟨⟨-, -⟩, hvector⟩, hmonitor⟩ := h
  have hbase {base : Word} (hb : wordAligned base = true) {offset : Word} (ho : offset.toNat % 4 = 0) :
      wordAligned (base + offset) = true := by
    rw [wordAligned_iff] at *
    rw [BitVec.toNat_add]
    omega
  cases e with
  | monitor => exact hbase hmonitor rfl
  | undefined | softwareInterrupt | prefetchAbort | dataAbort | irq | fiq => exact hbase hvector rfl

theorem inv_takeException {s : State} (h : s.Inv) (e : Exception) : (takeException e s).Inv := by
  obtain ⟨hmem, -, -, hres, hwf⟩ := h
  refine ⟨hmem, ?mode, fun _ => wordAligned_exceptionVector hwf e, hres, hwf⟩
  rw [takeException_cpsr, psrMode_entryPsr, ofBits_bits]
  rfl

theorem reservationAligned_of_kept {s u : State} (h : u.reservation = s.reservation ∨ u.reservation = none)
    (hs : reservationAligned s = true) : reservationAligned u = true := by
  rcases h with h | h
  · simpa [reservationAligned, h] using hs
  · simp [reservationAligned, h]

theorem inv_environmentTurn {s : State} (h : s.Inv) : (environmentTurn s).Inv := by
  obtain ⟨hmem, hmode, hpc, hres, hwf⟩ := h
  obtain ⟨-, hpc', hcpsr', -, -, hparams', -, hmem', hres'⟩ := environmentTurn_frame s
  exact ⟨hmem' hmem, by rwa [hcpsr'], by rwa [armState_congr hcpsr', hpc'], reservationAligned_of_kept hres' hres,
    by rwa [hparams']⟩

/-- An instruction run at an aligned pc keeps the invariant: it goes on by 4, or branches in ARM state to a multiple of 4. -/
theorem inv_of_reaches {i : Instr} {s t : State} (h : s.Inv) (hpc : wordAligned s.pc = true) (ht : Reaches i s t) : t.Inv := by
  obtain ⟨hmem, hmode, -, hres, hwf⟩ := id h
  cases ht with
  | exception _ => exact inv_takeException h _
  | sequential hu hw _ =>
    exact ⟨hu.memory hmem, hw.mode hmode, fun _ => wordAligned_add_four hpc, hu.reservation hres, by rw [hu.params]; exact hwf⟩
  | branch _ hu hw htarget =>
    exact ⟨hu.memory hmem, hw.mode hmode, fun harm => htarget harm hpc, hu.reservation hres, by rw [hu.params]; exact hwf⟩

/-- Settles O9: the environment's turn keeps the invariant, and so does whatever the step then does. -/
theorem stepKeepsTheInvariant : Obligations.StepKeepsTheInvariant := by
  intro s t hinv hstep
  have hturn := inv_environmentTurn hinv
  rcases step_reaches hstep with ⟨e, rfl⟩ | ⟨e, rfl⟩ | ⟨i, hpc, ht⟩
  · exact inv_takeException hturn e
  · exact inv_takeException (s := { environmentTurn s with abortPending := false }) hturn e
  · exact inv_of_reaches hturn hpc ht

/-- Settles O10: reset leaves memory empty, no reservation, supervisor mode and the pc at `RESET_VECTOR`. -/
theorem resetMeetsTheInvariant : Obligations.ResetMeetsTheInvariant := by
  have hinv {p : Params} (h : p.wf = true) : (State.resetWith p).Inv := by
    refine ⟨⟨List.Pairwise.nil, fun _ hc => nomatch hc⟩, ?_, fun _ => wordAligned_resetVector h, rfl, h⟩
    rw [psrMode_resetWith, ofBits_bits]
    rfl
  exact ⟨hinv rfl, fun p h => hinv h⟩

/-! ## NS and the parameters -/

theorem ns_params_of_reaches {i : Instr} {s t : State} (h : Reaches i s t) : t.ns = s.ns ∧ t.params = s.params := by
  cases h with
  | exception => exact ⟨rfl, rfl⟩
  | sequential hu | branch _ hu => exact ⟨hu.ns, hu.params⟩

/-- Settles O12: neither the environment nor an exception entry nor an instruction writes them. -/
theorem stepKeepsNsAndParameters : Obligations.StepKeepsNsAndParameters := by
  intro s t hstep
  obtain ⟨-, -, -, -, hns, hparams, -⟩ := environmentTurn_frame s
  rcases step_reaches hstep with ⟨e, rfl⟩ | ⟨e, rfl⟩ | ⟨i, -, ht⟩
  · exact ⟨hns, hparams⟩
  · exact ⟨hns, hparams⟩
  · obtain ⟨hns', hparams'⟩ := ns_params_of_reaches ht
    exact ⟨hns'.trans hns, hparams'.trans hparams⟩

/-! ## User mode -/

/-- Settles O13: the privileged bits, the saved status and the other banks are in the frame of every instruction in user mode. -/
theorem userModeIsLeftOnlyByAnException : Obligations.UserModeIsLeftOnlyByAnException := by
  intro s t hmode hstep
  obtain ⟨hregs, hpc, hcpsr, hspsr, -⟩ := environmentTurn_frame s
  have huser : (environmentTurn s).privileged = false := by
    have hbits : psrMode s.cpsr = Mode.user.bits := hmode
    simp [State.privileged, hcpsr, hbits]
  have hkept {u : State} {i : Instr} (hu : Keeps (environmentTurn s) u) (hw : MayLeave i (environmentTurn s) u.cpsr) :
      (∀ k ∈ privilegedBits, u.cpsr.getLsbD k = s.cpsr.getLsbD k) ∧ u.spsr = s.spsr
        ∧ ∀ p, ¬ Claims.userBank p → u.phys p = s.phys p :=
    ⟨fun k hk => (hw.user huser k hk).trans (by rw [hcpsr]), hu.spsr.trans hspsr,
      fun p hp => (hu.bank huser p hp).trans (phys_congr hregs p)⟩
  rcases step_reaches hstep with ⟨e, rfl⟩ | ⟨e, rfl⟩ | ⟨i, -, ht⟩
  · exact Or.inl ⟨e, _, rfl, hcpsr, hpc, hregs, hspsr⟩
  · exact Or.inl ⟨e, _, rfl, hcpsr, hpc, hregs, hspsr⟩
  · cases ht with
    | exception => exact Or.inl ⟨_, _, rfl, hcpsr, hpc, hregs, hspsr⟩
    | sequential hu hw | branch _ hu hw =>
      have hsame := hkept hu hw
      exact Or.inr hsame

/-! ## The writers of the status bits, and the top of the address space -/

/-- Settles O14: what is not an exception entry leaves a status word that `MayLeave` allows. -/
theorem statusBitsChangeOnlyByTheirWriters : Obligations.StatusBitsChangeOnlyByTheirWriters := by
  intro i s t hexec
  cases exec_reaches i s t hexec with
  | exception he => exact Or.inl ⟨_, he, rfl⟩
  | sequential _ hw | branch _ _ hw => exact Or.inr hw.status

theorem advance_of_top {s : State} (h : 2 ^ 32 ≤ s.pc.toNat + 4) : s.advance = .refused .sequentialWrap :=
  if_neg (Nat.not_lt.mpr h)

theorem exec_ldrPost_of_passed {c : Cond} {add : Bool} {rd rn : Reg} {imm12 : BitVec 12} {s : State}
    (hc : conditionPassed c s.cpsr = true) (hd : rd ≠ 15) (hn : rn ≠ 15) (hdn : rd ≠ rn) :
    exec (.ldrPost c add rd rn imm12) s = (loadWord s (s.reg rn)).andThen s fun p =>
      ((p.2.setReg rd p.1).setReg rn (postIndexed (s.reg rn) add imm12)).advance := by
  have hr15 : [rd, rn].contains 15 = false := by simp [hd.symm, hn.symm]
  simp only [exec, execLdrPost, conditional_of_passed hc, withoutR15_of_not_contains hr15, beq_false_of_ne hdn, refuseIf_false]

/-- At v6 a load whose four bytes pass 0xFFFFFFFF is unaligned, and it is refused (D29). -/
theorem loadWord_of_wrap {s : State} {a : Word} (hv6 : s.params.arch = .v6) (h : 2 ^ 32 < a.toNat + 4) :
    loadWord s a = .refused .addressWrap := by
  have haligned : wordAligned a = false := by
    rw [wordAligned_eq_false_iff]
    have := a.isLt
    omega
  rw [loadWord, if_neg (by simp [haligned]), if_pos hv6, unalignedRead, if_pos h]

/-- Settles O29: at the top the sequential case has no room, a failed condition goes on sequentially, and the load is checked before
it is read. -/
theorem wrappingPastTheTopIsRefused : Obligations.WrappingPastTheTopIsRefused := by
  refine ⟨fun i s t htop hexec => ?only, fun s iBit u rn am htop => advance_of_top htop,
    fun i c s hi hlevel hsmi hc htop => ?failed, fun s c add rd rn imm12 hc hd hn hdn hv6 hwrap => ?ldr⟩
  case only =>
    cases exec_reaches i s t hexec with
    | exception he => exact Or.inr ⟨_, he, rfl⟩
    | sequential _ _ hroom => omega
    | branch hi => exact Or.inl hi
  case failed => rw [exec_of_failed hi hlevel hsmi hc, advance_of_top htop]
  case ldr => rw [exec_ldrPost_of_passed hc hd hn hdn, loadWord_of_wrap hv6 hwrap, andThen_refused]

/-! ## Requests taken between instructions -/

/-- A request is absent or masked. -/
theorem request_eq_false_iff {line mask : Bool} : (line && !mask) = false ↔ line = false ∨ mask = true := by
  rw [Bool.and_eq_false_iff, Bool.not_eq_false']

/-- A pending imprecise abort is masked at v6 with A = 1, and never below (R30, R307). -/
theorem abortMasked_iff {s : State} : s.abortMasked = true ↔ s.params.arch = .v6 ∧ s.cpsr.getLsbD 8 = true := by
  rw [State.abortMasked, Bool.and_eq_true, decide_eq_true_iff]
  rfl

/-- The requests in their order of priority (R305). -/
theorem pendingException_of_fiq {s : State} (h : s.fiqLine = true) (hF : s.cpsr.getLsbD 6 = false) :
    s.pendingException = some .fiq := by
  have htake : (s.fiqLine && !psrF s.cpsr) = true := by rw [h, show psrF s.cpsr = false from hF]; rfl
  rw [State.pendingException, if_pos htake]

theorem pendingException_of_irq {s : State} (hfiq : s.fiqLine = false ∨ s.cpsr.getLsbD 6 = true) (h : s.irqLine = true)
    (hI : s.cpsr.getLsbD 7 = false) : s.pendingException = some .irq := by
  have hno : ¬ (s.fiqLine && !psrF s.cpsr) = true := by rw [Bool.not_eq_true]; exact request_eq_false_iff.mpr hfiq
  have htake : (s.irqLine && !psrI s.cpsr) = true := by rw [h, show psrI s.cpsr = false from hI]; rfl
  rw [State.pendingException, if_neg hno, if_pos htake]

theorem pendingException_of_no_line {s : State} (hfiq : s.fiqLine = false ∨ s.cpsr.getLsbD 6 = true)
    (hirq : s.irqLine = false ∨ s.cpsr.getLsbD 7 = true) :
    s.pendingException = if s.abortPending && !s.abortMasked then some .dataAbort else none := by
  have hnoFiq : ¬ (s.fiqLine && !psrF s.cpsr) = true := by rw [Bool.not_eq_true]; exact request_eq_false_iff.mpr hfiq
  have hnoIrq : ¬ (s.irqLine && !psrI s.cpsr) = true := by rw [Bool.not_eq_true]; exact request_eq_false_iff.mpr hirq
  rw [State.pendingException, if_neg hnoFiq, if_neg hnoIrq]

/-- Nothing is taken exactly where each request is absent or masked. -/
theorem pendingException_eq_none_iff {s : State} :
    s.pendingException = none ↔ (s.fiqLine = false ∨ s.cpsr.getLsbD 6 = true) ∧ (s.irqLine = false ∨ s.cpsr.getLsbD 7 = true)
      ∧ (s.abortPending = false ∨ (s.params.arch = .v6 ∧ s.cpsr.getLsbD 8 = true)) := by
  rw [← abortMasked_iff, ← request_eq_false_iff, ← request_eq_false_iff, ← request_eq_false_iff]
  have hchain (x y z : Bool) : (if x then some Exception.fiq else if y then some .irq else if z then some .dataAbort else none)
      = none ↔ x = false ∧ y = false ∧ z = false := by cases x <;> cases y <;> cases z <;> decide
  exact hchain _ _ _

/-- In a legal mode a step with something to take takes it. -/
theorem step_of_pending {s : State} {e : Exception} (hmode : (Mode.ofBits (psrMode s.cpsr)).isSome = true)
    (he : (environmentTurn s).pendingException = some e) : step s = .next (takePending e (environmentTurn s)) := by
  obtain ⟨m, hm⟩ := Option.isSome_iff_exists.mp hmode
  simp [step, hm, he]

/-- Only taking a pending abort, which a masked one does not, ends its pending; no instruction does. -/
theorem abortPending_of_masked {s t : State} (hmask : (environmentTurn s).abortMasked = true)
    (hpending : (environmentTurn s).abortPending = true) (hstep : step s = .next t) : t.abortPending = true := by
  obtain ⟨-, ⟨e, he, rfl⟩ | ⟨-, rfl⟩ | ⟨w, i, -, -, -, hexec⟩⟩ := step_next hstep
  · cases e with
    | dataAbort =>
      exfalso
      revert he
      rw [State.pendingException, hmask]
      split_ifs <;> simp_all
    | undefined | softwareInterrupt | prefetchAbort | irq | fiq | monitor => exact hpending
  · exact hpending
  · cases exec_reaches i _ t hexec with
    | exception => exact hpending
    | sequential hu | branch _ hu => exact hu.abortPending hpending

/-- Settles O8: each request by its place in `pendingException`, whose mask bits the environment's turn leaves as they were in `s`; the
entry by `entered_takeException`. -/
theorem interruptsAreTakenBetweenInstructions : Obligations.InterruptsAreTakenBetweenInstructions := by
  intro s u hu hmode
  subst hu
  obtain ⟨-, -, hcpsr, -, -, hparams, -⟩ := environmentTurn_frame s
  rw [← hcpsr, ← hparams]
  refine ⟨fun hline hF => ?fiq, fun hfiq hline hI => ?irq, fun hfiq hirq hpending hA => ?abort, pendingException_eq_none_iff,
    fun hv6 hA hpending t hstep => abortPending_of_masked (abortMasked_iff.mpr ⟨hv6, hA⟩) hpending hstep⟩
  case fiq => exact ⟨_, step_of_pending hmode (pendingException_of_fiq hline hF), entered_takeException ..⟩
  case irq => exact ⟨_, step_of_pending hmode (pendingException_of_irq hfiq hline hI), entered_takeException ..⟩
  case abort =>
    have hunmasked : ¬ (environmentTurn s).abortMasked = true := fun h => by
      obtain ⟨hv6, hset⟩ := abortMasked_iff.mp h
      exact Bool.false_ne_true ((hA hv6).symm.trans hset)
    have htake : (environmentTurn s).pendingException = some .dataAbort := by
      rw [pendingException_of_no_line hfiq hirq, hpending, if_pos (by simpa using hunmasked)]
    exact ⟨_, step_of_pending hmode htake, rfl, entered_takeException ..⟩

end Sys2Proof.Machine
end

section
/-! PROOFS. The fetch (spec/20_memory.md sections 2, 3 and 5), the checks before an instruction's effect (spec/10_state.md sections 1 and
3), the register banks (spec/10_state.md section 1), SMI (spec/45_security_java_thumb2.md R262), CPS (spec/41_v6_control_sync_packing.md
R141) and PLD. -/

namespace Sys2Proof.Machine

/-! ## What a fetch answers -/

theorem fetchWord_of_misaligned {s : State} (h : wordAligned s.pc = false) : fetchWord s = .refused .misalignedArmTarget := by
  rw [fetchWord, if_pos (by simp [h])]

theorem fetchWord_of_violation {s : State} (ha : wordAligned s.pc = true) (h : s.secureViolation s.pc.toNat 4 = true) :
    fetchWord s = .abort := by
  rw [fetchWord, if_neg (by simp [ha]), if_pos h]

/-- A fetch stops at the first byte that nothing has written (U1, log 7). -/
theorem fetchWord_of_unwritten {s : State} (ha : wordAligned s.pc = true) (hp : Claims.permitted s s.pc) {k : Nat} (hk : k < 4)
    (hnone : readByte s.mem (s.pc.toNat + k) = none)
    (hbelow : ∀ j, j < k → (readByte s.mem (s.pc.toNat + j)).isSome = true) :
    fetchWord s = .fault (.unwrittenMemory (s.pc.toNat + k)) := by
  have hsecure : ¬ s.secureViolation s.pc.toNat 4 = true := by rw [hp]; decide
  rw [fetchWord, if_neg (by simp [ha]), if_neg hsecure, readBytes_error hk hnone hbelow]

/-! ## What a step does with its fetch -/

section
variable {s : State} (hmode : (Mode.ofBits (psrMode s.cpsr)).isSome = true)
  (hquiet : (environmentTurn s).pendingException = none) (harm : (environmentTurn s).armState = true)
include hmode hquiet harm

theorem step_of_fetch_abort (h : fetchWord (environmentTurn s) = .abort) :
    step s = .next (takeException .prefetchAbort (environmentTurn s)) := by
  obtain ⟨m, hm⟩ := Option.isSome_iff_exists.mp hmode
  simp [step, hm, hquiet, harm, h]

theorem step_of_fetch_fault {f : Fault} (h : fetchWord (environmentTurn s) = .fault f) : step s = .fault f := by
  obtain ⟨m, hm⟩ := Option.isSome_iff_exists.mp hmode
  simp [step, hm, hquiet, harm, h]

theorem step_of_fetch_refused {r : Refusal} (h : fetchWord (environmentTurn s) = .refused r) : step s = .refused r := by
  obtain ⟨m, hm⟩ := Option.isSome_iff_exists.mp hmode
  simp [step, hm, hquiet, harm, h]

theorem step_of_undecodable {w : Word} {e : DecodeError} (h : fetchWord (environmentTurn s) = .ok w)
    (hdecode : decodeWord w = .error e) : step s = .refused (decodeRefusal e) := by
  obtain ⟨m, hm⟩ := Option.isSome_iff_exists.mp hmode
  simp [step, hm, hquiet, harm, h, hdecode]

end

theorem step_of_illegalMode {s : State} (h : Mode.ofBits (psrMode s.cpsr) = none) : step s = .refused .illegalMode := by
  simp [step, h]

/-- The environment's turn leaves what R70 checks as it was. -/
theorem secureViolation_environmentTurn (s : State) (a n : Nat) :
    (environmentTurn s).secureViolation a n = s.secureViolation a n := by
  obtain ⟨-, -, hcpsr, -, hns, hparams, -⟩ := environmentTurn_frame s
  rw [State.secureViolation, State.secureViolation, nonSecure_congr hparams hns hcpsr, hparams]

/-- A fetch of a secure byte by a non-secure processor, seen from before the environment's turn (R70). -/
theorem step_of_secure_fetch {s : State} (hmode : (Mode.ofBits (psrMode s.cpsr)).isSome = true)
    (hquiet : (environmentTurn s).pendingException = none) (harm : s.armState = true) (hpc : wordAligned s.pc = true)
    (hviolation : s.secureViolation s.pc.toNat 4 = true) :
    step s = .next (takeException .prefetchAbort (environmentTurn s)) := by
  obtain ⟨-, hpc', hcpsr', -⟩ := environmentTurn_frame s
  refine step_of_fetch_abort hmode hquiet (by rwa [armState_congr hcpsr']) (fetchWord_of_violation (by rwa [hpc']) ?_)
  rwa [secureViolation_environmentTurn, hpc']

/-- Settles O5: the word that memory holds after the environment's turn is the one fetched, and a word that decodes decodes to a
well-formed instruction. -/
theorem stepRunsTheDecodedInstruction : Obligations.StepRunsTheDecodedInstruction := by
  refine ⟨fun s w i hmode hquiet harm hpc hp hw hdecode => ?runs, fun s => environmentTurn_of_no_action⟩
  obtain ⟨-, hpc', hcpsr', -⟩ := environmentTurn_frame s
  have hpermitted : Claims.permitted (environmentTurn s) (environmentTurn s).pc := by
    rwa [Claims.permitted, secureViolation_environmentTurn, hpc']
  obtain ⟨hwf, -⟩ := Laws.encodeOfDecodeIsTheWord w i hdecode
  exact ⟨hwf, step_of_fetchWord hmode hquiet (by rwa [armState_congr hcpsr'])
    (fetchWord_of_holdsWord (by rwa [hpc']) hpermitted (by rwa [hpc'])) hdecode⟩

/-- Settles O7: each way for the fetch to give no instruction, and what the step makes of it. -/
theorem fetchStopsAndAborts : Obligations.FetchStopsAndAborts := by
  intro s hquiet harm
  obtain ⟨-, hpc', hcpsr', -⟩ := environmentTurn_frame s
  have harm' : (environmentTurn s).armState = true := by rwa [armState_congr hcpsr']
  have hpermitted (hp : s.secureViolation s.pc.toNat 4 = false) : Claims.permitted (environmentTurn s) (environmentTurn s).pc := by
    rwa [Claims.permitted, secureViolation_environmentTurn, hpc']
  refine ⟨fun hmode hpc hv => step_of_secure_fetch hmode hquiet harm hpc hv, fun hmode hpc => ?misaligned,
    fun k hk hmode hpc hp hnone hbelow => ?unwritten, fun w e hmode hpc hp hw hdecode => ?undecodable,
    fun hmode => step_of_illegalMode hmode⟩
  case misaligned => exact step_of_fetch_refused hmode hquiet harm' (fetchWord_of_misaligned (by rwa [hpc']))
  case unwritten =>
    rw [← hpc'] at hnone hbelow hpc ⊢
    exact step_of_fetch_fault hmode hquiet harm' (fetchWord_of_unwritten hpc (hpermitted hp) hk hnone hbelow)
  case undecodable =>
    rw [← hpc'] at hw hpc
    exact step_of_undecodable hmode hquiet harm' (fetchWord_of_holdsWord hpc (hpermitted hp) hw) hdecode

/-! ## Level and register 15 -/

theorem atLevel_of_lt {need : Arch} {s : State} {body : Result} (h : Arch.rank s.params.arch < Arch.rank need) :
    atLevel need s body = .refused .belowLevel := if_neg (Nat.not_le.mpr h)

/-- An instruction of v5 exists at every level; the others check theirs first. -/
theorem exec_of_belowLevel {i : Instr} {s : State} (h : Arch.rank s.params.arch < Arch.rank (Claims.level i)) :
    exec i s = .refused .belowLevel := by
  cases i with
  | blxReg | blxLabel | clz | bkpt | pld | cdp2 | mrc2 | swp | bxj | ldrPost | subsImm | b | msrCpsrF =>
    exact absurd h (Nat.not_lt_zero _)
  | cps | setend | srs | rfe | smi
  | pkhbt | pkhtb | umaal | ldrex | strex | rev | rev16 | revsh | smlaw | smulw | smlal | smul | qadd | qsub | qdadd | qdsub
  | uqadd8 | qadd8 | uadd8 | sadd8 | uqsub8 | qsub8 | usub8 | ssub8 | uqadd16 | qadd16 | uadd16 | sadd16 | uqsub16 | qsub16
  | usub16 | ssub16 | uqaddsubx | qaddsubx | uaddsubx | saddsubx | uqsubaddx | qsubaddx | usubaddx | ssubaddx | uhsub8
  | smuad | smusd | smlad | smlsd | smlald | smlsld | uxtb | sxtb16 | ssat | sel | usad8 => exact atLevel_of_lt h

/-- Once level and condition are passed, the operand registers are checked before anything else (R21). -/
theorem exec_of_fifteen {i : Instr} {s : State} (hlevel : Arch.rank (Claims.level i) ≤ Arch.rank s.params.arch)
    (hc : ∀ c, Claims.condition i = some c → conditionPassed c s.cpsr = true) (hr15 : (15 : Reg) ∈ Claims.registers i) :
    exec i s = .refused .registerFifteen := by
  cases i with
  | blxLabel | bkpt | pld | cdp2 | mrc2 | cps | setend | srs | smi | b => exact nomatch hr15
  | blxReg | bxj | swp | ldrPost => exact (conditional_of_passed (hc _ rfl)).trans (withoutR15_of_mem hr15)
  | rfe => exact (atLevel_of_le hlevel).trans (withoutR15_of_mem hr15)
  | clz | pkhbt | pkhtb | umaal | ldrex | strex | rev | rev16 | revsh | smlaw | smulw | smlal | smul | qadd | qsub | qdadd | qdsub
  | uqadd8 | qadd8 | uadd8 | sadd8 | uqsub8 | qsub8 | usub8 | ssub8 | uqadd16 | qadd16 | uadd16 | sadd16 | uqsub16 | qsub16
  | usub16 | ssub16 | uqaddsubx | qaddsubx | uaddsubx | saddsubx | uqsubaddx | qsubaddx | usubaddx | ssubaddx | uhsub8
  | smuad | smusd | smlad | smlsd | smlald | smlsld | uxtb | sxtb16 | ssat | sel | usad8 | subsImm | msrCpsrF =>
    exact (guards_of_selected _ ⟨hlevel, hc _ rfl⟩).trans (withoutR15_of_mem hr15)

/-- Settles O18: the two checks, each for every instruction. -/
theorem levelAndRegisterFifteenAreChecked : Obligations.LevelAndRegisterFifteenAreChecked :=
  fun _ _ => ⟨exec_of_belowLevel, exec_of_fifteen⟩

/-! ## The register banks -/

/-- The number under which a physical register is seen, in every mode that sees it (R22). -/
def PhysReg.number (p : PhysReg) : Nat :=
  if p.index.val < 15 then p.index.val else if p.index.val < 22 then p.index.val - 7 else 13 + p.index.val % 2

theorem number_of_bankedReg {m : Mode} {r : Reg} {p : PhysReg} (h : bankedReg m r = some p) : p.number = r.val := by
  have hall : ∀ r : Reg, (bankedReg m r).all (fun p => p.number = r.val) = true := by cases m <;> decide
  simpa [h] using hall r

/-- Two modes name one physical register by `r` exactly where they share the copy. -/
theorem bankedReg_eq_iff_sharedBetween {m m' : Mode} {r : Reg} (hr : r ≠ 15) :
    bankedReg m r = bankedReg m' r ↔ Claims.sharedBetween m m' r := by
  unfold Claims.sharedBetween
  revert r
  cases m <;> cases m' <;> decide

theorem reg_of_bankedReg {s : State} {r : Reg} {p : PhysReg} (h : bankedReg s.mode r = some p) : s.reg r = s.phys p := by
  rw [State.reg, h]

theorem mode_of_ofBits {s : State} {m : Mode} (h : Mode.ofBits (psrMode s.cpsr) = some m) : s.mode = m := by
  rw [State.mode, h, Option.getD_some]

/-- Settles O20: the write reaches one physical register, which the other mode reads as `r` exactly where it shares the copy and as no
other number. -/
theorem bankedRegistersAreSeparate : Obligations.BankedRegistersAreSeparate := by
  intro s w v r r' m m' hm hm' hr hr'
  have hmode : s.mode = m := mode_of_ofBits hm
  have hmodeAfter (u : State) : (u.setCpsr w).mode = m' := mode_of_ofBits (s := u.setCpsr w) hm'
  obtain ⟨p, hp⟩ := Option.isSome_iff_exists.mp (bankedReg_isSome (m := m') hr)
  obtain ⟨p', hp'⟩ := Option.isSome_iff_exists.mp (bankedReg_isSome (m := m') hr')
  have hread (u : State) : (u.setCpsr w).reg r = u.phys p := reg_of_bankedReg (s := u.setCpsr w) (by rw [hmodeAfter, hp])
  have hread' (u : State) : (u.setCpsr w).reg r' = u.phys p' := reg_of_bankedReg (s := u.setCpsr w) (by rw [hmodeAfter, hp'])
  refine ⟨fun hshared => ?shared, fun hseparate => ?separate, fun hne => ?other, reg_setReg_same s r v hr,
    fun hne => reg_setReg_other s r r' v hr hne⟩
  case shared =>
    have hsame : bankedReg s.mode r = some p := by rw [hmode, (bankedReg_eq_iff_sharedBetween hr).mpr hshared, hp]
    rw [hread, phys_setReg, if_pos hsame]
  case separate =>
    have hdiffer : bankedReg s.mode r ≠ some p := fun h =>
      hseparate ((bankedReg_eq_iff_sharedBetween hr).mp (by rw [← hmode, h, hp]))
    rw [hread, hread, phys_setReg, if_neg hdiffer]
  case other =>
    have hdiffer : bankedReg s.mode r ≠ some p' := fun h =>
      hne (Fin.ext ((number_of_bankedReg hp').symm.trans (number_of_bankedReg h)))
    rw [hread', hread', phys_setReg, if_neg hdiffer]

/-! ## SMI -/

theorem privileged_iff {s : State} : s.privileged = true ↔ s.cpsr.extractLsb' 0 5 ≠ 0b10000#5 := bne_iff_ne

theorem not_privileged_iff {s : State} : s.privileged = false ↔ s.cpsr.extractLsb' 0 5 = 0b10000#5 := by
  rw [← not_iff_not, Bool.not_eq_false, privileged_iff]

theorem exec_smi_of_passed {s : State} {c : Cond} {imm16 : BitVec 16} (hv6 : s.params.arch = .v6)
    (htz : s.params.hasTrustZone = true) (hc : conditionPassed c s.cpsr = true) :
    exec (.smi c imm16) s = .next (takeException (if s.privileged then .monitor else .undefined) s) :=
  (atLevel_of_v6 hv6).trans ((if_pos htz).trans (conditional_of_passed hc))

/-- Settles O23: past its checks SMI is one of two entries, chosen by privilege. -/
theorem smiEntersTheMonitorOrTraps : Obligations.SmiEntersTheMonitorOrTraps := by
  intro s c imm16 hv6
  refine ⟨fun htz hc hmode => ?monitor, fun htz hc hmode => ?undefined, fun htz => ?absent⟩
  case monitor =>
    refine ⟨_, exec_smi_of_passed hv6 htz hc, ?_⟩
    rw [if_pos (privileged_iff.mpr hmode)]
    exact entered_takeException ..
  case undefined =>
    refine ⟨_, exec_smi_of_passed hv6 htz hc, ?_⟩
    rw [not_privileged_iff.mpr hmode, if_neg Bool.false_ne_true]
    exact entered_takeException ..
  case absent => exact (atLevel_of_v6 hv6).trans (if_neg (by simp [htz]))

/-! ## CPS -/

/-- Going on with another status register changes nothing else. -/
theorem onlyWrites_setCpsr (s : State) {w : Word} {bits : List Nat} (h : ∀ k, k ∉ bits → w.getLsbD k = s.cpsr.getLsbD k) :
    Claims.onlyWrites s { s.setCpsr w with pc := s.pc + 4#32 } [] bits :=
  ⟨rfl, fun _ _ => rfl, h, fun _ => rfl, rfl, ⟨rfl, rfl, rfl, rfl, rfl, rfl, rfl, rfl⟩, rfl⟩

/-- The status register after CPS in a privileged mode, with a mode operand that it allows. -/
def cpsPsr (change : MaskChange) (mode : Option (BitVec 5)) (w : Word) : Word :=
  match mode with
  | none => maskedPsr change w
  | some n => psrSetMode (maskedPsr change w) n

theorem getLsbD_cpsPsr (change : MaskChange) (mode : Option (BitVec 5)) (w : Word) {k : Nat} (hk : 5 ≤ k) :
    (cpsPsr change mode w).getLsbD k = (maskedPsr change w).getLsbD k := by
  cases mode with
  | none => rfl
  | some n => exact (getLsbD_putField _ 0 n (by decide) k).trans (if_neg (by omega))

theorem psrMode_cpsPsr (change : MaskChange) (mode : Option (BitVec 5)) (w : Word) :
    psrMode (cpsPsr change mode w) = mode.getD (psrMode w) := by
  cases mode with
  | none => exact psrMode_maskedPsr change w
  | some n => exact psrMode_psrSetMode _ n

theorem exec_cps_of_privileged {s : State} {change : MaskChange} {mode : Option (BitVec 5)} (hv6 : s.params.arch = .v6)
    (hpriv : s.privileged = true) : exec (.cps change mode) s
      = changeMode mode (maskedPsr change s.cpsr) fun w => (s.setCpsr w).advance :=
  (atLevel_of_v6 hv6).trans (if_pos hpriv)

/-- A mode operand other than secure monitor mode and the numbers outside R34's table is written as it is. -/
theorem changeMode_of_allowed {mode : Option (BitVec 5)} {change : MaskChange} {w : Word} {k : Word → Result}
    (h : ∀ n, mode = some n → (Mode.ofBits n).isSome = true ∧ n ≠ Mode.monitor.bits) :
    changeMode mode (maskedPsr change w) k = k (cpsPsr change mode w) := by
  cases mode with
  | none => rfl
  | some n =>
    obtain ⟨hsome, hmonitor⟩ := h n rfl
    obtain ⟨m, hm⟩ := Option.isSome_iff_exists.mp hsome
    have hbits := bits_of_ofBits hm
    have hne : m ≠ .monitor := fun h => hmonitor (by rw [← hbits, h])
    simp only [changeMode, cpsPsr, hm]
    rw [hbits]

/-- Settles O36: in a privileged mode the status word is `cpsPsr`, whose bits the mask change and the mode operand give; in user mode
the operands are not looked at. -/
theorem cpsChangesMasksAndMode : Obligations.CpsChangesMasksAndMode := by
  intro s change mode hv6
  simp only [← privileged_iff, ← not_privileged_iff]
  refine ⟨fun hpriv hroom hmode => ?privileged, fun huser hroom => ?user, fun hpriv hmonitor => ?monitor,
    fun hpriv n hn hillegal => ?illegal⟩
  case privileged =>
    have hexec : exec (.cps change mode) s = .next { s.setCpsr (cpsPsr change mode s.cpsr) with pc := s.pc + 4#32 } := by
      rw [exec_cps_of_privileged hv6 hpriv, changeMode_of_allowed hmode]
      exact advance_of_lt hroom
    refine ⟨_, hexec, onlyWrites_setCpsr s fun k hk => ?bits, ?A, ?I, ?F, psrMode_cpsPsr change mode s.cpsr⟩
    case bits =>
      simp only [List.mem_cons, List.not_mem_nil, or_false, not_or] at hk
      rw [getLsbD_cpsPsr _ _ _ (by omega), getLsbD_maskedPsr_eq]
      simp only [hk, if_false]
    case A | I | F => exact (getLsbD_cpsPsr _ _ _ (by decide)).trans (getLsbD_maskedPsr_eq ..)
  case user =>
    exact (atLevel_of_v6 hv6).trans ((if_neg (by simp [huser])).trans (advance_of_lt hroom))
  case monitor => subst hmonitor; exact exec_cps_of_privileged hv6 hpriv
  case illegal =>
    subst hn
    rw [exec_cps_of_privileged hv6 hpriv]
    simp only [changeMode, hillegal]

/-! ## PLD -/

/-- Settles O33: PLD looks at neither its operands nor memory. -/
theorem pldHasNoEffect : Obligations.PldHasNoEffect := fun _ _ _ _ _ hroom => advance_of_lt hroom

end Sys2Proof.Machine
end

section
/-! PROOFS. PKHBT and PKHTB (spec/41_v6_control_sync_packing.md R151, R152), QDADD and QDSUB (spec/42_v5te_dsp.md R178, R179), SUBS and
MSR (spec/46_base_instructions_in_examples.md R281, R283). -/

namespace Sys2Proof.Machine

/-! ## Packed halves -/

/-- The top half of a word shifted left, as a number: the shifted number's bits 31:16 (R151). -/
theorem toNat_halfLane_shiftLeft (v : Word) (sh : Nat) :
    (halfLane (pkhShiftLeft v sh) 1).toNat = v.toNat * 2 ^ sh / 2 ^ 16 % 2 ^ 16 := by
  simp only [halfLane, getField, pkhShiftLeft, BitVec.extractLsb'_toNat, BitVec.toNat_shiftLeft, Nat.shiftLeft_eq,
    Nat.shiftRight_eq_div_pow]
  generalize v.toNat * 2 ^ sh = n
  omega

/-- The low half of a word is its signed number modulo 2^16. -/
theorem halfLane_zero_eq_ofInt (v : Word) : halfLane v 0 = BitVec.ofInt 16 v.toInt := by
  have hlow : halfLane v 0 = v.setWidth 16 := (BitVec.setWidth_eq_extractLsb' (by decide)).symm
  rw [hlow, ← BitVec.signExtend_eq_setWidth_of_le v (by decide)]
  rfl

/-- An arithmetic shift to the right is the division rounded down (R152). -/
theorem toInt_pkhShiftRight (v : Word) (sh : Nat) : (pkhShiftRight v sh).toInt = v.toInt / ((2 ^ sh : Nat) : Int) := by
  rw [pkhShiftRight, BitVec.toInt_sshiftRight, Int.shiftRight_eq_div_pow]

theorem halfLane_append (top bottom : BitVec 16) :
    halfLane (top ++ bottom) 1 = top ∧ halfLane (top ++ bottom) 0 = bottom :=
  ⟨halfLane_packHalves (fun k => if k = 1 then top else bottom) (k := 1) (by decide),
    halfLane_packHalves (fun k => if k = 1 then top else bottom) (k := 0) (by decide)⟩

/-- Settles O44: each writes one value to Rd, whose halves are read back one by one. -/
theorem packHalfwords : Obligations.PackHalfwords := by
  intro c rd rn rm sh
  refine ⟨fun s hruns => ⟨fun _ => ?pkhbt, fun _ _ => ?pkhtb⟩, fun s hsel hr15 => registerStep_of_fifteen hsel hr15,
    fun s hsel hr15 => registerStep_of_fifteen hsel hr15⟩
  case pkhbt =>
    obtain ⟨t, hexec, hwrites, hrd⟩ := registerStep_setReg_of_runs
      (halfOf (pkhShiftLeft (s.reg rm) sh) .top ++ halfOf (s.reg rn) .bottom) hruns
    obtain ⟨htop, hbottom⟩ := halfLane_append (halfOf (pkhShiftLeft (s.reg rm) sh) .top) (halfOf (s.reg rn) .bottom)
    rw [← hrd] at htop hbottom
    exact ⟨t, hexec, hwrites, hbottom, (congrArg BitVec.toNat htop).trans (toNat_halfLane_shiftLeft ..)⟩
  case pkhtb =>
    obtain ⟨t, hexec, hwrites, hrd⟩ := registerStep_setReg_of_runs
      (halfOf (s.reg rn) .top ++ halfOf (pkhShiftRight (s.reg rm) sh) .bottom) hruns
    obtain ⟨htop, hbottom⟩ := halfLane_append (halfOf (s.reg rn) .top) (halfOf (pkhShiftRight (s.reg rm) sh) .bottom)
    rw [← hrd] at htop hbottom
    refine ⟨t, hexec, hwrites, htop, hbottom.trans ?_⟩
    rw [← toInt_pkhShiftRight]
    exact halfLane_zero_eq_ofInt _

/-! ## Saturating double add and subtract -/

theorem doubled_eq (v : Word) :
    doubled v = (Claims.sat true 32 (2 * v.toInt), decide (Claims.sat true 32 (2 * v.toInt) ≠ 2 * v.toInt)) :=
  signedSat_eq 32 _

/-- A register instruction whose update is a saturated number after a step that may have saturated: Q is set by either (R178). -/
theorem registerStep_writeSaturated_earlier {need : Arch} {c : Cond} {rd : Reg} {rs : List Reg} {s : State} (r : Int)
    {earlier : Bool} {p : Prop} (hearlier : earlier = true ↔ p) (hruns : Claims.runs need c (rd :: rs) s) :
    ∃ t, registerStep need c (rd :: rs) s (writeSaturated s rd r earlier) = .next t ∧ Claims.onlyWrites s t [rd] [27]
      ∧ (t.reg rd).toInt = Claims.sat true 32 r ∧ Claims.stickyQ s t (p ∨ Claims.outside32 r) := by
  obtain ⟨t, hexec, hwrites, hrd, hQ⟩ :=
    registerStep_writeWithQ_of_runs (truncInt 32 (signedSat 32 r).1) (earlier || (signedSat 32 r).2) hruns
  rw [signedSat_eq] at hrd hQ
  rw [Bool.or_eq_true, hearlier, decide_eq_true_iff, sat_ne_iff_outside32] at hQ
  exact ⟨t, hexec, hwrites, by rw [hrd, toInt_truncInt (sat_not_outside32 r)], hQ⟩

/-- Settles O48: the doubled operand is the saturated double, and its own saturation is the earlier one. -/
theorem saturatingDoubleAddSubtract : Obligations.SaturatingDoubleAddSubtract := by
  intro c rd rm rn
  refine ⟨fun s d r hruns hd => ?completes, fun s hsel hr15 => registerStep_of_fifteen hsel hr15,
    fun s hsel hr15 => registerStep_of_fifteen hsel hr15⟩
  have hvalue : (doubled (s.reg rn)).1 = d := by rw [doubled_eq, hd]
  have hearlier : (doubled (s.reg rn)).2 = true ↔ Claims.outside32 (2 * (s.reg rn).toInt) := by
    rw [doubled_eq, decide_eq_true_iff, sat_ne_iff_outside32]
  subst hvalue
  refine ⟨fun hr => ?qdadd, fun hr => ?qdsub⟩
  case qdadd | qdsub =>
    subst hr
    exact registerStep_writeSaturated_earlier _ hearlier hruns

/-! ## Instructions that write status bits -/

/-- A register instruction that executes normally, and whose update is one register and status bits above the mode field, writes
those alone. -/
theorem registerStep_setReg_setCpsr_of_runs {need : Arch} {c : Cond} {rd : Reg} {rs : List Reg} {s : State} (v : Word)
    {w : Word} {bits : List Nat} (hbits : ∀ k ∈ bits, 5 ≤ k) (hw : ∀ k, k ∉ bits → w.getLsbD k = s.cpsr.getLsbD k)
    (hruns : Claims.runs need c (rd :: rs) s) :
    ∃ t, registerStep need c (rd :: rs) s ((s.setReg rd v).setCpsr w) = .next t ∧ Claims.onlyWrites s t [rd] bits
      ∧ t.reg rd = v ∧ t.cpsr = w := by
  obtain ⟨⟨hlevel, hc⟩, hr15, hroom⟩ := hruns
  have hrd : rd ≠ 15 := ne_fifteen_of_head hr15
  have hpc : (s.setReg rd v).pc = s.pc := setReg_pc s rd v hrd
  have hpsr : psrMode w = psrMode s.cpsr := psrMode_of_same fun k hk => hw k fun hb => by have := hbits k hb; omega
  have hmode : ((s.setReg rd v).setCpsr w).mode = (s.setReg rd v).mode := by simp [State.mode, hpsr]
  obtain ⟨hpc', hregs, -, hmem, hres, hsystem, hfree⟩ := onlyWrites_setReg s v hrd
  refine ⟨_, registerStep_of_passed hlevel hc (by simpa using hr15) (by rw [setCpsr_pc, hpc]; exact hroom),
    ⟨hpc', hregs, hw, hmem, hres, hsystem, hfree⟩, ?reg, rfl⟩
  case reg => rw [reg_withPc _ _ _ hrd, reg_congr (setCpsr_regs ..) (setCpsr_pc ..) hmode rd, reg_setReg_same s rd v hrd]

/-- Every bit of the flags of SUBS (R281). -/
theorem getLsbD_psrSubFlags_eq (w a imm : Word) (k : Nat) : (psrSubFlags w a imm).getLsbD k =
    if k = 28 then a.toInt - imm.toInt != (a - imm).toInt
    else if k = 29 then decide (imm.toNat ≤ a.toNat)
    else if k = 30 then a - imm == 0#32
    else if k = 31 then (a - imm).getLsbD 31
    else w.getLsbD k := by
  simp (disch := decide) only [psrSubFlags, psrSetN, psrSetZ, psrSetC, psrSetV, getLsbD_putBit]
  rfl

/-- The difference of two words is that of their numbers modulo 2^32. -/
theorem sub_eq_ofInt (a b : Word) : a - b = BitVec.ofInt 32 (a.toNat - b.toNat) := by
  simp [Int.sub_eq_add_neg, BitVec.ofInt_add, BitVec.ofInt_neg, BitVec.sub_eq_add_neg]

/-- Settles O59: Rd is the difference, and the four flags are the bits of `psrSubFlags`. -/
theorem subsSetsTheFlags : Obligations.SubsSetsTheFlags := by
  intro c rd rn rot imm8 imm himm
  have hrot : rotatedImm rot imm8 = imm := himm.symm
  refine ⟨fun s hruns => ?completes, fun s hsel hr15 => registerStep_of_fifteen hsel hr15⟩
  have hbits : ∀ k, k ∉ [31, 30, 29, 28] → (psrSubFlags s.cpsr (s.reg rn) imm).getLsbD k = s.cpsr.getLsbD k := fun k hk => by
    simp only [List.mem_cons, List.not_mem_nil, or_false, not_or] at hk
    rw [getLsbD_psrSubFlags_eq]
    simp only [hk, if_false]
  obtain ⟨t, hexec, hwrites, hrd, hcpsr⟩ :=
    registerStep_setReg_setCpsr_of_runs (s.reg rn - imm) (by decide) hbits hruns
  have hflag (k : Nat) := getLsbD_psrSubFlags_eq s.cpsr (s.reg rn) imm k
  rw [← hcpsr, ← hrd] at hflag
  refine ⟨t, ?exec, hwrites, hrd.trans (sub_eq_ofInt _ _), hflag 31, ?Z, hflag 29, ?V⟩
  case exec => rw [← hrot] at hexec; exact hexec
  case Z => exact (hflag 30).trans (beq_eq_decide _ _)
  case V => rw [decide_not, ← beq_eq_decide]; exact hflag 28

/-- Settles O60: the bits that MSR's mask covers come from Rm, the others stay. -/
theorem msrWritesTheFlags : Obligations.MsrWritesTheFlags := by
  intro c rm
  refine ⟨fun s hruns => ?completes, fun s hsel hr15 => registerStep_of_fifteen hsel hr15⟩
  obtain ⟨⟨hlevel, hc⟩, hr15, hroom⟩ := hruns
  refine ⟨_, registerStep_of_passed hlevel hc (by simpa using hr15) hroom, onlyWrites_setCpsr s fun k hk => ?kept,
    fun k hlow hhigh => ?flags, fun k hk => ?unnamed⟩
  case kept =>
    simp only [List.mem_cons, List.not_mem_nil, or_false, not_or] at hk
    rw [getLsbD_msr, getLsbD_msrMask, if_neg]
    simp [hk]
    omega
  case flags =>
    refine (getLsbD_msr ..).trans (if_pos ?_)
    rw [getLsbD_msrMask]
    simp [hlow, hhigh]
  case unnamed =>
    refine (getLsbD_msr ..).trans ?_
    have hmask : (msrMask s.privileged).getLsbD k = s.privileged := by
      rw [getLsbD_msrMask]
      rcases hk with rfl | rfl <;> simp
    rw [hmask]
    by_cases hpriv : s.privileged = true
    · rw [if_pos hpriv, if_neg (privileged_iff.mp hpriv)]
    · rw [if_neg hpriv, if_pos (not_privileged_iff.mp (by simpa using hpriv))]

end Sys2Proof.Machine
end

section
/-! PROOFS. Data accesses (spec/20_memory.md R61, R63, R65, R68, R70): the memory primitives and their byte order, LDR with what the
environment does inside it, and the aborts of a non-secure processor. -/

namespace Sys2Proof.Machine

/-! ## Bytes and the words they make -/

/-- Where every byte of a range holds something the range can be read. -/
theorem readBytes_of_isSome {m : Memory} {a n : Nat} (h : ∀ k, k < n → (readByte m (a + k)).isSome = true) :
    ∃ bs, readBytes m a n = .ok bs := by
  induction n generalizing a with
  | zero => exact ⟨[], rfl⟩
  | succ n ih =>
    obtain ⟨b, hb⟩ := Option.isSome_iff_exists.mp (h 0 (by omega))
    obtain ⟨bs, hbs⟩ := ih (a := a + 1) fun k hk => by rw [Nat.add_assoc, Nat.add_comm 1]; exact h (k + 1) (by omega)
    exact ⟨b :: bs, by simp [readBytes, show readByte m a = some b from hb, hbs]⟩

/-- What a run of byte reads answers, byte by byte. -/
theorem readBytes_ok {m : Memory} {a n : Nat} {bs : List Byte} (h : readBytes m a n = .ok bs) :
    bs.length = n ∧ ∀ k, k < n → readByte m (a + k) = bs[k]? := by
  induction n generalizing a bs with
  | zero => obtain rfl := Except.ok.inj h; exact ⟨rfl, fun k hk => absurd hk (Nat.not_lt_zero k)⟩
  | succ n ih =>
    cases hb : readByte m a with
    | none => simp [readBytes, hb] at h
    | some b =>
      cases hrest : readBytes m (a + 1) n with
      | error j => simp [readBytes, hb, hrest] at h
      | ok rest =>
        obtain rfl : b :: rest = bs := by simpa [readBytes, hb, hrest] using h
        obtain ⟨hlength, hbytes⟩ := ih hrest
        refine ⟨congrArg (· + 1) hlength, fun k hk => ?_⟩
        cases k with
        | zero => exact hb
        | succ k => rw [List.getElem?_cons_succ, ← hbytes k (by omega), Nat.add_assoc, Nat.add_comm 1]

theorem littleValue_lt (bs : List Byte) : littleValue bs < 2 ^ (8 * bs.length) := by
  induction bs with
  | nil => decide
  | cons b bs ih =>
    have hb := b.isLt
    rw [List.length_cons, Nat.mul_succ, Nat.pow_add, littleValue]
    omega

/-- The bytes of a number that is made of bytes. -/
theorem littleValue_byte {bs : List Byte} {k : Nat} {b : Byte} (h : bs[k]? = some b) :
    littleValue bs / 2 ^ (8 * k) % 2 ^ 8 = b.toNat := by
  induction bs generalizing k with
  | nil => simp at h
  | cons c bs ih =>
    have hc := c.isLt
    cases k with
    | zero =>
      obtain rfl : c = b := by simpa using h
      simp only [littleValue]
      omega
    | succ k =>
      have hnext : littleValue (c :: bs) / 2 ^ 8 = littleValue bs := by simp only [littleValue]; omega
      rw [← ih (by simpa using h), Nat.mul_succ, Nat.add_comm, Nat.pow_add, ← Nat.div_div_eq_div_mul, hnext]

/-- A word made of at most four bytes, as a number (R63). -/
theorem toNat_assemble (big : Bool) {bs : List Byte} (hlength : bs.length ≤ 4) :
    (assemble big bs).toNat = littleValue (if big then bs.reverse else bs) ∧ (assemble big bs).toNat < 2 ^ (8 * bs.length) := by
  have hlt := littleValue_lt (if big then bs.reverse else bs)
  have hsame : (if big then bs.reverse else bs).length = bs.length := by cases big <;> simp
  rw [hsame] at hlt
  have hword : 2 ^ (8 * bs.length) ≤ 2 ^ 32 := Nat.pow_le_pow_right (by decide) (by omega)
  have hvalue : (assemble big bs).toNat = littleValue (if big then bs.reverse else bs) :=
    (BitVec.toNat_ofNat ..).trans (Nat.mod_eq_of_lt (by omega))
  exact ⟨hvalue, hvalue ▸ hlt⟩

/-- The bytes of a word made of at most four bytes: with `big` the first is the most significant (R63). -/
theorem extractLsb'_assemble (big : Bool) {bs : List Byte} {k : Nat} {b : Byte} (hlength : bs.length ≤ 4)
    (h : bs[k]? = some b) : (assemble big bs).extractLsb' (8 * (if big then bs.length - 1 - k else k)) 8 = b := by
  apply BitVec.eq_of_toNat_eq
  rw [BitVec.extractLsb'_toNat, Nat.shiftRight_eq_div_pow, (toNat_assemble big hlength).1]
  apply littleValue_byte
  cases big with
  | false => exact h
  | true =>
    obtain ⟨hk, -⟩ := List.getElem?_eq_some_iff.mp h
    simp only [if_true]
    rw [List.getElem?_reverse (by omega), ← h]
    congr 1
    omega

/-- The low bytes of a word put together again, for the sizes of R63. -/
theorem assemble_disassemble (big : Bool) (v : Word) {n : Nat} (hn : n = 1 ∨ n = 2 ∨ n = 4) :
    assemble big (disassemble big n v) = (v.extractLsb' 0 (8 * n)).setWidth 32 := by
  have horder : assemble big (disassemble big n v) = BitVec.ofNat 32 (littleValue (disassemble false n v)) := by
    cases big <;> simp [assemble, disassemble]
  have hv := v.isLt
  rw [horder]
  apply BitVec.eq_of_toNat_eq
  rcases hn with rfl | rfl | rfl <;>
    simp only [disassemble, List.range_succ, List.range_zero, List.map_cons, List.map_nil, List.nil_append,
      List.cons_append, Bool.false_eq_true, if_false, littleValue, BitVec.toNat_ofNat, BitVec.extractLsb'_toNat,
      Nat.shiftRight_eq_div_pow, BitVec.toNat_setWidth] <;>
    omega

/-! ## When an access does not complete -/

theorem memRead_of_wrap {s : State} {a : Word} {n : Nat} (h : 2 ^ 32 < a.toNat + n) : memRead s a n = .refused .addressWrap :=
  if_pos h

theorem memWrite_of_wrap {s : State} {a v : Word} {n : Nat} (h : 2 ^ 32 < a.toNat + n) :
    memWrite s a n v = .refused .addressWrap := if_pos h

theorem memRead_of_violation {s : State} {a : Word} {n : Nat} (hroom : a.toNat + n ≤ 2 ^ 32)
    (hv : s.secureViolation a.toNat n = true) : memRead s a n = .abort :=
  (if_neg (Nat.not_lt.mpr hroom)).trans (if_pos hv)

theorem memWrite_of_violation {s : State} {a v : Word} {n : Nat} (hroom : a.toNat + n ≤ 2 ^ 32)
    (hv : s.secureViolation a.toNat n = true) : memWrite s a n v = .abort :=
  (if_neg (Nat.not_lt.mpr hroom)).trans (if_pos hv)

theorem memRead_of_unreadable {s : State} {a : Word} {n k : Nat} (hroom : a.toNat + n ≤ 2 ^ 32)
    (hp : s.secureViolation a.toNat n = false) (h : readBytes s.mem a.toNat n = .error k) :
    memRead s a n = .fault (.unwrittenMemory k) := by
  rw [memRead, if_neg (Nat.not_lt.mpr hroom), if_neg (by rw [hp]; decide), h]

/-- Settles O26: a read assembles the bytes it finds and a write disassembles its value, which undo each other. -/
theorem memoryAccessesFollowTheByteOrder : Obligations.MemoryAccessesFollowTheByteOrder := by
  intro s a v n hn
  have hfour : n ≤ 4 := by omega
  refine ⟨rfl, fun hread => ?bytesRead, fun hroom hp hwritten => ?completes, fun hroom hp htext => ?write,
    fun k hk hroom hp hnone hbelow => memRead_of_unreadable hroom hp (readBytes_error hk hnone hbelow),
    fun hwrap => ⟨memRead_of_wrap hwrap, memWrite_of_wrap hwrap⟩,
    fun hroom hv => ⟨memRead_of_violation hroom hv, memWrite_of_violation hroom hv⟩⟩
  case bytesRead =>
    obtain ⟨-, -, bs, hbs, rfl⟩ := memRead_ok hread
    obtain ⟨rfl, hbytes⟩ := readBytes_ok hbs
    refine ⟨(toNat_assemble _ hfour).2, fun k hk => ?_⟩
    rw [extractLsb'_assemble _ hfour (List.getElem?_eq_getElem hk), hbytes k hk, List.getElem?_eq_getElem hk]
  case completes =>
    obtain ⟨bs, hbs⟩ := readBytes_of_isSome hwritten
    exact ⟨_, memRead_of_readable hroom hp hbs⟩
  case write =>
    have hlength := disassemble_length s.bigEndian n v
    refine ⟨_, memWrite_of_writable v hroom hp htext, rfl, fun x hx => ?outside,
      fun hwf => memoryWf_writeBytes hwf (by rwa [hlength]), fun k hk => ?inside, ?readBack⟩
    case outside => exact readByte_writeBytes_outside _ _ _ _ (by rwa [hlength])
    case inside => exact (readByte_writeBytes_inside _ _ _ _ (by rwa [hlength])).trans (disassemble_getElem? _ v hk)
    case readBack =>
      have hback := readBytes_writeBytes s.mem a.toNat (disassemble s.bigEndian n v)
      rw [hlength] at hback
      have hmem : memRead { s with mem := writeBytes s.mem a.toNat (disassemble s.bigEndian n v) } a n
          = .ok (assemble s.bigEndian (disassemble s.bigEndian n v)) := memRead_of_readable hroom hp hback
      exact hmem.trans (congrArg Access.ok (assemble_disassemble _ v hn))

/-! ## An ordinary load, while the environment may act -/

theorem afterAccess_eq_after (s : State) (es : List AccessEvent) : afterAccess s es = Claims.after s es := by
  induction es generalizing s with
  | nil => rfl
  | cons e es ih =>
    cases e with
    | byte j => exact ih s
    | act e => exact ih (envAct s e)

/-- Events before the first read of a byte only move the state on. -/
theorem byteDuring_append {before : List AccessEvent} {k : Fin 4} (h : .byte k ∉ before) (s : State) (a : Nat)
    (rest : List AccessEvent) : byteDuring s a k (before ++ rest) = byteDuring (Claims.after s before) a k rest := by
  induction before generalizing s with
  | nil => rfl
  | cons e before ih =>
    have hrest : .byte k ∉ before := fun hmem => h (List.mem_cons_of_mem e hmem)
    cases e with
    | byte j =>
      have hj : j ≠ k := fun hj => h (hj ▸ List.mem_cons_self)
      exact (if_neg hj).trans (ih hrest s)
    | act e => exact ih hrest (envAct s e)

/-- The model reads each byte where the events first say so, or at the end (R68, D10). -/
theorem byteDuring_of_readDuring {s : State} {a : Word} {es : List AccessEvent} {k : Fin 4} {v : Byte}
    (h : Claims.readDuring s a es k v) : byteDuring s a.toNat k es = some v := by
  obtain ⟨before, rest, rfl, hbefore, hrest, hbyte⟩ := h
  rw [byteDuring_append hbefore]
  rcases rest with - | ⟨e, rest⟩
  · exact hbyte
  · obtain rfl : e = .byte k := by simpa using hrest
    exact (if_pos rfl).trans hbyte

/-- An unaligned load at v6 whose bytes, as they are read, make up the word `v`. -/
theorem loadWord_of_readDuring {s : State} {a v : Word} (hv6 : s.params.arch = .v6) (ha : wordAligned a = false)
    (hroom : a.toNat + 4 ≤ 2 ^ 32) (hp : Claims.permitted s a)
    (hbytes : ∀ k : Fin 4, Claims.readDuring s a (s.torn.headD []) k
      (v.extractLsb' (8 * (if s.bigEndian then 3 - k.val else k.val)) 8)) :
    loadWord s a = .ok (v, { Claims.after s (s.torn.headD []) with torn := s.torn.tail }) := by
  have hbyte (k : Fin 4) := byteDuring_of_readDuring (hbytes k)
  have hread : bytesDuring s a.toNat (s.torn.headD []) =
      .ok ((List.range 4).map fun k => v.extractLsb' (8 * (if s.bigEndian then 3 - k else k)) 8) := by
    simp only [bytesDuring, hbyte]
    rfl
  have hword : assemble s.bigEndian ((List.range 4).map fun k => v.extractLsb' (8 * (if s.bigEndian then 3 - k else k)) 8) = v := by
    cases s.bigEndian <;> exact littleValue_word v
  have hpermitted : ¬ s.secureViolation a.toNat 4 = true := by rw [hp]; decide
  rw [loadWord, if_neg (by simp [ha]), if_pos hv6, unalignedRead, if_neg (Nat.not_lt.mpr hroom), if_neg hpermitted]
  simp only [hread, hword, afterAccess_eq_after]

/-- With no event scheduled the bytes are as they stand. -/
theorem readDuring_nil {s : State} {a v : Word} (h : Claims.holdsWord s.bigEndian s.mem a v) (k : Fin 4) :
    Claims.readDuring s a [] k (v.extractLsb' (8 * (if s.bigEndian then 3 - k.val else k.val)) 8) :=
  ⟨[], [], rfl, List.not_mem_nil, Or.inl rfl, h k k.isLt⟩

theorem loadWord_of_aligned {s : State} {a v : Word} (ha : wordAligned a = true) (hp : Claims.permitted s a)
    (hv : Claims.holdsWord s.bigEndian s.mem a v) : loadWord s a = .ok (v, s) := by
  obtain ⟨bs, hbs, hval⟩ := readBytes_of_holdsWord hv
  rw [loadWord, if_pos ha, memRead_of_readable (wordAligned_room ha).2 hp hbs, hval]
  rfl

/-- A load that every alignment rule lets pass aborts where R70 says so. -/
theorem loadWord_of_violation {s : State} {a : Word} (halign : s.params.arch = .v6 ∨ wordAligned a = true)
    (hroom : a.toNat + 4 ≤ 2 ^ 32) (hv : s.secureViolation a.toNat 4 = true) : loadWord s a = .abort := by
  by_cases ha : wordAligned a = true
  · rw [loadWord, if_pos ha, memRead_of_violation hroom hv]
    rfl
  · rw [loadWord, if_neg ha, if_pos (halign.resolve_right ha), unalignedRead, if_neg (Nat.not_lt.mpr hroom), if_pos hv]

theorem loadWord_of_unaligned {s : State} {a : Word} (hbelow : s.params.arch ≠ .v6) (ha : wordAligned a = false) :
    loadWord s a = .refused .unalignedBeforeV6 := by
  rw [loadWord, if_neg (by simp [ha]), if_neg hbelow]

/-! ## LDR -/

/-- The base after LDR is the exact sum or difference modulo 2^32. -/
theorem postIndexed_eq_ofInt (a : Word) (add : Bool) (imm12 : BitVec 12) : postIndexed a add imm12
    = BitVec.ofInt 32 (if add then (a.toNat : Int) + imm12.toNat else (a.toNat : Int) - imm12.toNat) := by
  have himm : ((imm12.setWidth 32).toNat : Int) = imm12.toNat := by
    rw [BitVec.toNat_setWidth, Nat.mod_eq_of_lt (imm12.isLt.trans (by decide))]
  cases add with
  | false => rw [postIndexed, if_neg Bool.false_ne_true, if_neg Bool.false_ne_true, sub_eq_ofInt, himm]
  | true => simp [postIndexed, BitVec.ofInt_add]

/-- Writing two registers and going on. -/
theorem advance_setReg_setReg {s : State} {r r' : Reg} (v v' : Word) (hr : r ≠ 15) (hr' : r' ≠ 15) (hne : r ≠ r')
    (hroom : Claims.hasRoom s) :
    ∃ t, ((s.setReg r v).setReg r' v').advance = .next t ∧ Claims.onlyWrites s t [r, r'] [] ∧ t.reg r = v
      ∧ t.reg r' = v' := by
  have hpc : ((s.setReg r v).setReg r' v').pc = s.pc := (setReg_pc _ _ _ hr').trans (setReg_pc _ _ _ hr)
  obtain ⟨hpc', hframe⟩ := onlyWrites_setReg (s.setReg r v) v' hr'
  refine ⟨_, advance_of_lt (by rw [hpc]; exact hroom),
    ⟨by rw [hpc', setReg_pc _ _ _ hr], frame_trans (setReg_mode ..) (frame_setReg s v hr) hframe⟩, ?_, ?_⟩
  · rw [reg_withPc _ _ _ hr, reg_setReg_other _ _ _ _ hr' hne, reg_setReg_same _ _ _ hr]
  · rw [reg_withPc _ _ _ hr', reg_setReg_same _ _ _ hr']

/-- LDR after a load that answers `v` and leaves `u`. -/
theorem exec_ldrPost_of_loadWord {c : Cond} {add : Bool} {rd rn : Reg} {imm12 : BitVec 12} {s u : State} {v : Word}
    (hruns : Claims.runs .v5 c [rd, rn] s) (hdn : rd ≠ rn) (hload : loadWord s (s.reg rn) = .ok (v, u)) :
    ∃ t, exec (.ldrPost c add rd rn imm12) s = .next t ∧ Claims.onlyWrites u t [rd, rn] [] ∧ t.reg rd = v ∧ t.reg rn
      = BitVec.ofInt 32 (if add then ((s.reg rn).toNat : Int) + imm12.toNat else ((s.reg rn).toNat : Int) - imm12.toNat) := by
  obtain ⟨⟨-, hc⟩, hr15, hroom⟩ := hruns
  obtain ⟨hd, hn⟩ : (15 : Reg) ≠ rd ∧ (15 : Reg) ≠ rn := by simpa using hr15
  obtain ⟨-, hpc, -⟩ := loadWord_frame hload
  rw [exec_ldrPost_of_passed hc hd.symm hn.symm hdn, hload, andThen_ok, ← postIndexed_eq_ofInt]
  exact advance_setReg_setReg _ _ hd.symm hn.symm hdn (by rwa [Claims.hasRoom, hpc])

/-- Settles O58: the load by alignment and by what is scheduled inside it, then two register writes. -/
theorem ldrPostIndexed : Obligations.LdrPostIndexed := by
  intro c add rd rn imm12
  have hdistinct (hr15 : (15 : Reg) ∉ [rd, rn]) : rd ≠ 15 ∧ rn ≠ 15 := by simpa [eq_comm] using hr15
  refine ⟨fun s a v hruns hdn ha hwhen hroom hp hv => ?plain,
    fun s u a v es more hruns hdn ha hv6 hal hroom hp htorn hu hbytes => ?torn,
    fun s ⟨_, hc⟩ hr15 hdn hbelow hal => ?below, fun s ⟨_, hc⟩ hr15 hdn halign hroom hv => ?violation,
    fun s ⟨_, hc⟩ hr15 heq => ?equal, fun s ⟨_, hc⟩ hr15 => (conditional_of_passed hc).trans (withoutR15_of_mem hr15)⟩
  case plain =>
    subst ha
    refine exec_ldrPost_of_loadWord hruns hdn ?_
    by_cases ha : wordAligned (s.reg rn) = true
    · exact loadWord_of_aligned ha hp hv
    · obtain ⟨hv6, htorn⟩ := hwhen.resolve_left fun h => ha (wordAligned_iff.mpr h)
      have hload := loadWord_of_readDuring hv6 (by simpa using ha) hroom hp (by rw [htorn]; exact readDuring_nil hv)
      have hsame : ({ Claims.after s (s.torn.headD []) with torn := s.torn.tail } : State) = s := by
        rw [htorn]
        exact congrArg (fun more => ({ s with torn := more } : State)) htorn.symm
      rwa [hsame] at hload
  case torn =>
    subst ha hu
    refine exec_ldrPost_of_loadWord hruns hdn ?_
    have hload := loadWord_of_readDuring hv6 (wordAligned_eq_false_iff.mpr hal) hroom hp (by rw [htorn]; exact hbytes)
    rwa [htorn] at hload
  case below =>
    obtain ⟨hd, hn⟩ := hdistinct hr15
    rw [exec_ldrPost_of_passed hc hd hn hdn, loadWord_of_unaligned hbelow (wordAligned_eq_false_iff.mpr hal), andThen_refused]
  case violation =>
    obtain ⟨hd, hn⟩ := hdistinct hr15
    rw [← wordAligned_iff] at halign
    rw [exec_ldrPost_of_passed hc hd hn hdn, loadWord_of_violation halign hroom hv, andThen_abort]
  case equal =>
    refine (conditional_of_passed hc).trans ((withoutR15_of_not_mem hr15).trans ?_)
    rw [heq, beq_self_eq_true, refuseIf_true]

end Sys2Proof.Machine
end

section
/-! PROOFS. The accesses of a non-secure processor (spec/20_memory.md R70), and SRS and RFE, alone and as a pair
(spec/41_v6_control_sync_packing.md R143, R144). -/

namespace Sys2Proof.Machine

/-! ## SRS: two stores -/

theorem secureViolation_congr {s t : State} (hparams : t.params = s.params) (hns : t.ns = s.ns) (hcpsr : t.cpsr = s.cpsr)
    (a n : Nat) : t.secureViolation a n = s.secureViolation a n := by
  rw [State.secureViolation, State.secureViolation, nonSecure_congr hparams hns hcpsr, hparams]

theorem bigEndian_congr {s t : State} (hparams : t.params = s.params) (hcpsr : t.cpsr = s.cpsr) :
    t.bigEndian = s.bigEndian := by rw [State.bigEndian, State.bigEndian, hparams, hcpsr]

/-- Memory after stores of two words, the second at the next word address. -/
def State.memWithPair (s : State) (a v w : Word) : Memory :=
  State.memWithWord { s with mem := s.memWithWord a v } (a + 4#32) w

/-- Two neighbouring aligned words share no byte, also across the top of the address space (log 27). -/
theorem outside_add_four {a : Word} (ha : wordAligned a = true) {x : Nat} (hle : a.toNat ≤ x) (hlt : x < a.toNat + 4) :
    x < (a + 4#32).toNat ∨ (a + 4#32).toNat + 4 ≤ x := by
  have hmod := wordAligned_iff.mp ha
  have hnext : (a + 4#32).toNat = (a.toNat + 4) % 2 ^ 32 := BitVec.toNat_add ..
  have hword := a.isLt
  omega

theorem holdsWord_memWithPair_low (s : State) {a : Word} (v w : Word) (ha : wordAligned a = true) :
    Claims.holdsWord s.bigEndian (s.memWithPair a v w) a v := fun k hk =>
  (readByte_memWithWord_outside _ _ w (outside_add_four ha (Nat.le_add_right ..) (Nat.add_lt_add_left hk _))).trans
    (holdsWord_memWithWord s a v k hk)

theorem holdsWord_memWithPair_high (s : State) (a v w : Word) :
    Claims.holdsWord s.bigEndian (s.memWithPair a v w) (a + 4#32) w :=
  holdsWord_memWithWord { s with mem := s.memWithWord a v } (a + 4#32) w

theorem readByte_memWithPair_outside (s : State) (a v w : Word) {x : Nat} (hlow : x < a.toNat ∨ a.toNat + 4 ≤ x)
    (hhigh : x < (a + 4#32).toNat ∨ (a + 4#32).toNat + 4 ≤ x) : readByte (s.memWithPair a v w) x = readByte s.mem x :=
  (readByte_memWithWord_outside _ _ w hhigh).trans (readByte_memWithWord_outside s a v hlow)

section
variable {s : State} {am : AddrMode} {wb : Bool} {saved a : Word} {m : Mode} (hv6 : s.params.arch = .v6)
  (hsaved : spsrOf s.spsr s.mode = some saved) (hpair : a = pairAddress am (s.phys (stackReg m))) (ha : wordAligned a = true)
include hv6 hsaved hpair ha

/-- SRS once both stores are allowed. -/
theorem exec_srs_of_writable (hp : Claims.permitted s a) (hp4 : Claims.permitted s (a + 4#32)) (ht : Claims.notText s a)
    (ht4 : Claims.notText s (a + 4#32)) :
    exec (.srs am wb m.bits) s = State.advance
      (if wb then State.setPhys { s with mem := s.memWithPair a (s.reg 14) saved } (stackReg m)
        (pairBase am (s.phys (stackReg m))) else { s with mem := s.memWithPair a (s.reg 14) saved }) := by
  have hsecond (mem : Memory) := storeAligned_of_writable (s := { s with mem := mem }) saved (wordAligned_add_four ha) hp4 ht4
  rw [exec_srs_of_spsr hv6 hsaved, ← hpair, storeAligned_of_writable _ ha hp ht, andThen_ok, hsecond, andThen_ok]
  rfl

/-- SRS where R70 rejects the first store, or allows it and rejects the second. -/
theorem exec_srs_of_violation (h : s.secureViolation a.toNat 4 = true ∨ (Claims.permitted s a ∧ Claims.notText s a
    ∧ s.secureViolation (a + 4#32).toNat 4 = true)) : exec (.srs am wb m.bits) s = .next (takeException .dataAbort s) := by
  rw [exec_srs_of_spsr hv6 hsaved, ← hpair]
  rcases h with hv | ⟨hp, ht, hv⟩
  · rw [storeAligned_of_violation _ ha hv, andThen_abort]
  · have hsecond (mem : Memory) := storeAligned_of_violation (s := { s with mem := mem }) saved (wordAligned_add_four ha) hv
    rw [storeAligned_of_writable _ ha hp ht, andThen_ok, hsecond, andThen_abort]

end

theorem exec_srs_of_no_spsr {s : State} {am : AddrMode} {wb : Bool} {mode : BitVec 5} (hv6 : s.params.arch = .v6)
    (h : spsrOf s.spsr s.mode = none) : exec (.srs am wb mode) s = .refused .noSpsr := by
  simp only [exec, execSrs, atLevel_of_v6 hv6, h]

theorem exec_srs_of_illegal_mode {s : State} {am : AddrMode} {wb : Bool} {mode : BitVec 5} {saved : Word}
    (hv6 : s.params.arch = .v6) (h : spsrOf s.spsr s.mode = some saved) (hmode : Mode.ofBits mode = none) :
    exec (.srs am wb mode) s = .refused .illegalMode := by
  simp only [exec, execSrs, atLevel_of_v6 hv6, h, hmode]

/-- Settles O38: past its checks SRS is two stores to disjoint words and a write to one banked register. -/
theorem srsSavesTheReturnState : Obligations.SrsSavesTheReturnState := by
  refine ⟨fun base => ⟨rfl, rfl, rfl, rfl, rfl, rfl, rfl, rfl⟩,
    fun s am wb saved a m hv6 hsaved hpair ha hp hp4 ht ht4 hroom => ?completes,
    fun s am wb mode hv6 hmode => exec_srs_of_no_spsr hv6 ?noSpsr, fun s am wb mode hv6 hspsr hmode => ?illegal,
    fun s am wb saved a m hv6 hsaved hpair => ⟨fun hal => ?unaligned,
      fun ha h => exec_srs_of_violation hv6 hsaved hpair ha h⟩⟩
  case completes =>
    refine ⟨_, (exec_srs_of_writable hv6 hsaved hpair ha hp hp4 ht ht4).trans (advance_of_lt ?room), ?low, ?high,
      fun x hlow hhigh => ?outside, fun p => ?phys, ?pc, ?cpsr, ?reservation, ?system, ?freeCount⟩
    case room => cases wb <;> exact hroom
    case low => cases wb <;> exact holdsWord_memWithPair_low s _ _ ha
    case high => cases wb <;> exact holdsWord_memWithPair_high s a _ _
    case outside => cases wb <;> exact readByte_memWithPair_outside s a _ _ hlow hhigh
    case phys =>
      cases wb with
      | false => exact (if_neg (by simp)).symm
      | true => exact (phys_setPhys s (stackReg m) p _).trans (by simp)
    case system => cases wb <;> exact ⟨rfl, rfl, rfl, rfl, rfl, rfl, rfl, rfl⟩
    case pc | cpsr | reservation | freeCount => cases wb <;> rfl
  case noSpsr => rcases hmode with h | h <;> rw [h] <;> rfl
  case illegal =>
    obtain ⟨saved, hsaved⟩ := Option.isSome_iff_exists.mp hspsr
    exact exec_srs_of_illegal_mode hv6 hsaved hmode
  case unaligned =>
    rw [exec_srs_of_spsr hv6 hsaved, ← hpair, storeAligned_of_unaligned (wordAligned_eq_false_iff.mpr hal), andThen_refused]

/-! ## RFE: two loads and a return -/

theorem returnFromException_of_legal {s : State} {newPc newCpsr : Word} (hmode : (Mode.ofBits (psrMode newCpsr)).isSome = true) :
    returnFromException s newPc newCpsr = (s.setCpsr newCpsr).jump newPc := by
  obtain ⟨m, hm⟩ := Option.isSome_iff_exists.mp hmode
  simp only [returnFromException, hm]

theorem returnFromException_of_illegal {s : State} {newPc newCpsr : Word} (hmode : Mode.ofBits (psrMode newCpsr) = none) :
    returnFromException s newPc newCpsr = .refused .illegalMode := by
  simp only [returnFromException, hmode]

section
variable {s : State} {am : AddrMode} {wb : Bool} {rn : Reg} {a : Word} (hv6 : s.params.arch = .v6) (hpriv : s.privileged = true)
  (hn : rn ≠ 15) (hpair : a = pairAddress am (s.reg rn)) (ha : wordAligned a = true)
include hv6 hpriv hn hpair ha

/-- RFE once both loads have given their words. -/
theorem exec_rfe_of_readable {newPc newCpsr : Word} (hp : Claims.permitted s a) (hp4 : Claims.permitted s (a + 4#32))
    (hpc : Claims.holdsWord s.bigEndian s.mem a newPc) (hcpsr : Claims.holdsWord s.bigEndian s.mem (a + 4#32) newCpsr) :
    exec (.rfe am wb rn) s
      = returnFromException (if wb then s.setReg rn (pairBase am (s.reg rn)) else s) newPc newCpsr := by
  rw [exec_rfe_of_privileged hv6 hpriv hn, ← hpair, loadAligned_of_holdsWord ha hp hpc, andThen_ok,
    loadAligned_of_holdsWord (wordAligned_add_four ha) hp4 hcpsr, andThen_ok]

/-- RFE where R70 rejects the first load, or allows it and rejects the second. -/
theorem exec_rfe_of_violation {newPc : Word} (h : s.secureViolation a.toNat 4 = true ∨ (Claims.permitted s a
    ∧ Claims.holdsWord s.bigEndian s.mem a newPc ∧ s.secureViolation (a + 4#32).toNat 4 = true)) :
    exec (.rfe am wb rn) s = .next (takeException .dataAbort s) := by
  rw [exec_rfe_of_privileged hv6 hpriv hn, ← hpair]
  rcases h with hv | ⟨hp, hpc, hv⟩
  · rw [loadAligned_of_violation ha hv, andThen_abort]
  · rw [loadAligned_of_holdsWord ha hp hpc, andThen_ok, loadAligned_of_violation (wordAligned_add_four ha) hv, andThen_abort]

end

/-- Settles O39: past its checks RFE is two loads and a return, whose write-back is in the bank of the old mode. -/
theorem rfeReturns : Obligations.RfeReturns := by
  intro s am wb rn a newPc newCpsr hv6 hn hpair
  simp only [← privileged_iff, ← not_privileged_iff]
  refine ⟨fun hpriv ha hp hp4 hpc hcpsr => ?loaded, fun hpriv hal => ?unaligned,
    fun hpriv ha h => exec_rfe_of_violation hv6 hpriv hn hpair ha h, fun huser => ?user⟩
  case loaded =>
    rw [exec_rfe_of_readable hv6 hpriv hn hpair ha hp hp4 hpc hcpsr]
    refine ⟨fun hmode htarget => ?returns, returnFromException_of_illegal, fun hmode hT hal => ?misaligned⟩
    case returns =>
      have halign : psrT newCpsr = false → wordAligned newPc = true := fun hT =>
        wordAligned_iff.mpr (htarget.resolve_left (by rw [show newCpsr.getLsbD 5 = false from hT]; decide))
      refine ⟨_, (returnFromException_of_legal hmode).trans (jump_of_aligned halign), rfl, rfl, fun p => ?phys, ?memory,
        ?reservation, ?system, ?freeCount⟩
      case phys =>
        cases wb with
        | false => exact (if_neg (by simp)).symm
        | true => exact (phys_setReg s rn _ p).trans (by simp)
      case memory => intro x; cases wb <;> simp
      case system => cases wb <;> simp [Claims.sameSystem]
      case reservation | freeCount => cases wb <;> simp
    case misaligned =>
      rw [returnFromException_of_legal hmode]
      exact jump_of_misaligned hT (wordAligned_eq_false_iff.mpr hal)
  case unaligned =>
    rw [exec_rfe_of_privileged hv6 hpriv hn, ← hpair, loadAligned_of_unaligned (wordAligned_eq_false_iff.mpr hal),
      andThen_refused]
  case user =>
    have hr15 : (15 : Reg) ∉ [rn] := by simpa using hn.symm
    exact (atLevel_of_v6 hv6).trans ((withoutR15_of_not_mem hr15).trans (if_neg (by simp [huser])))

/-! ## SRS and RFE as a pair -/

/-- In a mode with an SPSR, register 13 is that mode's own stack pointer (R22). -/
theorem bankedReg_thirteen {f : SpsrFile} {m : Mode} {saved : Word} (h : spsrOf f m = some saved) :
    bankedReg m 13 = some (stackReg m) := by
  cases m with
  | user | system => exact nomatch h
  | fiq | supervisor | abort | irq | undefined | monitor => rfl

/-- Settles O25: SRS leaves the two words that RFE loads, and their write-backs undo each other. -/
theorem saveThenReturn : Obligations.SaveThenReturn := by
  intro s saved m hv6 hm hsaved hlegal hlr hsp hp hp4 ht ht4 hroom
  obtain ⟨-, hsrs, -⟩ := srsSavesTheReturnState
  have hmode : s.mode = m := mode_of_ofBits hm
  have hbank : bankedReg m 13 = some (stackReg m) := bankedReg_thirteen hsaved
  have hbase : s.reg 13 = s.phys (stackReg m) := reg_of_bankedReg (by rw [hmode, hbank])
  have ha : wordAligned (s.reg 13 - 8#32) = true := (wordAligned_pairAddress .db (s.reg 13)).trans hsp
  rw [← hmode] at hsaved
  obtain ⟨t, hexec, hlow, hhigh, -, hphys, -, hcpsr, -, ⟨-, hns, hparams, -⟩, -⟩ :=
    hsrs s .db true saved (s.reg 13 - 8#32) m hv6 hsaved (by rw [hbase]; rfl) ha hp hp4 ht ht4 hroom
  have hmode' : t.mode = m := by rw [State.mode, hcpsr]; exact hmode
  have hbase' : t.reg 13 = s.reg 13 - 8#32 := by
    rw [reg_of_bankedReg (s := t) (by rw [hmode', hbank]), hphys, if_pos ⟨rfl, rfl⟩, hbase]
    rfl
  have hpriv : t.privileged = true := by rw [State.privileged, hcpsr]; exact privileged_of_spsr s hsaved
  have hpermitted {x : Word} (h : Claims.permitted s x) : Claims.permitted t x :=
    (secureViolation_congr hparams hns hcpsr ..).trans h
  obtain ⟨hloaded, -⟩ := rfeReturns t .ia true 13 (s.reg 13 - 8#32) (s.reg 14) saved (by rwa [hparams]) (by decide) hbase'.symm
  rw [bigEndian_congr hparams hcpsr] at hloaded
  obtain ⟨hreturns, -⟩ := hloaded (privileged_iff.mp hpriv) ha (hpermitted hp) (hpermitted hp4) hlow hhigh
  obtain ⟨u, hexec', hpc, hcpsr', hphys', -⟩ := hreturns hlegal <| by
    cases hT : saved.getLsbD 5 with
    | true => exact Or.inl rfl
    | false => exact Or.inr (wordAligned_iff.mp (hlr hT))
  refine ⟨t, u, hexec, hbase', hexec', hpc, hcpsr', fun p => ?phys⟩
  rw [hphys', hmode', hbank, hphys]
  by_cases hstack : p = stackReg m
  · subst hstack
    rw [if_pos ⟨rfl, rfl⟩, hbase', ← hbase]
    exact BitVec.sub_add_cancel _ _
  · rw [if_neg (by simp [Ne.symm hstack]), if_neg (by simp [hstack])]

/-! ## Accesses of a non-secure processor -/

theorem nonSecure_iff {s : State} : s.nonSecure = true ↔
    s.params.hasTrustZone = true ∧ s.ns = true ∧ s.cpsr.extractLsb' 0 5 ≠ 0b10110#5 := by
  rw [State.nonSecure, Bool.and_eq_true, Bool.and_eq_true, bne_iff_ne, and_assoc]
  rfl

theorem rangeInRegions_iff {rs : List Region} {a n : Nat} :
    rangeInRegions rs a n = true ↔ ∃ k, k < n ∧ ∃ r ∈ rs, r.base ≤ a + k ∧ a + k < r.base + r.size := by
  simp [rangeInRegions, inRegions]

/-- Settles O24: each instruction's first rejected access is its abort, with the checks before it passed. -/
theorem nonSecureAccessAborts : Obligations.NonSecureAccessAborts := by
  intro s c rd rn rm am wb
  refine ⟨nonSecure_iff, fun a n => ?violation, fun add imm12 hc hd hn hdn halign hroom hv => ?ldr,
    fun hc hd hm hn hnd hnm ha hv => ?swp, fun hsel hd hn ha hv => ?ldrex, fun hsel hd hm hn hdm hdn ha hres hv => ?strex,
    fun saved m hv6 hsaved ha h => exec_srs_of_violation hv6 hsaved rfl ha h,
    fun v hv6 hpriv hn ha h => exec_rfe_of_violation hv6 hpriv hn rfl ha h, step_of_secure_fetch⟩
  case violation => rw [State.secureViolation, Bool.and_eq_true, rangeInRegions_iff]
  case ldr => rw [exec_ldrPost_of_passed hc hd hn hdn, loadWord_of_violation halign hroom hv, andThen_abort]
  case swp => rw [exec_swp_of_passed hc hd hm hn hnd hnm, loadAligned_of_violation ha hv, andThen_abort]
  case ldrex => rw [exec_ldrex_of_selected hsel hd hn, loadAligned_of_violation ha hv, andThen_abort]
  case strex =>
    rw [exec_strex_of_selected hsel hd hm hn hdm hdn, if_neg (by simp [ha]), if_pos hres, storeAligned_of_violation _ ha hv,
      andThen_abort]

end Sys2Proof.Machine
end

section
/-! PROOFS. Isolation of the secure world (spec/20_memory.md R70, spec/60_exceptions.md R310): each operation of the model takes two
states of a non-secure processor that differ only in secure memory to outcomes that differ only there, and so does a step. -/

/-! ## What keeps two states alike -/

namespace Sys2Proof.Claims

open Sys2Proof.Machine

section
variable {s s' : State} (h : agreeOutsideSecure s s')
include h

theorem agreeOutsideSecure.readByte {a : Nat} (ha : inRegions s.params.secureRegions a = false) :
    readByte s'.mem a = readByte s.mem a := by
  obtain ⟨m, rfl, hm⟩ := h
  exact hm a ha

theorem agreeOutsideSecure.nonSecure : s'.nonSecure = s.nonSecure := by
  obtain ⟨m, rfl, -⟩ := h
  rfl

theorem agreeOutsideSecure.setReg (r : Reg) (v : Word) : agreeOutsideSecure (s.setReg r v) (s'.setReg r v) := by
  obtain ⟨m, rfl, hm⟩ := h
  refine ⟨m, ?_, by simpa using hm⟩
  have hmode : ({ s with mem := m } : State).mode = s.mode := rfl
  rw [State.setReg, State.setReg, hmode]
  cases bankedReg s.mode r <;> rfl

theorem agreeOutsideSecure.setPhys (p : PhysReg) (v : Word) : agreeOutsideSecure (s.setPhys p v) (s'.setPhys p v) := by
  obtain ⟨m, rfl, hm⟩ := h
  exact ⟨m, rfl, hm⟩

theorem agreeOutsideSecure.setCpsr (w : Word) : agreeOutsideSecure (s.setCpsr w) (s'.setCpsr w) := by
  obtain ⟨m, rfl, hm⟩ := h
  exact ⟨m, rfl, hm⟩

theorem agreeOutsideSecure.setPc (target : Word) : agreeOutsideSecure { s with pc := target } { s' with pc := target } := by
  obtain ⟨m, rfl, hm⟩ := h
  exact ⟨m, rfl, hm⟩

theorem agreeOutsideSecure.setReservation (r : Option Word) :
    agreeOutsideSecure { s with reservation := r } { s' with reservation := r } := by
  obtain ⟨m, rfl, hm⟩ := h
  exact ⟨m, rfl, hm⟩

theorem agreeOutsideSecure.setTorn (es : List (List AccessEvent)) :
    agreeOutsideSecure { s with torn := es } { s' with torn := es } := by
  obtain ⟨m, rfl, hm⟩ := h
  exact ⟨m, rfl, hm⟩

theorem agreeOutsideSecure.takeException (e : Exception) : agreeOutsideSecure (takeException e s) (takeException e s') := by
  obtain ⟨m, rfl, hm⟩ := h
  exact ⟨m, rfl, hm⟩

theorem agreeOutsideSecure.takePending (e : Exception) : agreeOutsideSecure (takePending e s) (takePending e s') := by
  obtain ⟨m, rfl, hm⟩ := h
  cases e <;> exact ⟨m, rfl, hm⟩

/-! ## Outcomes that look alike -/

theorem agreeOutsideSecure.advance : sameOutcomeOutsideSecure s.advance s'.advance := by
  obtain ⟨m, rfl, hm⟩ := h
  unfold State.advance
  dsimp only
  split_ifs
  · exact ⟨m, rfl, hm⟩
  · exact rfl

theorem agreeOutsideSecure.jump (target : Word) : sameOutcomeOutsideSecure (s.jump target) (s'.jump target) := by
  obtain ⟨m, rfl, hm⟩ := h
  unfold State.jump
  dsimp only
  split_ifs
  · exact rfl
  · exact ⟨m, rfl, hm⟩

theorem agreeOutsideSecure.returnFromException (newPc newCpsr : Word) :
    sameOutcomeOutsideSecure (returnFromException s newPc newCpsr) (returnFromException s' newPc newCpsr) := by
  unfold Machine.returnFromException
  split
  · exact rfl
  · exact (h.setCpsr newCpsr).jump newPc

variable {body body' : Result} (hbody : sameOutcomeOutsideSecure body body')

include hbody in
theorem agreeOutsideSecure.atLevel (need : Arch) : sameOutcomeOutsideSecure (atLevel need s body) (atLevel need s' body') := by
  obtain ⟨m, rfl, -⟩ := h
  unfold Machine.atLevel
  dsimp only
  split_ifs
  · exact hbody
  · exact rfl

include hbody in
theorem agreeOutsideSecure.conditional (c : Cond) : sameOutcomeOutsideSecure (conditional c s body) (conditional c s' body') := by
  have hadvance := h.advance
  obtain ⟨m, rfl, -⟩ := h
  unfold Machine.conditional
  dsimp only
  split_ifs
  · exact hbody
  · exact hadvance

omit h in
include hbody in
theorem sameOutcomeOutsideSecure.withoutR15 (rs : List Reg) :
    sameOutcomeOutsideSecure (withoutR15 rs body) (withoutR15 rs body') := by
  unfold Machine.withoutR15
  split_ifs
  · exact rfl
  · exact hbody

omit h in
include hbody in
theorem sameOutcomeOutsideSecure.refuseIf (bad : Bool) :
    sameOutcomeOutsideSecure (refuseIf bad body) (refuseIf bad body') := by
  unfold Machine.refuseIf
  split_ifs
  · exact rfl
  · exact hbody

theorem agreeOutsideSecure.registerStep {u u' : State} (hu : agreeOutsideSecure u u') (need : Arch) (c : Cond) (rs : List Reg) :
    sameOutcomeOutsideSecure (registerStep need c rs s u) (registerStep need c rs s' u') :=
  h.atLevel (h.conditional (sameOutcomeOutsideSecure.withoutR15 hu.advance rs) c) need

theorem agreeOutsideSecure.longStep {u u' : State} (hu : agreeOutsideSecure u u') (need : Arch) (c : Cond)
    (rdLo rdHi rm rs : Reg) :
    sameOutcomeOutsideSecure (longStep need c rdLo rdHi rm rs s u) (longStep need c rdLo rdHi rm rs s' u') :=
  h.atLevel (h.conditional ((sameOutcomeOutsideSecure.refuseIf hu.advance _).withoutR15 _) c) need

end

/-! ## The environment -/

theorem agreeOutsideSecure.envAct {s s' : State} (h : agreeOutsideSecure s s') (e : EnvAction) :
    agreeOutsideSecure (envAct s e) (envAct s' e) := by
  obtain ⟨m, rfl, hm⟩ := h
  cases e with
  | writeByte a v =>
    refine ⟨writeByte m a.toNat v, rfl, fun x hx => ?_⟩
    by_cases hxa : x = a.toNat
    · subst hxa
      exact (readByte_writeByte_same ..).trans (readByte_writeByte_same ..).symm
    · rw [readByte_writeByte_other _ _ _ _ hxa, hm x hx]
      exact (readByte_writeByte_other _ _ _ _ hxa).symm
  | clearReservation | setIrq | setFiq | impreciseAbort => exact ⟨m, rfl, hm⟩

theorem agreeOutsideSecure.envActs {s s' : State} (h : agreeOutsideSecure s s') (es : List EnvAction) :
    agreeOutsideSecure (es.foldl Machine.envAct s) (es.foldl Machine.envAct s') := by
  induction es generalizing s s' with
  | nil => exact h
  | cons e es ih => exact ih (h.envAct e)

theorem agreeOutsideSecure.environmentTurn {s s' : State} (h : agreeOutsideSecure s s') :
    agreeOutsideSecure (environmentTurn s) (environmentTurn s') := by
  obtain ⟨m, rfl, hm⟩ := h
  unfold Machine.environmentTurn
  dsimp only
  split
  next => exact ⟨m, rfl, hm⟩
  next acts rest _ => exact agreeOutsideSecure.envActs (s := { s with env := rest }) ⟨m, rfl, hm⟩ acts

theorem agreeOutsideSecure.afterAccess {s s' : State} (h : agreeOutsideSecure s s') (es : List AccessEvent) :
    agreeOutsideSecure (afterAccess s es) (afterAccess s' es) := by
  induction es generalizing s s' with
  | nil => exact h
  | cons e es ih =>
    cases e with
    | byte j => exact ih h
    | act e => exact ih (h.envAct e)

theorem agreeOutsideSecure.byteDuring {s s' : State} (h : agreeOutsideSecure s s') {a : Nat} {k : Fin 4} (es : List AccessEvent)
    (ha : inRegions s.params.secureRegions (a + k.val) = false) : byteDuring s' a k es = byteDuring s a k es := by
  induction es generalizing s s' with
  | nil => exact h.readByte ha
  | cons e es ih =>
    cases e with
    | byte j =>
      unfold Machine.byteDuring
      rw [h.readByte ha, ih h ha]
    | act e =>
      obtain ⟨-, -, -, -, -, hparams, -⟩ := envAct_frame s e
      exact ih (h.envAct e) (by rwa [hparams])

end Sys2Proof.Claims

namespace Sys2Proof.Machine

/-! ## Accesses of a non-secure processor -/

/-- Two accesses that stop alike, or complete with values that are related. -/
inductive AlikeAccess {α : Type} (P : α → α → Prop) : Access α → Access α → Prop
  | ok {v v' : α} (h : P v v') : AlikeAccess P (.ok v) (.ok v')
  | abort : AlikeAccess P .abort .abort
  | fault (f : Fault) : AlikeAccess P (.fault f) (.fault f)
  | refused (r : Refusal) : AlikeAccess P (.refused r) (.refused r)

theorem alikeAccess_of_eq {α : Type} {P : α → α → Prop} (hP : ∀ v, P v v) {a a' : Access α} (h : a' = a) :
    AlikeAccess P a a' := by
  subst h
  cases a' with
  | ok v => exact .ok (hP v)
  | abort => exact .abort
  | fault f => exact .fault f
  | refused r => exact .refused r

theorem sameOutcome_andThen {α : Type} {P : α → α → Prop} {a a' : Access α} {s s' : State} {k k' : α → Result}
    (h : Claims.agreeOutsideSecure s s') (ha : AlikeAccess P a a')
    (hk : ∀ v v', P v v' → Claims.sameOutcomeOutsideSecure (k v) (k' v')) :
    Claims.sameOutcomeOutsideSecure (a.andThen s k) (a'.andThen s' k') := by
  cases ha with
  | ok hv => exact hk _ _ hv
  | abort => exact h.takeException _
  | fault | refused => exact rfl

theorem inRegions_of_rangeInRegions_false {rs : List Region} {a n k : Nat} (h : rangeInRegions rs a n = false) (hk : k < n) :
    inRegions rs (a + k) = false := by
  rw [rangeInRegions, List.any_eq_false] at h
  simpa using h k (List.mem_range.mpr hk)

/-- A non-secure processor is let through only to memory that is not secure (R70). -/
theorem rangeInRegions_of_permitted {s : State} (hns : s.nonSecure = true) {a n : Nat} (hp : s.secureViolation a n = false) :
    rangeInRegions s.params.secureRegions a n = false := by simpa [State.secureViolation, hns] using hp

/-- The memories of two alike states after the same run of writes. -/
theorem readByte_writeBytes_congr {m m' : Memory} {x : Nat} (h : readByte m' x = readByte m x) (a : Nat) (bs : List Byte) :
    readByte (writeBytes m' a bs) x = readByte (writeBytes m a bs) x := by
  by_cases hin : a ≤ x ∧ x < a + bs.length
  · obtain ⟨hle, hlt⟩ := hin
    obtain ⟨k, rfl⟩ := Nat.exists_eq_add_of_le hle
    rw [readByte_writeBytes_inside _ _ _ _ (by omega), readByte_writeBytes_inside _ _ _ _ (by omega)]
  · rw [readByte_writeBytes_outside _ _ _ _ (by omega), readByte_writeBytes_outside _ _ _ _ (by omega), h]

section
variable {s s' : State} (hns : s.nonSecure = true) (h : Claims.agreeOutsideSecure s s')
include hns h

theorem readBytes_of_agree {a n : Nat} (hp : s.secureViolation a n = false) : readBytes s'.mem a n = readBytes s.mem a n :=
  readBytes_congr fun _ hk => h.readByte (inRegions_of_rangeInRegions_false (rangeInRegions_of_permitted hns hp) hk)

theorem bytesDuring_of_agree {a : Nat} (es : List AccessEvent) (hp : s.secureViolation a 4 = false) :
    bytesDuring s' a es = bytesDuring s a es := by
  have hbyte (k : Fin 4) := h.byteDuring es
    (inRegions_of_rangeInRegions_false (rangeInRegions_of_permitted hns hp) k.isLt)
  unfold bytesDuring
  rw [hbyte 0, hbyte 1, hbyte 2, hbyte 3]

theorem memRead_of_agree (a : Word) (n : Nat) : memRead s' a n = memRead s a n := by
  have hread := readBytes_of_agree hns h (a := a.toNat) (n := n)
  obtain ⟨m, rfl, -⟩ := h
  have hsame : ({ s with mem := m } : State).secureViolation a.toNat n = s.secureViolation a.toNat n := rfl
  rw [memRead, memRead, hsame]
  split_ifs with hwrap hv
  · rfl
  · rfl
  · rw [hread (by simpa using hv)]
    rfl

theorem loadAligned_of_agree (a : Word) : loadAligned s' a = loadAligned s a := by
  rw [loadAligned, loadAligned, memRead_of_agree hns h]

theorem fetchWord_of_agree : fetchWord s' = fetchWord s := by
  have hread := readBytes_of_agree hns h (a := s.pc.toNat) (n := 4)
  obtain ⟨m, rfl, -⟩ := h
  have hsame : ({ s with mem := m } : State).secureViolation s.pc.toNat 4 = s.secureViolation s.pc.toNat 4 := rfl
  rw [fetchWord, fetchWord]
  dsimp only at hread ⊢
  rw [hsame]
  split_ifs with hpc hv
  · rfl
  · rfl
  · rw [hread (by simpa using hv)]

/-- Loads give the same value and leave alike states. -/
theorem alike_loadWord (a : Word) :
    AlikeAccess (fun p p' => p'.1 = p.1 ∧ Claims.agreeOutsideSecure p.2 p'.2) (loadWord s a) (loadWord s' a) := by
  have hread := memRead_of_agree hns h a 4
  have hbytes := bytesDuring_of_agree hns h (a := a.toNat) (s.torn.headD [])
  have hafter := (h.afterAccess (s.torn.headD [])).setTorn s.torn.tail
  have hself := h
  obtain ⟨m, rfl, -⟩ := h
  have hsame : ({ s with mem := m } : State).secureViolation a.toNat 4 = s.secureViolation a.toNat 4 := rfl
  rw [loadWord, loadWord, hread, unalignedRead, unalignedRead, hsame]
  dsimp only
  split_ifs with haligned hv6 hwrap hv
  · cases memRead s a 4 with
    | ok v => exact .ok ⟨rfl, hself⟩
    | abort => exact .abort
    | fault f => exact .fault f
    | refused r => exact .refused r
  · exact .refused _
  · exact .abort
  · rw [hbytes (by simpa using hv)]
    cases bytesDuring s a.toNat (s.torn.headD []) with
    | ok bs => exact .ok ⟨rfl, hafter⟩
    | error k => exact .fault _
  · exact .refused _

/-- Stores leave alike states, still non-secure. -/
theorem alike_storeAligned (a v : Word) :
    AlikeAccess (fun u u' => u.nonSecure = true ∧ Claims.agreeOutsideSecure u u') (storeAligned s a v) (storeAligned s' a v) := by
  obtain ⟨m, rfl, hm⟩ := h
  have hsame : ({ s with mem := m } : State).secureViolation a.toNat 4 = s.secureViolation a.toNat 4 := rfl
  rw [storeAligned, storeAligned, memWrite, memWrite, hsame]
  dsimp only
  split_ifs
  · exact .refused _
  · exact .abort
  · exact .refused _
  · exact .ok ⟨hns, _, rfl, fun x hx => readByte_writeBytes_congr (hm x hx) _ _⟩
  · exact .refused _

end

/-! ## The instructions -/

section
variable {s s' : State} (hns : s.nonSecure = true) (h : Claims.agreeOutsideSecure s s')

include h in
theorem sameOutcome_cps (change : MaskChange) (mode : Option (BitVec 5)) :
    Claims.sameOutcomeOutsideSecure (exec (.cps change mode) s) (exec (.cps change mode) s') := by
  refine h.atLevel ?_ .v6
  have hadvance := h.advance
  have hnext (w : Word) := (h.setCpsr w).advance
  obtain ⟨m, rfl, -⟩ := h
  have hpriv : ({ s with mem := m } : State).privileged = s.privileged := rfl
  rw [hpriv]
  unfold changeMode
  dsimp only
  split
  · split
    · exact hnext _
    · split
      · exact rfl
      · exact rfl
      · exact hnext _
  · exact hadvance

include h in
theorem sameOutcome_smi (c : Cond) (imm16 : BitVec 16) :
    Claims.sameOutcomeOutsideSecure (exec (.smi c imm16) s) (exec (.smi c imm16) s') := by
  refine h.atLevel ?_ .v6
  have hentry (e : Exception) :=
    h.conditional (body := .next (takeException e s)) (body' := .next (takeException e s')) (h.takeException e) c
  obtain ⟨m, rfl, -⟩ := h
  have hpriv : ({ s with mem := m } : State).privileged = s.privileged := rfl
  rw [hpriv]
  dsimp only
  split
  · exact hentry _
  · exact rfl

include h in
theorem sameOutcome_bxj (c : Cond) (rm : Reg) :
    Claims.sameOutcomeOutsideSecure (exec (.bxj c rm) s) (exec (.bxj c rm) s') := by
  refine h.conditional (Claims.sameOutcomeOutsideSecure.withoutR15 ?_ _) c
  obtain ⟨m, rfl, hm⟩ := h
  have hself : Claims.agreeOutsideSecure s { s with mem := m } := ⟨m, rfl, hm⟩
  dsimp only
  split_ifs
  · exact ⟨m, rfl, hm⟩
  · exact (hself.setCpsr _).jump _

include hns h

theorem sameOutcome_srs (am : AddrMode) (wb : Bool) (mode : BitVec 5) :
    Claims.sameOutcomeOutsideSecure (exec (.srs am wb mode) s) (exec (.srs am wb mode) s') := by
  refine h.atLevel ?_ .v6
  have hself := h
  obtain ⟨m, rfl, -⟩ := h
  have hmode : ({ s with mem := m } : State).mode = s.mode := rfl
  rw [hmode]
  dsimp only
  split
  · exact rfl
  · exact rfl
  · refine sameOutcome_andThen hself (alike_storeAligned hns hself _ _) fun s1 s1' ⟨hns1, h1⟩ => ?_
    refine sameOutcome_andThen hself (alike_storeAligned hns1 h1 _ _) fun s2 s2' ⟨_, h2⟩ => ?_
    cases wb with
    | false => exact h2.advance
    | true => exact (h2.setPhys _ _).advance

theorem sameOutcome_rfe (am : AddrMode) (wb : Bool) (rn : Reg) :
    Claims.sameOutcomeOutsideSecure (exec (.rfe am wb rn) s) (exec (.rfe am wb rn) s') := by
  refine h.atLevel (Claims.sameOutcomeOutsideSecure.withoutR15 ?_ _) .v6
  have hload (a : Word) := alikeAccess_of_eq (P := Eq) (fun _ => rfl) (loadAligned_of_agree hns h a)
  have hself := h
  obtain ⟨m, rfl, -⟩ := h
  have hpriv : ({ s with mem := m } : State).privileged = s.privileged := rfl
  rw [hpriv]
  dsimp only
  split
  · refine sameOutcome_andThen hself (hload _) fun newPc _ hpc => sameOutcome_andThen hself (hload _) fun newCpsr _ hcpsr => ?_
    subst hpc hcpsr
    cases wb with
    | false => exact hself.returnFromException _ _
    | true => exact (hself.setReg _ _).returnFromException _ _
  · exact rfl

theorem sameOutcome_swp (c : Cond) (rd rm rn : Reg) :
    Claims.sameOutcomeOutsideSecure (exec (.swp c rd rm rn) s) (exec (.swp c rd rm rn) s') := by
  refine h.conditional ((Claims.sameOutcomeOutsideSecure.refuseIf ?_ _).withoutR15 _) c
  have hload (a : Word) := alikeAccess_of_eq (P := Eq) (fun _ => rfl) (loadAligned_of_agree hns h a)
  have hself := h
  obtain ⟨m, rfl, -⟩ := h
  refine sameOutcome_andThen hself (hload _) fun old _ hold => ?_
  subst hold
  exact sameOutcome_andThen hself (alike_storeAligned hns hself _ _) fun s1 s1' ⟨_, h1⟩ => (h1.setReg _ _).advance

theorem sameOutcome_ldrex (c : Cond) (rd rn : Reg) :
    Claims.sameOutcomeOutsideSecure (exec (.ldrex c rd rn) s) (exec (.ldrex c rd rn) s') := by
  refine h.atLevel (h.conditional (Claims.sameOutcomeOutsideSecure.withoutR15 ?_ _) c) .v6
  have hload (a : Word) := alikeAccess_of_eq (P := Eq) (fun _ => rfl) (loadAligned_of_agree hns h a)
  have hself := h
  obtain ⟨m, rfl, -⟩ := h
  refine sameOutcome_andThen hself (hload _) fun v _ hv => ?_
  subst hv
  exact ((hself.setReg _ _).setReservation _).advance

theorem sameOutcome_strex (c : Cond) (rd rm rn : Reg) :
    Claims.sameOutcomeOutsideSecure (exec (.strex c rd rm rn) s) (exec (.strex c rd rm rn) s') := by
  refine h.atLevel (h.conditional ((Claims.sameOutcomeOutsideSecure.refuseIf ?_ _).withoutR15 _) c) .v6
  have hself := h
  obtain ⟨m, rfl, -⟩ := h
  have hreg (r : Reg) : ({ s with mem := m } : State).reg r = s.reg r := rfl
  have hreserved (a : Word) : ({ s with mem := m } : State).reserved a = s.reserved a := rfl
  rw [hreg, hreg, hreserved]
  split_ifs
  · exact rfl
  · exact sameOutcome_andThen hself (alike_storeAligned hns hself _ _) fun s1 s1' ⟨_, h1⟩ =>
      ((h1.setReg _ _).setReservation _).advance
  · exact ((hself.setReg _ _).setReservation _).advance

theorem sameOutcome_ldrPost (c : Cond) (add : Bool) (rd rn : Reg) (imm12 : BitVec 12) :
    Claims.sameOutcomeOutsideSecure (exec (.ldrPost c add rd rn imm12) s) (exec (.ldrPost c add rd rn imm12) s') := by
  refine h.conditional ((Claims.sameOutcomeOutsideSecure.refuseIf ?_ _).withoutR15 _) c
  have hload := alike_loadWord hns h
  have hself := h
  obtain ⟨m, rfl, -⟩ := h
  refine sameOutcome_andThen hself (hload _) fun ⟨v, u⟩ ⟨v', u'⟩ ⟨hv, hu⟩ => ?_
  obtain rfl : v' = v := hv
  exact ((hu.setReg _ _).setReg _ _).advance

/-- Every instruction. -/
theorem sameOutcome_exec (i : Instr) : Claims.sameOutcomeOutsideSecure (exec i s) (exec i s') := by
  have hself := h
  cases i with
  | cps change mode => exact sameOutcome_cps h change mode
  | smi c imm16 => exact sameOutcome_smi h c imm16
  | bxj c rm => exact sameOutcome_bxj h c rm
  | srs am wb mode => exact sameOutcome_srs hns h am wb mode
  | rfe am wb rn => exact sameOutcome_rfe hns h am wb rn
  | swp c rd rm rn => exact sameOutcome_swp hns h c rd rm rn
  | ldrex c rd rn => exact sameOutcome_ldrex hns h c rd rn
  | strex c rd rm rn => exact sameOutcome_strex hns h c rd rm rn
  | ldrPost c add rd rn imm12 => exact sameOutcome_ldrPost hns h c add rd rn imm12
  | pld => exact h.advance
  | cdp2 | mrc2 => exact rfl
  | bkpt => exact h.takeException _
  | blxReg c rm =>
    obtain ⟨m, rfl, -⟩ := h
    exact hself.conditional (Claims.sameOutcomeOutsideSecure.withoutR15 (((hself.setReg _ _).setCpsr _).jump _) _) c
  | blxLabel =>
    obtain ⟨m, rfl, -⟩ := h
    exact ((hself.setReg _ _).setCpsr _).jump _
  | b c imm24 =>
    obtain ⟨m, rfl, -⟩ := h
    exact hself.conditional (body := .next _) (body' := .next _) (hself.setPc _) c
  | setend =>
    obtain ⟨m, rfl, -⟩ := h
    exact hself.atLevel (hself.setCpsr _).advance .v6
  | msrCpsrF =>
    obtain ⟨m, rfl, -⟩ := h
    rw [exec, exec]
    exact hself.registerStep (hself.setCpsr _) _ _ _
  | clz | pkhbt | pkhtb | rev | rev16 | revsh | smulw | smul | uhsub8 | smusd | uxtb | sxtb16 | sel | usad8 =>
    obtain ⟨m, rfl, -⟩ := h
    rw [exec, exec]
    exact hself.registerStep (hself.setReg _ _) _ _ _
  | umaal | smlal | smlald | smlsld =>
    obtain ⟨m, rfl, -⟩ := h
    exact hself.longStep ((hself.setReg _ _).setReg _ _) _ _ _ _ _ _
  | subsImm | qadd | qsub | qdadd | qdsub | ssat | smlaw | smlad | smlsd | smuad
  | uadd8 | sadd8 | usub8 | ssub8 | uadd16 | sadd16 | usub16 | ssub16 | uaddsubx | saddsubx | usubaddx | ssubaddx
  | uqadd8 | qadd8 | uqsub8 | qsub8 | uqadd16 | qadd16 | uqsub16 | qsub16 | uqaddsubx | qaddsubx | uqsubaddx | qsubaddx =>
    obtain ⟨m, rfl, -⟩ := h
    rw [exec, exec]
    exact hself.registerStep ((hself.setReg _ _).setCpsr _) _ _ _

end

/-! ## The step -/

theorem nonSecure_environmentTurn (s : State) : (environmentTurn s).nonSecure = s.nonSecure := by
  obtain ⟨-, -, hcpsr, -, hns, hparams, -⟩ := environmentTurn_frame s
  exact nonSecure_congr hparams hns hcpsr

theorem sameOutcome_step {s s' : State} (hns : s.nonSecure = true) (h : Claims.agreeOutsideSecure s s') :
    Claims.sameOutcomeOutsideSecure (step s) (step s') := by
  have hmode : s'.cpsr = s.cpsr := by obtain ⟨m, rfl, -⟩ := h; rfl
  have hturn := h.environmentTurn
  have hns' : (environmentTurn s).nonSecure = true := (nonSecure_environmentTurn s).trans hns
  have hpending : (environmentTurn s').pendingException = (environmentTurn s).pendingException := by
    obtain ⟨m, hm, -⟩ := hturn; rw [hm]; rfl
  have harm : (environmentTurn s').armState = (environmentTurn s).armState := by obtain ⟨m, hm, -⟩ := hturn; rw [hm]; rfl
  have hfetch := fetchWord_of_agree hns' hturn
  unfold step
  simp only [hmode, hpending, harm, hfetch]
  split
  · exact rfl
  split
  · exact hturn.takePending _
  split
  · split
    · split
      · exact sameOutcome_exec hns' hturn _
      · exact rfl
    · exact hturn.takeException _
    · exact rfl
    · exact rfl
  · exact rfl

/-- Settles O16: two alike states step alike, and every next state keeps the secure bytes. -/
theorem nonSecureStepsIgnoreSecureMemory : Obligations.NonSecureStepsIgnoreSecureMemory := by
  refine ⟨fun s s' => sameOutcome_step, fun s t a hns henv htorn hstep ha => ?kept⟩
  have hturn := environmentTurn_of_no_action henv
  have hreaches := step_reaches hstep
  rw [hturn] at hreaches
  rcases hreaches with ⟨e, rfl⟩ | ⟨e, rfl⟩ | ⟨i, -, hi⟩
  · rfl
  · rfl
  · cases hi with
    | exception => rfl
    | sequential hkeeps | branch _ hkeeps => exact hkeeps.secure hns htorn a ha

end Sys2Proof.Machine
end
